-- ==== Sys2Proof/Word.lean ====
section
/-!
DEFINITION. The words of the pink-noise CORE: 64-bit registers, operands and response words, 128-bit command words,
and the bytes of a byte transport (00_scope.md R8, R13; 20_memory.md R52).
-/

namespace Sys2Proof

/-- A 64-bit word: an operand, a seed, a response word or `STATUS` (R8). -/
abbrev Word := BitVec 64

/-- A binary64 value, held as its IEEE 754 pattern: bit 63 the sign, bits 62:52 the biased exponent, bits 51:0 the
fraction (R13). -/
abbrev B64 := BitVec 64

/-- A 128-bit command word (R70). -/
abbrev CmdWord := BitVec 128

/-- One byte of a byte transport (R52). -/
abbrev Byte := BitVec 8

end Sys2Proof
end

