-- ==== Sys2Proof/Config.lean ====
section
/-!
DEFINITION. What an implementation of the block fixes (00_scope.md R6) and the one free value of the model: the sign
and payload of a NaN that an arithmetic operation makes. Both are opaque constants without a body: no proof can see a
value of them. Machine/Parameters.lean turns the raw configuration into one that keeps the laws R6 and R151 give it.
-/

namespace Sys2Proof

/-- An abstract white source (40_noise_generator.md R104). Its state type `St` is held as the numbers of its states, so
that the state of the block is plain data (log entry 4). That `draw` is a function is law L2. -/
structure WhiteSource where
  /-- the state that a seed gives -/
  seed : Word → Nat
  /-- one white sample and the next state -/
  draw : Nat → B64 × Nat
deriving Inhabited

/-- The parameters of R6 that a model takes as arguments. `NPORTS` is held as the number of ports beyond the first,
so that `NPORTS >= 1` needs no side condition. `ARB` is an input of the step (log entry 5). -/
structure Config where
  /-- `FS`, the sample rate in Hz. -/
  fs         : B64
  /-- `Sin64` of R151. -/
  sin64      : B64 → B64
  /-- `Cos64` of R151. -/
  cos64      : B64 → B64
  /-- `Pow10_64` of R151. -/
  pow10      : B64 → B64
  /-- `MAX_BLOCK`, the largest legal `RENDER` count. -/
  maxBlock   : Nat
  /-- `RESET_SEED`. -/
  resetSeed  : Word
  /-- `WhiteSource`. -/
  white      : WhiteSource
  /-- `NPORTS - 1`. -/
  extraPorts : Nat
deriving Inhabited

/-- The configuration of the block as its implementer chose it, before the laws of R6 and R151 are imposed. -/
opaque Config.raw : Config

/-- The five rounded operations of R9, named where a NaN result is taken from the free value. -/
inductive FpOp where
  | add | sub | mul | div | sqrt
deriving DecidableEq, Repr

/-- FREE VALUE. The bits an implementation gives a NaN result of an operation on two operands (the second is zero for
the square root). R240 says only that the value is the IEEE 754 default result; IEEE 754 leaves sign and payload open
(log entry 1). -/
opaque Config.freeNaN : FpOp → B64 → B64 → B64

end Sys2Proof
end

