-- ==== Sys2Proof/Machine/Ieee.lean ====
section
/-!
DEFINITION. IEEE 754 binary64 arithmetic on bit patterns: round to nearest, ties to even, one rounding per operation,
subnormals kept, nothing fused (00_scope.md R9, R10), and the comparisons and the clamp of R11.

Every finite binary64 value is a whole multiple of 2^-1074. Each operation computes its exact result as a fraction of
that unit and rounds it once, at the end.
-/

namespace Sys2Proof.Machine

/-! ### The parts of a pattern (R13) -/

/-- Bits 62:0 of a pattern: the magnitude, as a number. -/
def magBits (x : B64) : Nat := x.toNat % 2 ^ 63

/-- Bit 63. -/
def signBit (x : B64) : Bool := x.msb

/-- The magnitude bits of an infinity. -/
def infMag : Nat := 0x7FF0000000000000

/-- Exponent all ones and fraction non-zero, quiet or signalling (R241 cause 4). -/
def isNaN (x : B64) : Bool := decide (infMag < magBits x)

def isInf (x : B64) : Bool := magBits x == infMag

def isFinite (x : B64) : Bool := decide (magBits x < infMag)

def isZero (x : B64) : Bool := magBits x == 0

/-- How many units of 2^-1074 make up 1.0. -/
def unitsPerOne : Nat := 2 ^ 1074

/-- The finite value that magnitude bits stand for, in units of 2^-1074: the exponent field 0 is that of the
subnormals and of zero. -/
def scaledMag (m : Nat) : Nat :=
  if m / 2 ^ 52 = 0 then m % 2 ^ 52 else (2 ^ 52 + m % 2 ^ 52) * 2 ^ (m / 2 ^ 52 - 1)

/-- The magnitude of a finite value in units of 2^-1074. -/
def scaled (x : B64) : Nat := scaledMag (magBits x)

/-- A finite value in units of 2^-1074. -/
def scaledInt (x : B64) : Int := if signBit x then -(scaled x : Int) else (scaled x : Int)

/-- The pattern with the given sign and magnitude bits. -/
def pack (neg : Bool) (mag : Nat) : B64 := BitVec.ofNat 64 (if neg then 2 ^ 63 + mag else mag)

/-- Round to nearest, ties to even: `m` or `m + 1`, where the exact value is `m + r / u` and `r < u`. -/
def roundTie (m r u : Nat) : Nat :=
  if 2 * r < u then m else if u < 2 * r then m + 1 else m + m % 2

/-- The magnitude bits of the binary64 value nearest to `n / d` units of 2^-1074, ties to even; from the overflow
threshold on, those of infinity (R9). `k` is the number of low bits that do not fit the 53-bit significand. -/
def roundMag (n d : Nat) : Nat :=
  let k := (n / d).log2 - 52
  let u := d * 2 ^ k
  min (k * 2 ^ 52 + roundTie (n / u) (n % u) u) infMag

/-- A NaN result: quiet, with the sign and payload of the free value (R240, log entry 1). -/
def nanResult (op : FpOp) (a b : B64) : B64 :=
  0x7FF8000000000000#64 ||| (Config.freeNaN op a b &&& 0x8007FFFFFFFFFFFF#64)

/-! ### The rounded operations (R9) -/

/-- The pattern with its sign inverted: the meaning of a literal's leading minus. -/
def fneg (x : B64) : B64 := pack (!signBit x) (magBits x)

/-- The sum of two finite values. An exact zero sum is `-0.0` only when both operands are negative. -/
def addFinite (a b : B64) : B64 :=
  let z := scaledInt a + scaledInt b
  if z = 0 then pack (signBit a && signBit b) 0
  else pack (decide (z < 0)) (roundMag z.natAbs 1)

/-- `a + b'` where `b'` is `b` or `-b`; a NaN result is that of `op` on `a` and `b`. -/
def addAs (op : FpOp) (a b b' : B64) : B64 :=
  if isNaN a || isNaN b then nanResult op a b
  else if isInf a then (if isInf b && (signBit a != signBit b') then nanResult op a b else a)
  else if isInf b then b'
  else addFinite a b'

/-- `a + b`. -/
def fadd (a b : B64) : B64 := addAs .add a b b

/-- `a - b`. -/
def fsub (a b : B64) : B64 := addAs .sub a b (fneg b)

/-- `a * b`. -/
def fmul (a b : B64) : B64 :=
  let neg := signBit a != signBit b
  if isNaN a || isNaN b then nanResult .mul a b
  else if isInf a || isInf b then
    (if isZero a || isZero b then nanResult .mul a b else pack neg infMag)
  else pack neg (roundMag (scaled a * scaled b) unitsPerOne)

/-- `a / b`. -/
def fdiv (a b : B64) : B64 :=
  let neg := signBit a != signBit b
  if isNaN a || isNaN b then nanResult .div a b
  else if isInf a then (if isInf b then nanResult .div a b else pack neg infMag)
  else if isInf b then pack neg 0
  else if isZero b then (if isZero a then nanResult .div a b else pack neg infMag)
  else pack neg (roundMag (scaled a * unitsPerOne) (scaled b))

/-- Newton's iteration for the integer square root, from above: it stops when the estimate no longer falls. -/
def isqrtLoop (m : Nat) : Nat → Nat → Nat
  | 0, x => x
  | fuel + 1, x =>
    let y := (x + m / x) / 2
    if y < x then isqrtLoop m fuel y else x

/-- The integer part of the square root. -/
def isqrt (m : Nat) : Nat := isqrtLoop m (m.log2 + 2) (2 ^ (m.log2 / 2 + 1))

/-- `Sqrt(a)`, correctly rounded. The root of a value of `N` units is the root of `N * 2^1074` units; where that is no
whole number, half a unit stands for its fraction, which lies on the same side of every rounding boundary. -/
def fsqrt (a : B64) : B64 :=
  if isNaN a then nanResult .sqrt a 0
  else if isZero a then a
  else if signBit a then nanResult .sqrt a 0
  else if isInf a then a
  else
    let m := scaled a * unitsPerOne
    let r := isqrt m
    pack false (roundMag (2 * r + (if r * r = m then 0 else 1)) 2)

/-! ### Comparisons and the clamp (R11) -/

/-- The order of the values that are no NaN: `-0.0` and `+0.0` have the same key. -/
def orderKey (x : B64) : Int := if signBit x then -(magBits x : Int) else (magBits x : Int)

/-- `a < b`; false when either is a NaN. -/
def flt (a b : B64) : Bool := !isNaN a && !isNaN b && decide (orderKey a < orderKey b)

/-- `a <= b`; false when either is a NaN. -/
def fle (a b : B64) : Bool := !isNaN a && !isNaN b && decide (orderKey a ≤ orderKey b)

/-- `clamp(v, lo, hi)` of R11: a NaN and a signed zero pass through. -/
def clamp (v lo hi : B64) : B64 := if flt v lo then lo else if flt hi v then hi else v

/-- `lo <= v <= hi`. -/
def inRange (lo hi v : B64) : Bool := fle lo v && fle v hi

/-! ### Literals (R10) -/

/-- The binary64 value nearest to the decimal fraction `n / d`. -/
def literal (n d : Nat) : B64 := pack false (roundMag (n * unitsPerOne) d)

/-- The binary64 value of a whole number (nearest, for those beyond 2^53). -/
def whole (n : Nat) : B64 := literal n 1

/-- `PI`, the binary64 value nearest to π (R10 gives its bits). -/
def piB64 : B64 := 0x400921FB54442D18#64

end Sys2Proof.Machine
end

