-- ==== Sys2Proof/Machine/Parameters.lean ====
section
/-!
DEFINITION. The laws the specification gives its parameters (00_scope.md R6; 41_biquad_filter.md R151;
40_noise_generator.md R104) and the block's
own configuration: the raw one with every value that breaks a law replaced by one that keeps it. A claim about
`blockConfig` is therefore a claim about every configuration that keeps these laws (log entry 3).
-/

namespace Sys2Proof.Machine

/-- `FS` is finite and `FS > 6000` (R6). -/
def fsLegal (x : B64) : Bool := isFinite x && flt (whole 6000) x

/-- What T1 and T3 leave for a sine of an argument strictly between 0 and π. -/
def sinLegal (y : B64) : Bool := flt 0 y && fle y (whole 1)

/-- What T1 and T3 leave for a cosine of an argument strictly between 0 and π: no binary64 argument there has cosine
zero. -/
def cosLegal (y : B64) : Bool := fle (fneg (whole 1)) y && fle y (whole 1) && !isZero y

/-- What T1 and T3 leave for a power of ten with exponent in [-0.3, 0.3]. -/
def pow10Legal (y : B64) : Bool := inRange (literal 1 2) (whole 2) y

/-- L1 of R104: a drawn sample is finite and lies in `[-1, 1]`. -/
def sampleLegal (w : B64) : Bool := inRange (fneg (whole 1)) (whole 1) w

/-- The laws of R6, of R151 (T1, T2, and what T3 says of sign and range; log entry 2) and of R104 (L1; L2 is that
`draw` is a function, and L3 is what reset and `RESEED` do). -/
structure ConfigLegal (c : Config) : Prop where
  fs       : fsLegal c.fs = true
  sin64    : ∀ x, sinLegal (c.sin64 x) = true
  cos64    : ∀ x, cosLegal (c.cos64 x) = true
  pow10    : ∀ x, pow10Legal (c.pow10 x) = true
  pow10_0  : ∀ x, isZero x = true → c.pow10 x = whole 1
  white    : ∀ S, sampleLegal (c.white.draw S).1 = true
  maxBlock : 1 ≤ c.maxBlock

/-- A configuration with the values that break a law replaced by the reference value of R6, by 1.0, or, where a
sample breaks its law, by 0.0. -/
def legalise (c : Config) : Config where
  fs := if fsLegal c.fs then c.fs else whole 48000
  sin64 x := if sinLegal (c.sin64 x) then c.sin64 x else whole 1
  cos64 x := if cosLegal (c.cos64 x) then c.cos64 x else whole 1
  pow10 x := if isZero x then whole 1 else if pow10Legal (c.pow10 x) then c.pow10 x else whole 1
  white := { c.white with
    draw := fun S => let d := c.white.draw S
      (if sampleLegal d.1 then d.1 else 0, d.2) }
  maxBlock := if c.maxBlock = 0 then 65536 else c.maxBlock
  resetSeed := c.resetSeed
  extraPorts := c.extraPorts

/-- The configuration of the block, fixed for its life (R20). -/
def blockConfig : Config := legalise Config.raw

end Sys2Proof.Machine
end

