-- ==== Sys2Proof/Syntax.lean ====
section
/-!
DEFINITION. The commands of the block: one constructor per row of spec/opcode_table.json, in the table's order
(30_encoding.md R73). An operand of kind F, U or B is the whole operand field as it stands (R72); a command of kind X
has none. Below them, the causes of an illegal command (60_exceptions.md R241) and the pseudo-instructions of R80.
-/

namespace Sys2Proof

/-- One command. -/
inductive Instr where
  | nop
  | setPower (operand : Word)
  | setVolume (v : B64)
  | setColor (v : B64)
  | setBass (v : B64)
  | setTreble (v : B64)
  | reseed (x : Word)
  | render (n : Word)
  | getPower
  | getVolume
  | getColor
  | getBass
  | getTreble
  | getMasterVol
  | getStatus
deriving DecidableEq, Repr

/-- Why a command word is illegal (R241). -/
inductive Cause where
  | reservedBits
  | unknownOpcode
  | blockTooLong
  | nanOperand
deriving DecidableEq, Repr

/-- The pseudo-instructions of R80. -/
inductive Pseudo where
  | powerOn
  | powerOff
  | preset (c b t : B64)
  | silence
deriving DecidableEq, Repr

/-- The commands a pseudo-instruction stands for, in order, on one port (R80). `SILENCE` is `SET_VOLUME 0.0`. -/
def Pseudo.expand : Pseudo → List Instr
  | .powerOn => [.setPower 1]
  | .powerOff => [.setPower 0]
  | .preset c b t => [.setColor c, .setBass b, .setTreble t]
  | .silence => [.setVolume 0]

end Sys2Proof
end

