-- ==== Sys2Proof/Machine/Operands.lean ====
section
/-!
DEFINITION. How a command reads its operand (30_encoding.md R72) and the two checks that depend on it (R74): a count
beyond `MAX_BLOCK` and a NaN in a kind-F operand.
-/

namespace Sys2Proof.Machine

/-- Kind B: true when the operand is not zero. -/
def boolOperand (operand : Word) : Bool := operand != 0

/-- Kind U read as a sample count. -/
def countOperand (operand : Word) : Nat := operand.toNat

/-- `n > MAX_BLOCK` (R188). The count 0 is legal whatever `MAX_BLOCK` is, because `MAX_BLOCK >= 1`. -/
def blockTooLong (cfg : Config) (operand : Word) : Bool :=
  match countOperand operand with
  | 0 => false
  | n + 1 => decide (cfg.maxBlock < n + 1)

/-- The cause a decoded command's own check gives, if any (R74, R241). -/
def operandCause (cfg : Config) : Instr → Option Cause
  | .render n => if blockTooLong cfg n then some .blockTooLong else none
  | .setVolume v => if isNaN v then some .nanOperand else none
  | .setColor v => if isNaN v then some .nanOperand else none
  | .setBass v => if isNaN v then some .nanOperand else none
  | .setTreble v => if isNaN v then some .nanOperand else none
  | .nop => none
  | .setPower _ => none
  | .reseed _ => none
  | .getPower => none
  | .getVolume => none
  | .getColor => none
  | .getBass => none
  | .getTreble => none
  | .getMasterVol => none
  | .getStatus => none

end Sys2Proof.Machine
end

