-- ==== Sys2Proof/WellFormed.lean ====
section
/-!
DEFINITION. A well-formed command is a legal one: it passes the checks that depend on its operand (30_encoding.md R74,
60_exceptions.md R241). Every field of the other commands is legal at every value. A command that is not well formed
still executes: its effect is the illegal-command outcome (R242).
-/

namespace Sys2Proof

/-- The command passes the operand checks of R74 under a configuration. -/
abbrev Instr.wellFormedFor (cfg : Config) (i : Instr) : Prop := Machine.operandCause cfg i = none

/-- The command is legal on the block. -/
abbrev Instr.wellFormed (i : Instr) : Prop := i.wellFormedFor Machine.blockConfig

end Sys2Proof
end

