-- ==== Sys2Proof/Decode.lean ====
section
/-!
DEFINITION. Command words to commands (30_encoding.md R70 to R78), commands to command words, and the byte order of a
byte transport (20_memory.md R52).
-/

namespace Sys2Proof

/-! ### Fields (R71) -/

/-- `OP`, bits 7:0. -/
def opcodeField (w : CmdWord) : BitVec 8 := w.extractLsb' 0 8

/-- `RSV`, bits 63:8. -/
def reservedField (w : CmdWord) : BitVec 56 := w.extractLsb' 8 56

/-- `OPERAND`, bits 127:64. -/
def operandField (w : CmdWord) : Word := w.extractLsb' 64 64

/-! ### Decoding (R73, R74) -/

/-- The opcode map of R73: the command of an opcode and an operand, or none for a reserved opcode (R77). -/
def decodeOpcode (op : BitVec 8) (x : Word) : Option Instr :=
  match op.toNat with
  | 0x00 => some .nop
  | 0x01 => some (.setPower x)
  | 0x02 => some (.setVolume x)
  | 0x03 => some (.setColor x)
  | 0x04 => some (.setBass x)
  | 0x05 => some (.setTreble x)
  | 0x06 => some (.reseed x)
  | 0x07 => some (.render x)
  | 0x10 => some .getPower
  | 0x11 => some .getVolume
  | 0x12 => some .getColor
  | 0x13 => some .getBass
  | 0x14 => some .getTreble
  | 0x15 => some .getMasterVol
  | 0x16 => some .getStatus
  | _ => none

/-- Total decoding: reserved bits are checked first, then the opcode (R74). -/
def decode (w : CmdWord) : Except Cause Instr :=
  if reservedField w ≠ 0 then .error .reservedBits
  else match decodeOpcode (opcodeField w) (operandField w) with
    | some i => .ok i
    | none => .error .unknownOpcode

/-! ### Encoding (R71, R73) -/

/-- The opcode of a command (R73). -/
def Instr.opcode : Instr → BitVec 8
  | .nop => 0x00
  | .setPower _ => 0x01
  | .setVolume _ => 0x02
  | .setColor _ => 0x03
  | .setBass _ => 0x04
  | .setTreble _ => 0x05
  | .reseed _ => 0x06
  | .render _ => 0x07
  | .getPower => 0x10
  | .getVolume => 0x11
  | .getColor => 0x12
  | .getBass => 0x13
  | .getTreble => 0x14
  | .getMasterVol => 0x15
  | .getStatus => 0x16

/-- The operand field of a command; the assembler writes 0 for kind X (R79). -/
def Instr.operand : Instr → Word
  | .nop => 0
  | .setPower x => x
  | .setVolume v => v
  | .setColor v => v
  | .setBass v => v
  | .setTreble v => v
  | .reseed x => x
  | .render n => n
  | .getPower => 0
  | .getVolume => 0
  | .getColor => 0
  | .getBass => 0
  | .getTreble => 0
  | .getMasterVol => 0
  | .getStatus => 0

/-- Whether the operand of an opcode is ignored: kind X of R73. -/
def Instr.ignoresOperand : Instr → Bool
  | .nop => true
  | .setPower _ => false
  | .setVolume _ => false
  | .setColor _ => false
  | .setBass _ => false
  | .setTreble _ => false
  | .reseed _ => false
  | .render _ => false
  | .getPower => true
  | .getVolume => true
  | .getColor => true
  | .getBass => true
  | .getTreble => true
  | .getMasterVol => true
  | .getStatus => true

/-- A command word from its three fields (R71). -/
def commandWord (operand : Word) (rsv : BitVec 56) (op : BitVec 8) : CmdWord :=
  operand ++ (rsv ++ op : BitVec 64)

/-- The word of a command. -/
def encode (i : Instr) : CmdWord := commandWord i.operand 0 i.opcode

/-! ### Byte transport (R52, R53) -/

/-- The word whose byte `j` is the `j`-th element: little-endian, the opcode byte first. -/
def wordOfBytes : List Byte → Nat
  | [] => 0
  | b :: bs => b.toNat + 256 * wordOfBytes bs

/-- The bytes of a command word, byte `j` being `word[8j+7:8j]`. -/
def commandBytes (w : CmdWord) : List Byte := (List.range 16).map fun j => w.extractLsb' (8 * j) 8

/-- The bytes of a response word. -/
def responseBytes (w : Word) : List Byte := (List.range 8).map fun j => w.extractLsb' (8 * j) 8

/-- The command word that 16 bytes make; no other number of bytes makes one (R53). -/
def commandOfBytes (bs : List Byte) : Option CmdWord :=
  if bs.length = 16 then some (BitVec.ofNat 128 (wordOfBytes bs)) else none

/-- Decoding from a byte transport: none while the word is incomplete. -/
def decodeBytes (bs : List Byte) : Option (Except Cause Instr) := (commandOfBytes bs).map decode

/-! ### The opcode table's numbering -/

/-- The command word whose low `nbits` bits are `w` and whose other bits are 0. -/
def tableWord (nbits w : Nat) : CmdWord := BitVec.ofNat 128 (w % 2 ^ nbits)

/-- What the decoder reads from a row's bits (spec/opcode_table.json: bits 63:0 of the command word). -/
def decodeTableWord (nbits w : Nat) : Option Instr := (decode (tableWord nbits w)).toOption

end Sys2Proof
end

