-- ==== Sys2Proof/Machine/Coefficients.lean ====
section
/-!
DEFINITION. The coefficients of a shelving filter as a function of shelf type and gain (41_biquad_filter.md R150 to
R157): what `UpdateGain` writes.
-/

namespace Sys2Proof.Machine

/-- The two stages of each channel (R150): `LS` at 300 Hz, `HS` at 3000 Hz. -/
inductive Shelf where
  | low
  | high
deriving DecidableEq, Repr

/-- The five coefficient registers of an instance (10_state.md R31). -/
structure Coeffs where
  b0 : B64
  b1 : B64
  b2 : B64
  a1 : B64
  a2 : B64
deriving DecidableEq, Repr

/-- The six raw coefficients of R153 and R154, before normalisation. -/
structure RawCoeffs where
  b0 : B64
  b1 : B64
  b2 : B64
  a0 : B64
  a1 : B64
  a2 : B64
deriving DecidableEq, Repr

/-- The intermediates of R152 that the raw coefficients use. -/
structure Intermediates where
  cw  : B64
  A   : B64
  tsa : B64
  Ap1 : B64
  Am1 : B64
deriving DecidableEq, Repr

/-- The fixed centre frequency of a shelf (R150). -/
def centreFrequency : Shelf → B64
  | .low => whole 300
  | .high => whole 3000

/-- `w0 = ((2.0 * PI) * f0) / FS` (R152). -/
def angularFrequency (cfg : Config) (shelf : Shelf) : B64 :=
  fdiv (fmul (fmul (whole 2) piB64) (centreFrequency shelf)) cfg.fs

/-- R152. -/
def intermediates (cfg : Config) (shelf : Shelf) (gainDB : B64) : Intermediates :=
  let w0 := angularFrequency cfg shelf
  let sw := cfg.sin64 w0
  let alpha := fmul (fdiv sw (whole 2)) (fsqrt (whole 2))
  let A := cfg.pow10 (fdiv gainDB (whole 40))
  { cw := cfg.cos64 w0
    A := A
    tsa := fmul (fmul (whole 2) (fsqrt A)) alpha
    Ap1 := fadd A (whole 1)
    Am1 := fsub A (whole 1) }

/-- R153, the low shelf. -/
def lowShelfRaw (v : Intermediates) : RawCoeffs where
  b0 := fmul v.A (fadd (fsub v.Ap1 (fmul v.Am1 v.cw)) v.tsa)
  b1 := fmul (fmul (whole 2) v.A) (fsub v.Am1 (fmul v.Ap1 v.cw))
  b2 := fmul v.A (fsub (fsub v.Ap1 (fmul v.Am1 v.cw)) v.tsa)
  a0 := fadd (fadd v.Ap1 (fmul v.Am1 v.cw)) v.tsa
  a1 := fmul (fneg (whole 2)) (fadd v.Am1 (fmul v.Ap1 v.cw))
  a2 := fsub (fadd v.Ap1 (fmul v.Am1 v.cw)) v.tsa

/-- R154, the high shelf. -/
def highShelfRaw (v : Intermediates) : RawCoeffs where
  b0 := fmul v.A (fadd (fadd v.Ap1 (fmul v.Am1 v.cw)) v.tsa)
  b1 := fmul (fmul (fneg (whole 2)) v.A) (fadd v.Am1 (fmul v.Ap1 v.cw))
  b2 := fmul v.A (fsub (fadd v.Ap1 (fmul v.Am1 v.cw)) v.tsa)
  a0 := fadd (fsub v.Ap1 (fmul v.Am1 v.cw)) v.tsa
  a1 := fmul (whole 2) (fsub v.Am1 (fmul v.Ap1 v.cw))
  a2 := fsub (fsub v.Ap1 (fmul v.Am1 v.cw)) v.tsa

def rawCoeffs (cfg : Config) (shelf : Shelf) (gainDB : B64) : RawCoeffs :=
  match shelf with
  | .low => lowShelfRaw (intermediates cfg .low gainDB)
  | .high => highShelfRaw (intermediates cfg .high gainDB)

/-- R155: each stored coefficient is the raw one divided by `a0r`. -/
def normalise (r : RawCoeffs) : Coeffs where
  b0 := fdiv r.b0 r.a0
  b1 := fdiv r.b1 r.a0
  b2 := fdiv r.b2 r.a0
  a1 := fdiv r.a1 r.a0
  a2 := fdiv r.a2 r.a0

/-- The coefficients `UpdateGain` writes for a gain in dB (R156). -/
def coefficients (cfg : Config) (shelf : Shelf) (gainDB : B64) : Coeffs :=
  normalise (rawCoeffs cfg shelf gainDB)

/-- The gain of a slider: `(slider / 100.0) * 12.0` (R157). -/
def gainOf (slider : B64) : B64 := fmul (fdiv slider (whole 100)) (whole 12)

end Sys2Proof.Machine
end

