-- ==== Sys2Proof/Machine/State.lean ====
section
/-!
DEFINITION. The state of the block (10_state.md R20 to R33), the reasons a step could stop, and the state after reset
(10_state.md R38; 70_reset_and_hazards.md R270). The block has no program counter, no register file and no memory
(R20, R50), so State holds none.
-/

namespace Sys2Proof.Machine

/-- The seven pink accumulators of a slot, `PINK_s[0..6]` (R27). -/
structure Pink where
  k0 : B64
  k1 : B64
  k2 : B64
  k3 : B64
  k4 : B64
  k5 : B64
  k6 : B64
deriving DecidableEq, Repr

/-- The generator registers of one slot (R27). White has none. -/
structure Slot where
  /-- `PINK_s[0..6]` -/
  pink  : Pink
  /-- `BROWN_s` -/
  brown : B64
  /-- `BLUE_s_W`, the previous white sample -/
  blueW : B64
  /-- `VIOL_s_W`, the previous white sample -/
  violW : B64
  /-- `VIOL_s_B`, the previous first difference -/
  violB : B64
deriving DecidableEq, Repr

/-- The delay registers of a filter instance (R32). -/
structure Delay where
  x1 : B64
  x2 : B64
  y1 : B64
  y2 : B64
deriving DecidableEq, Repr

/-- One BiquadFilter instance `F[ch][st]` (R30 to R32). -/
structure Biquad where
  coef  : Coeffs
  delay : Delay
deriving DecidableEq, Repr

/-- The queues of one port (R33). -/
structure Port where
  /-- `CMDQ[p]`, oldest first -/
  cmdq     : List CmdWord
  /-- `RSPQ[p]`, oldest first; the words beyond the depth are those whose `emit` still waits (R277) -/
  rspq     : List Word
  /-- the bytes of a command word partly received over a byte transport (R53, R271) -/
  rx       : List Byte
  /-- depth of `CMDQ[p]`; `none` is unbounded (R277) -/
  cmdDepth : Option Nat
  /-- depth of `RSPQ[p]`; `none` is unbounded (R277) -/
  rspDepth : Option Nat
deriving DecidableEq, Repr

/-- What the world outside the core does next (R51, R52, R250, R270; log entry 9): a host offers a command word or a byte of one,
a host takes a response word, the arbiter chooses a port, the reset input is asserted or released. -/
inductive EnvEvent where
  | send (p : Nat) (w : CmdWord)
  | sendByte (p : Nat) (b : Byte)
  | take (p : Nat)
  | grant (p : Nat)
  | assertReset
  | releaseReset
deriving DecidableEq, Repr

/-- The whole state. `issuer`, `inReset` and `env` stand for the ports and the outside (log entries 9, 11). -/
structure State where
  /-- `POWER` (R21) -/
  power     : Bool
  /-- `TARGET_VOL` (R22) -/
  targetVol : B64
  /-- `MASTER_VOL` (R23) -/
  masterVol : B64
  /-- `COLOR` (R24) -/
  color     : B64
  /-- `BASS` (R25) -/
  bass      : B64
  /-- `TREBLE` (R25) -/
  treble    : B64
  /-- `STATUS` (R26) -/
  status    : Word
  /-- the primary slot of every colour (R27) -/
  primary   : Slot
  /-- the secondary slot of every colour (R27) -/
  secondary : Slot
  /-- `RNG`, the state of the white source, by its number (R29, R104) -/
  rng       : Nat
  /-- `F[L][LS]` (R30) -/
  leftLS    : Biquad
  /-- `F[L][HS]` -/
  leftHS    : Biquad
  /-- `F[R][LS]` -/
  rightLS   : Biquad
  /-- `F[R][HS]` -/
  rightHS   : Biquad
  /-- the ports, port 0 first (R33) -/
  ports     : List Port
  /-- the pointer `q` of the reference arbiter (R250) -/
  rr        : Nat
  /-- the port whose command executes, or executed last: the `p` of the command rules (R180) -/
  issuer    : Nat
  /-- the reset input is asserted (R270) -/
  inReset   : Bool
  /-- what the hosts, the arbiter and the reset input do next, soonest first (R51, R250, R270) -/
  env       : List EnvEvent
deriving DecidableEq, Repr

/-- The reasons a step could stop the machine. There are none: no command raises a trap (60_exceptions.md R240), an
illegal command never stops the block (R242), and a stalled core waits (70_reset_and_hazards.md R277; log entry 12). -/
inductive Fault where
deriving DecidableEq, Repr

/-- The reasons the model could give an instruction no meaning. -/
inductive Refusal where
  /-- An instruction whose meaning is not written yet, raised by `exec` for an arm rejected by name: safe. No arm is
  rejected, so nothing raises it. -/
  | notModelled (mnemonic : String)
deriving DecidableEq, Repr

/-! ### Reset -/

/-- All generator registers at +0.0 (R38). -/
def Slot.zero : Slot where
  pink := ⟨0, 0, 0, 0, 0, 0, 0⟩
  brown := 0
  blueW := 0
  violW := 0
  violB := 0

/-- All delay registers at +0.0 (R38). -/
def Delay.zero : Delay := ⟨0, 0, 0, 0⟩

/-- A port with empty queues of unbounded depth (R38; log entry 6 for the depth). -/
def Port.empty : Port := ⟨[], [], [], none, none⟩

/-- An instance after reset: the 0 dB coefficients and zero delay registers (R38). -/
def Biquad.atReset (cfg : Config) (shelf : Shelf) : Biquad := ⟨coefficients cfg shelf 0, Delay.zero⟩

/-- The reset table of R38 and R270 for a configuration. -/
def State.resetWith (cfg : Config) : State where
  power := false
  targetVol := 0
  masterVol := 0
  color := whole 25
  bass := 0
  treble := 0
  status := 0
  primary := Slot.zero
  secondary := Slot.zero
  rng := cfg.white.seed cfg.resetSeed
  leftLS := Biquad.atReset cfg .low
  leftHS := Biquad.atReset cfg .high
  rightLS := Biquad.atReset cfg .low
  rightHS := Biquad.atReset cfg .high
  ports := Port.empty :: List.replicate cfg.extraPorts Port.empty
  rr := 0
  issuer := 0
  inReset := false
  env := []

/-- The machine right after reset is released (log entry 11 for the model's own fields). -/
def State.reset : State := State.resetWith blockConfig

end Sys2Proof.Machine
end

