-- ==== Sys2Proof/Machine/Flags.lean ====
section
/-!
DEFINITION. The fields of `STATUS` (10_state.md R26) and what an illegal command writes to them (60_exceptions.md
R241, R242). The block has no other flag: a floating-point exception sets none (R240).
-/

namespace Sys2Proof.Machine

/-- The cause code of R241. -/
def causeCode : Cause → BitVec 4
  | .reservedBits => 1
  | .unknownOpcode => 2
  | .blockTooLong => 3
  | .nanOperand => 4

/-- `STATUS.ILL`, bit 0. -/
def statusIll (st : Word) : Bool := st.getLsbD 0

/-- `STATUS.FIRST_CAUSE`, bits 7:4. -/
def statusFirstCause (st : Word) : BitVec 4 := st.extractLsb' 4 4

/-- `STATUS[7:4] <- cause; STATUS[0] <- 1`, the other bits kept. -/
def statusWithCause (st : Word) (c : Cause) : Word :=
  (st &&& 0xFFFFFFFFFFFFFF0E#64) ||| ((causeCode c).setWidth 64 <<< 4) ||| 1

/-- The first illegal command since reset sets both fields; a later one leaves `STATUS` as it is (R242). -/
def recordIllegal (st : Word) (c : Cause) : Word :=
  if statusIll st then st else statusWithCause st c

/-- The values R26 allows: 0, or `ILL` with a cause of 1 to 4 and every reserved bit 0. -/
def statusLegal (st : Word) : Bool :=
  st == 0 || st == 0x11 || st == 0x21 || st == 0x31 || st == 0x41

end Sys2Proof.Machine
end

