-- ==== Sys2Proof/Machine/Ops.lean ====
section
/-!
DEFINITION. The operations the commands and the step share: the illegal-command outcome, emitting response words,
choosing and taking a command, and what hosts and the reset input do at the ports.
-/

namespace Sys2Proof.Machine

/-! ### The illegal-command outcome: the block's only exception -/

/-- `raise Illegal(cause)` (60_exceptions.md R242): nothing is written but `STATUS`, nothing is emitted, and the core
goes on with the next command. There is no trap entry and no return from one (R245, R246). -/
def raiseIllegal (c : Cause) (s : State) : State := { s with status := recordIllegal s.status c }

/-! ### Responses -/

/-- `emit(p, v)` for each word in order, with `p` the port of the executing command (00_scope.md R13). -/
def emit (ws : List Word) (s : State) : State :=
  { s with ports := s.ports.modify s.issuer fun p => { p with rspq := p.rspq ++ ws } }

/-- Words of this port still wait for room in `RSPQ[p]` (70_reset_and_hazards.md R277). -/
def Port.overfull (p : Port) : Bool :=
  match p.rspq with
  | [] => false
  | w :: ws =>
    match p.rspDepth with
    | none => false
    | some d => decide (d < (w :: ws).length)

/-- The core is stalled: the command that executed last still waits to emit (R180, R277). -/
def stalled (s : State) : Bool :=
  match s.ports[s.issuer]? with
  | some p => p.overfull
  | none => false

/-! ### Arbitration (60_exceptions.md R250) -/

/-- Port `p` has a command pending. -/
def pending (s : State) (p : Nat) : Bool :=
  match s.ports[p]? with
  | some port => !port.cmdq.isEmpty
  | none => false

/-- The reference arbiter: the first pending port among `q, q+1, …` modulo `NPORTS`. -/
def roundRobin (s : State) : Option Nat :=
  ((List.range s.ports.length).map fun i => (s.rr + i) % s.ports.length).find? (pending s)

/-- The arbiter's choice: the port the environment grants where it has a command pending, the reference arbiter's
otherwise (log entry 5). -/
def arbitrate (s : State) : Option Nat → Option Nat
  | some p => if pending s p then some p else roundRobin s
  | none => roundRobin s

/-- The head of `CMDQ[p]`. -/
def headCommand (s : State) (p : Nat) : Option CmdWord :=
  match s.ports[p]? with
  | some port => port.cmdq.head?
  | none => none

/-- The command the core takes next, with its port; none when it is idle (R252). -/
def nextCommand (s : State) (choice : Option Nat) : Option (Nat × CmdWord) :=
  match arbitrate s choice with
  | some p => (headCommand s p).map fun w => (p, w)
  | none => none

/-- Take the command at the head of `CMDQ[p]` for execution: it leaves the queue, `p` becomes the issuing port, and
the pointer moves on (R250). -/
def beginCommand (p : Nat) (s : State) : State :=
  { s with
    ports := s.ports.modify p fun port => { port with cmdq := port.cmdq.tail }
    rr := (p + 1) % s.ports.length
    issuer := p }

/-! ### The hosts (20_memory.md R51 to R53) -/

/-- `CMDQ[p]` can take a word. -/
def Port.hasRoom (p : Port) : Bool :=
  match p.cmdDepth with
  | none => true
  | some d => decide (p.cmdq.length < d)

/-- A port takes a whole command word if it has room; otherwise the word does not move (R277). -/
def Port.receive (w : CmdWord) (p : Port) : Port :=
  if p.hasRoom then { p with cmdq := p.cmdq ++ [w] } else p

/-- A port takes one byte of a command word. The word enters `CMDQ[p]` with its sixteenth byte, which does not move
while there is no room (R53). -/
def Port.receiveByte (b : Byte) (p : Port) : Port :=
  match commandOfBytes (p.rx ++ [b]) with
  | none => { p with rx := p.rx ++ [b] }
  | some w => if p.hasRoom then { p with cmdq := p.cmdq ++ [w], rx := [] } else p

/-- The host of port `p` offers a command word; nothing moves during reset (R270). -/
def hostSend (p : Nat) (w : CmdWord) (s : State) : State :=
  if s.inReset then s else { s with ports := s.ports.modify p (Port.receive w) }

/-- The host of port `p` offers one byte of a command word. -/
def hostSendByte (p : Nat) (b : Byte) (s : State) : State :=
  if s.inReset then s else { s with ports := s.ports.modify p (Port.receiveByte b) }

/-- The host of port `p` takes the oldest response word, if there is one. -/
def hostTake (p : Nat) (s : State) : State :=
  if s.inReset then s
  else { s with ports := s.ports.modify p fun port => { port with rspq := port.rspq.tail } }

/-! ### The reset input (70_reset_and_hazards.md R270, R271) -/

/-- A port with its queues and its partial word emptied; its depths are no state of the block and stay. -/
def Port.cleared (p : Port) : Port := { p with cmdq := [], rspq := [], rx := [] }

/-- Reset is asserted: every register takes its reset value and every queue is emptied, whatever the core is doing.
What the hosts do later is not the block's to change. -/
def assertReset (cfg : Config) (s : State) : State :=
  { State.resetWith cfg with ports := s.ports.map Port.cleared, inReset := true, env := s.env }

/-- Reset is released. -/
def releaseReset (s : State) : State := { s with inReset := false }

/-! ### Placing a command where the next step takes it -/

/-- The oldest responses of a port that fit its queue: a port none of whose words wait. -/
def Port.relieved (p : Port) : Port :=
  match p.rspDepth with
  | none => p
  | some d => { p with rspq := p.rspq.take d }

/-- A command word at the head of `CMDQ[0]`; a block has at least one port (R6). -/
def placeFirst (w : CmdWord) : List Port → List Port
  | [] => [{ Port.empty with cmdq := [w] }]
  | p :: ps => { p with cmdq := w :: p.cmdq } :: ps

/-- The state whose next step executes `w`: the word heads `CMDQ[0]`, the arbiter's next choice is port 0, reset is
not asserted and no response waits. -/
def placeCommand (w : CmdWord) (s : State) : State :=
  { s with
    ports := placeFirst w (s.ports.modify s.issuer Port.relieved)
    inReset := false
    env := .grant 0 :: s.env }

end Sys2Proof.Machine
end

