-- ==== Sys2Proof/Machine/Getters.lean ====
section
/-!
DEFINITION. The getters (42_mixer_commands.md R193 to R199): each emits one word and writes nothing else.
-/

namespace Sys2Proof.Machine

/-- R193: `zext_64(POWER)`. -/
def execGetPower (s : State) : Host.Outcome State Fault Refusal :=
  .next (emit [(BitVec.ofBool s.power).setWidth 64] s)

/-- R194: the set-point, not the smoothed volume. -/
def execGetVolume (s : State) : Host.Outcome State Fault Refusal := .next (emit [s.targetVol] s)

/-- R195. -/
def execGetColor (s : State) : Host.Outcome State Fault Refusal := .next (emit [s.color] s)

/-- R196. -/
def execGetBass (s : State) : Host.Outcome State Fault Refusal := .next (emit [s.bass] s)

/-- R197. -/
def execGetTreble (s : State) : Host.Outcome State Fault Refusal := .next (emit [s.treble] s)

/-- R198. -/
def execGetMasterVol (s : State) : Host.Outcome State Fault Refusal := .next (emit [s.masterVol] s)

/-- R199: reading does not clear it. -/
def execGetStatus (s : State) : Host.Outcome State Fault Refusal := .next (emit [s.status] s)

end Sys2Proof.Machine
end

