-- ==== Sys2Proof/Machine/Filter.lean ====
section
/-!
DEFINITION. The operations of a filter instance: `UpdateGain` (41_biquad_filter.md R156) and `Process` (R158).
-/

namespace Sys2Proof.Machine

/-- `UpdateGain(F, gainDB)`: the coefficients are written, the delay registers are not (R156). -/
def Biquad.updateGain (cfg : Config) (shelf : Shelf) (gainDB : B64) (f : Biquad) : Biquad :=
  { f with coef := coefficients cfg shelf gainDB }

/-- `y = b0*x + b1*x1 + b2*x2 - a1*y1 - a2*y2`, left to right (R158). -/
def biquadOutput (c : Coeffs) (d : Delay) (x : B64) : B64 :=
  fsub (fsub (fadd (fadd (fmul c.b0 x) (fmul c.b1 d.x1)) (fmul c.b2 d.x2)) (fmul c.a1 d.y1)) (fmul c.a2 d.y2)

/-- The shift of the delay registers after input `x` gave output `y` (R158). -/
def Delay.shift (x y : B64) (d : Delay) : Delay := ⟨x, d.x1, y, d.y1⟩

/-- One sample through an instance. -/
def Biquad.step (x : B64) (f : Biquad) : B64 × Biquad :=
  let y := biquadOutput f.coef f.delay x
  (y, { f with delay := f.delay.shift x y })

/-- `Process(F, buf, n)`: the filtered buffer and the instance it leaves. -/
def process : Biquad → List B64 → List B64 × Biquad
  | f, [] => ([], f)
  | f, x :: xs =>
    let r := f.step x
    let rest := process r.2 xs
    (r.1 :: rest.1, rest.2)

end Sys2Proof.Machine
end

