-- ==== Sys2Proof/Machine/Generator.lean ====
section
/-!
DEFINITION. The noise generator (40_noise_generator.md R100 to R115): the white source, the five colour recurrences,
colour selection and the crossfade. Every operation is total and raises nothing (R117).
-/

namespace Sys2Proof.Machine

/-- The five spectral colours (R2). -/
inductive Color where
  | brown
  | pink
  | white
  | blue
  | violet
deriving DecidableEq, Repr

/-- What colour selection gives (R112). -/
inductive Selection where
  | pure (c : Color)
  | blend (lo hi : Color) (t : B64)
deriving DecidableEq, Repr

/-! ### The reference white source: SplitMix64 (R102, R103) -/

/-- The state after one draw. -/
def rngNext (S : Word) : Word := S + 0x9E3779B97F4A7C15#64

/-- `z` of R102, from the advanced state. -/
def mix64 (S : Word) : Word :=
  let z := (S ^^^ (S >>> 30)) * 0xBF58476D1CE4E5B9#64
  let z := (z ^^^ (z >>> 27)) * 0x94D049BB133111EB#64
  z ^^^ (z >>> 31)

/-- `w = (K - 2^52) / 2^52` with `K = z[63:11]`; exact (R103). -/
def whiteOf (z : Word) : B64 :=
  let j : Int := ((z >>> 11).toNat : Int) - 2 ^ 52
  pack (decide (j < 0)) (roundMag (j.natAbs * unitsPerOne) (2 ^ 52))

/-- The reference instance of R104: `St` is the 64-bit words, `seed x = x`, and a draw advances the word and mixes it. -/
def splitMix64 : WhiteSource where
  seed x := x.toNat
  draw S :=
    let S' := rngNext (BitVec.ofNat 64 S)
    (whiteOf (mix64 S'), S'.toNat)

/-! ### The colour steps (R106 to R110) -/

/-- One pink tap: `state += coeff * (w - state)`. -/
def pinkTap (c w st : B64) : B64 := fadd st (fmul c (fsub w st))

/-- The seven taps, in index order, each from its own old value and the same `w` (R107). -/
def pinkTaps (w : B64) (p : Pink) : Pink where
  k0 := pinkTap (literal 1294 10000) w p.k0
  k1 := pinkTap (literal 1875 10000) w p.k1
  k2 := pinkTap (literal 2414 10000) w p.k2
  k3 := pinkTap (literal 3026 10000) w p.k3
  k4 := pinkTap (literal 3830 10000) w p.k4
  k5 := pinkTap (literal 4962 10000) w p.k5
  k6 := pinkTap (literal 7195 10000) w p.k6

/-- The sum of the seven taps, left to right. -/
def pinkSum (p : Pink) : B64 :=
  fadd (fadd (fadd (fadd (fadd (fadd p.k0 p.k1) p.k2) p.k3) p.k4) p.k5) p.k6

/-- R106. -/
def whiteStep (w volume : B64) (sl : Slot) : B64 × Slot := (fmul w volume, sl)

/-- R107. -/
def pinkStep (w volume : B64) (sl : Slot) : B64 × Slot :=
  let p := pinkTaps w sl.pink
  (fmul (fdiv (pinkSum p) (literal 25 10)) volume, { sl with pink := p })

/-- R108. -/
def brownStep (w volume : B64) (sl : Slot) : B64 × Slot :=
  let b := fdiv (fadd sl.brown (fmul (literal 2 100) w)) (literal 102 100)
  (fmul (fmul b (literal 35 10)) volume, { sl with brown := b })

/-- R109: the output uses the old register. -/
def blueStep (w volume : B64) (sl : Slot) : B64 × Slot :=
  (fmul (fsub w sl.blueW) volume, { sl with blueW := w })

/-- R110. -/
def violetStep (w volume : B64) (sl : Slot) : B64 × Slot :=
  let blue := fsub w sl.violW
  (fmul (fsub blue sl.violB) volume, { sl with violB := blue, violW := w })

/-- The step of a colour on the registers of one slot. -/
def colorStep : Color → B64 → B64 → Slot → B64 × Slot
  | .brown => brownStep
  | .pink => pinkStep
  | .white => whiteStep
  | .blue => blueStep
  | .violet => violetStep

/-! ### GeneratePure (R105) -/

/-- The samples a run makes, with the slot and the white source it leaves. -/
structure Generated where
  out  : List B64
  slot : Slot
  rng  : Nat
deriving DecidableEq, Repr

/-- `n` samples of one colour from one slot, one `Draw()` each, in index order (R101, R105). -/
def generatePure (src : WhiteSource) (c : Color) (volume : B64) : Nat → Slot → Nat → Generated
  | 0, sl, S => ⟨[], sl, S⟩
  | n + 1, sl, S =>
    let d := src.draw S
    let o := colorStep c d.1 volume sl
    let rest := generatePure src c volume n o.2 d.2
    ⟨o.1 :: rest.out, rest.slot, rest.rng⟩

/-! ### Selection (R111, R112) -/

/-- An adjacent pair of anchors. -/
structure AnchorPair where
  loPos : B64
  lo    : Color
  hiPos : B64
  hi    : Color
deriving DecidableEq, Repr

/-- The pairs below the last, in ascending order. -/
def lowerPairs : List AnchorPair :=
  [⟨whole 0, .brown, whole 25, .pink⟩, ⟨whole 25, .pink, whole 50, .white⟩, ⟨whole 50, .white, whole 75, .blue⟩]

/-- The last pair. -/
def lastPair : AnchorPair := ⟨whole 75, .blue, whole 100, .violet⟩

/-- The first pair with `loPos <= s` and `s <= hiPos`. Past the first three, a slider strictly between 0 and 100 lies
in the last (log entry 8 for a NaN, which `COLOR` never holds). -/
def bracketing (s : B64) : AnchorPair :=
  (lowerPairs.find? fun p => fle p.loPos s && fle s p.hiPos).getD lastPair

/-- The blend factor of a slider in a pair. -/
def blendFactor (s : B64) (p : AnchorPair) : B64 := fdiv (fsub s p.loPos) (fsub p.hiPos p.loPos)

/-- `Select(s)` (R112). -/
def select (s : B64) : Selection :=
  if fle s 0 then .pure .brown
  else if fle (whole 100) s then .pure .violet
  else
    let p := bracketing s
    let t := blendFactor s p
    if fle t (literal 1 1000) then .pure p.lo
    else if fle (literal 999 1000) t then .pure p.hi
    else .blend p.lo p.hi t

/-! ### GenerateBlended (R113) -/

/-- A mono block, with the generator state it leaves. -/
structure MonoBlock where
  out       : List B64
  primary   : Slot
  secondary : Slot
  rng       : Nat
deriving DecidableEq, Repr

/-- `result[j] = a[j]*omt + b[j]*t`. -/
def crossfade (t omt : B64) (a b : List B64) : List B64 :=
  List.zipWith (fun x y => fadd (fmul x omt) (fmul y t)) a b

/-- `GenerateBlended(slider, n, volume)`: a pure colour from its primary slot, or all lo samples from the primary slot
and then all hi samples from the secondary slot, crossfaded. -/
def generateBlended (src : WhiteSource) (slider : B64) (n : Nat) (volume : B64) (primary secondary : Slot) (S : Nat) :
    MonoBlock :=
  match select slider with
  | .pure c =>
    let g := generatePure src c volume n primary S
    ⟨g.out, g.slot, secondary, g.rng⟩
  | .blend lo hi t =>
    let a := generatePure src lo volume n primary S
    let b := generatePure src hi volume n secondary a.rng
    ⟨crossfade t (fsub (whole 1) t) a.out b.out, a.slot, b.slot, b.rng⟩

/-- `ReseedGen(x)` (R115): only the white source changes. -/
def reseedGen (src : WhiteSource) (x : Word) (s : State) : State := { s with rng := src.seed x }

end Sys2Proof.Machine
end

