-- ==== Sys2Proof/Machine/Render.lean ====
section
/-!
DEFINITION. `RENDER` (42_mixer_commands.md R188 to R192): one atomic step (20_memory.md R54; log entry 14).
-/

namespace Sys2Proof.Machine

/-- One volume update toward the target `T`: `m + (T - m) * 0.001` (R191). -/
def smooth (T m : B64) : B64 := fadd m (fmul (fsub T m) (literal 1 1000))

/-- `n` volume updates. -/
def smoothN (T : B64) : Nat → B64 → B64
  | 0, m => m
  | n + 1, m => smoothN T n (smooth T m)

/-- One output word (R192). -/
def outputWord (x m : B64) : Word := clamp (fmul x m) (fneg (whole 1)) (whole 1)

/-- The output words of a block, frame by frame, left word first, the volume updated before each frame (R190). -/
def outputFrames (T : B64) : List B64 → List B64 → B64 → List Word
  | l :: ls, r :: rs, m =>
    let m' := smooth T m
    outputWord l m' :: outputWord r m' :: outputFrames T ls rs m'
  | [], _, _ => []
  | _ :: _, [], _ => []

/-- One channel: the low shelf and then the high shelf, each on its own instance (R190, R200). -/
def processChannel (ls hs : Biquad) (buf : List B64) : List B64 × Biquad × Biquad :=
  let a := process ls buf
  let b := process hs a.1
  (b.1, a.2, b.2)

/-- `RenderOff(n, p)`: the volume decays toward 0.0, silence is emitted, nothing else changes (R189). -/
def renderOff (n : Nat) (s : State) : State :=
  emit (List.replicate (2 * n) 0) { s with masterVol := smoothN 0 n s.masterVol }

/-- `RenderOn(n, p)` (R190). -/
def renderOn (src : WhiteSource) (n : Nat) (s : State) : State :=
  let mono := generateBlended src s.color n (whole 1) s.primary s.secondary s.rng
  let l := processChannel s.leftLS s.leftHS mono.out
  let r := processChannel s.rightLS s.rightHS mono.out
  emit (outputFrames s.targetVol l.1 r.1 s.masterVol)
    { s with
      primary := mono.primary
      secondary := mono.secondary
      rng := mono.rng
      leftLS := l.2.1
      leftHS := l.2.2
      rightLS := r.2.1
      rightHS := r.2.2
      masterVol := smoothN s.targetVol n s.masterVol }

/-- A legal `RENDER n`: the path of `POWER` (R188). -/
def renderPath (src : WhiteSource) (n : Nat) (s : State) : State :=
  if s.power then renderOn src n s else renderOff n s

/-- `RENDER n` under a configuration. -/
def render (cfg : Config) (n : Word) (s : State) : State :=
  if blockTooLong cfg n then raiseIllegal .blockTooLong s else renderPath cfg.white (countOperand n) s

/-- R188. -/
def execRender (n : Word) (s : State) : Host.Outcome State Fault Refusal := .next (render blockConfig n s)

end Sys2Proof.Machine
end

