-- ==== Sys2Proof/Machine/Setters.lean ====
section
/-!
DEFINITION. `NOP`, the setters and `RESEED` (42_mixer_commands.md R181 to R187). A setter of kind F refuses a NaN with
cause 4 and clamps every other operand (00_scope.md R11). The ones that use a parameter of R6 take the configuration
as an argument; the command's own meaning runs it at the block's.
-/

namespace Sys2Proof.Machine

/-- R181. -/
def execNop (s : State) : Host.Outcome State Fault Refusal := .next s

/-- R182. -/
def execSetPower (operand : Word) (s : State) : Host.Outcome State Fault Refusal :=
  .next { s with power := boolOperand operand }

/-- R183. -/
def execSetVolume (v : B64) (s : State) : Host.Outcome State Fault Refusal :=
  if isNaN v then .next (raiseIllegal .nanOperand s)
  else .next { s with targetVol := clamp v 0 (whole 1) }

/-- R184. -/
def execSetColor (v : B64) (s : State) : Host.Outcome State Fault Refusal :=
  if isNaN v then .next (raiseIllegal .nanOperand s)
  else .next { s with color := clamp v 0 (whole 100) }

/-- The slider value both shelf setters store. -/
def clampSlider (v : B64) : B64 := clamp v (fneg (whole 100)) (whole 100)

/-- What an accepted `SET_BASS` writes (R185). -/
def setBass (cfg : Config) (v : B64) (s : State) : State :=
  let slider := clampSlider v
  { s with
    bass := slider
    leftLS := s.leftLS.updateGain cfg .low (gainOf slider)
    rightLS := s.rightLS.updateGain cfg .low (gainOf slider) }

/-- R185. -/
def execSetBass (v : B64) (s : State) : Host.Outcome State Fault Refusal :=
  if isNaN v then .next (raiseIllegal .nanOperand s)
  else .next (setBass blockConfig v s)

/-- What an accepted `SET_TREBLE` writes (R186). -/
def setTreble (cfg : Config) (v : B64) (s : State) : State :=
  let slider := clampSlider v
  { s with
    treble := slider
    leftHS := s.leftHS.updateGain cfg .high (gainOf slider)
    rightHS := s.rightHS.updateGain cfg .high (gainOf slider) }

/-- R186. -/
def execSetTreble (v : B64) (s : State) : Host.Outcome State Fault Refusal :=
  if isNaN v then .next (raiseIllegal .nanOperand s)
  else .next (setTreble blockConfig v s)

/-- R187. -/
def execReseed (x : Word) (s : State) : Host.Outcome State Fault Refusal := 
  .next (reseedGen blockConfig.white x s)

end Sys2Proof.Machine
end

