-- ==== Sys2Proof/Machine/Dispatch.lean ====
section
/-!
DEFINITION. One arm per command: the meaning it has.
-/

namespace Sys2Proof.Machine

def exec (i : Instr) (s : State) : Host.Outcome State Fault Refusal :=
  match i with
  | .nop => Sys2Proof.Machine.execNop s
  | .setPower operand => Sys2Proof.Machine.execSetPower operand s
  | .setVolume v => Sys2Proof.Machine.execSetVolume v s
  | .setColor v => Sys2Proof.Machine.execSetColor v s
  | .setBass v => Sys2Proof.Machine.execSetBass v s
  | .setTreble v => Sys2Proof.Machine.execSetTreble v s
  | .reseed x => Sys2Proof.Machine.execReseed x s
  | .render n => Sys2Proof.Machine.execRender n s
  | .getPower => Sys2Proof.Machine.execGetPower s
  | .getVolume => Sys2Proof.Machine.execGetVolume s
  | .getColor => Sys2Proof.Machine.execGetColor s
  | .getBass => Sys2Proof.Machine.execGetBass s
  | .getTreble => Sys2Proof.Machine.execGetTreble s
  | .getMasterVol => Sys2Proof.Machine.execGetMasterVol s
  | .getStatus => Sys2Proof.Machine.execGetStatus s

end Sys2Proof.Machine
end

