-- ==== Sys2Proof/Machine/Step.lean ====
section
/-!
DEFINITION. One step of the block: one thing the outside does, or one command executed to completion
(42_mixer_commands.md R180, 20_memory.md R54, R56).
-/

namespace Sys2Proof.Machine

/-- Decode a command word and execute it; an illegal word takes the illegal-command outcome (R180). -/
def runCommand (w : CmdWord) (s : State) : Host.Outcome State Fault Refusal :=
  match decode w with
  | .ok i => exec i s
  | .error c => .next (raiseIllegal c s)

/-- The core's turn. While reset is asserted, while a response waits, and while no command is pending it does nothing
(R252, R270, R277); otherwise it takes a command and executes it. -/
def coreTurn (choice : Option Nat) (s : State) : Host.Outcome State Fault Refusal :=
  if s.inReset then .next s
  else if stalled s then .next s
  else match nextCommand s choice with
    | none => .next s
    | some (p, w) => runCommand w (beginCommand p s)

/-- One step: the next event of the environment, or the core's turn under the reference arbiter when there is none. -/
def step (s : State) : Host.Outcome State Fault Refusal :=
  match s.env with
  | [] => coreTurn none s
  | .grant p :: rest => coreTurn (some p) { s with env := rest }
  | .send p w :: rest => .next (hostSend p w { s with env := rest })
  | .sendByte p b :: rest => .next (hostSendByte p b { s with env := rest })
  | .take p :: rest => .next (hostTake p { s with env := rest })
  | .assertReset :: rest => .next (assertReset blockConfig { s with env := rest })
  | .releaseReset :: rest => .next (releaseReset { s with env := rest })

/-- The state whose next step fetches and runs the word of an opcode-table row (log entry 7). -/
def State.withFetchWord (s : State) (nbits w : Nat) : State := placeCommand (tableWord nbits w) s

end Sys2Proof.Machine
end

