-- ==== Sys2Proof/Safety.lean ====
section
/-!
DEFINITION. What holds at every point between two commands (10_state.md R34, R35), and which registers an operation may
write: the terms the claims are stated in.
-/

namespace Sys2Proof.Machine

/-! ### Invariants of the block -/

/-- The clamped registers hold values of their ranges, never a NaN (R22, R24, R25, R34). -/
abbrev ParametersInRange (s : State) : Prop :=
  inRange 0 (whole 1) s.targetVol = true ∧ inRange 0 (whole 100) s.color = true ∧
    inRange (fneg (whole 100)) (whole 100) s.bass = true ∧ inRange (fneg (whole 100)) (whole 100) s.treble = true

/-- `MASTER_VOL` lies in `[0, 1]` and is never `-0.0` or a NaN (R23, R34). -/
abbrev MasterVolInRange (s : State) : Prop := inRange 0 (whole 1) s.masterVol = true ∧ signBit s.masterVol = false

/-- `STATUS` holds a value of its layout (R26). -/
abbrev StatusInLayout (s : State) : Prop := statusLegal s.status = true

/-- The channels hold the same coefficients and delay registers (R35). -/
abbrev ChannelsEqual (s : State) : Prop := s.leftLS = s.rightLS ∧ s.leftHS = s.rightHS

/-- The coefficients are those of the stored sliders (R31, R157). -/
abbrev CoefficientsFollowSliders (s : State) : Prop :=
  s.leftLS.coef = coefficients blockConfig .low (gainOf s.bass) ∧
    s.rightLS.coef = coefficients blockConfig .low (gainOf s.bass) ∧
    s.leftHS.coef = coefficients blockConfig .high (gainOf s.treble) ∧
    s.rightHS.coef = coefficients blockConfig .high (gainOf s.treble)

/-- `BROWN_S` keeps its reset value (R28). -/
abbrev BrownSecondaryUnused (s : State) : Prop := s.secondary.brown = 0

/-! ### Invariants of the ports -/

/-- The arbiter's pointer and the issuing port are ports of the block (R250). -/
abbrev PointersInRange (s : State) : Prop := s.rr < s.ports.length ∧ s.issuer < s.ports.length

/-- A partial word is shorter than a word, and no command queue holds more than its depth (R53, R277). -/
abbrev QueuesInBounds (s : State) : Prop :=
  ∀ port ∈ s.ports, port.rx.length < 16 ∧ ∀ d, port.cmdDepth = some d → port.cmdq.length ≤ d

/-- Only the port whose command executed last has words that wait for room (R180, R277). -/
abbrev OnlyIssuerWaits (s : State) : Prop :=
  ∀ p port, s.ports[p]? = some port → p ≠ s.issuer → port.overfull = false

/-- Everything above but the range of `MASTER_VOL`, which needs the range of `TARGET_VOL` and stands alone. -/
abbrev Invariant (s : State) : Prop :=
  ParametersInRange s ∧ StatusInLayout s ∧ ChannelsEqual s ∧ CoefficientsFollowSliders s ∧ BrownSecondaryUnused s ∧
    PointersInRange s ∧ QueuesInBounds s ∧ OnlyIssuerWaits s

/-! ### What an operation may write -/

/-- Two slots agree but for the registers of one colour (R105, R114). -/
def slotsAgreeExcept (c : Color) (a b : Slot) : Prop :=
  match c with
  | .brown => a = { b with brown := a.brown }
  | .pink => a = { b with pink := a.pink }
  | .white => a = b
  | .blue => a = { b with blueW := a.blueW }
  | .violet => a = { b with violW := a.violW, violB := a.violB }

/-- How many response words a legal command emits (20_memory.md R57). -/
def responseCount : Instr → Nat
  | .render n => 2 * n.toNat
  | .getPower => 1
  | .getVolume => 1
  | .getColor => 1
  | .getBass => 1
  | .getTreble => 1
  | .getMasterVol => 1
  | .getStatus => 1
  | .nop => 0
  | .setPower _ => 0
  | .setVolume _ => 0
  | .setColor _ => 0
  | .setBass _ => 0
  | .setTreble _ => 0
  | .reseed _ => 0

/-! ### The samples of a block -/

/-- The `j`-th sample drawn from a state of the white source, and the state after `j` draws (R101). -/
def drawnSample (src : WhiteSource) (S j : Nat) : B64 := (src.draw ((fun x => (src.draw x).2)^[j] S)).1

/-- `out` are the first `n` samples of a colour for the white samples `w`: each is the colour's step on the registers the
steps before it left, from `first` on, and `last` is what the last one leaves (R105). -/
def IsColourRun (c : Color) (v : B64) (n : Nat) (w out : Nat → B64) (first last : Slot) : Prop :=
  ∃ slots : Nat → Slot, slots 0 = first ∧ slots n = last ∧
    ∀ j, j < n → out j = (colorStep c (w j) v (slots j)).1 ∧ slots (j + 1) = (colorStep c (w j) v (slots j)).2

/-! ### Correct rounding (R9) -/

/-- The smallest magnitude, in units of 2^-1074, that rounds to an infinity: half a unit in the last place beyond the
largest finite value. -/
def overflowUnits : Nat := (2 ^ 54 - 1) * 2 ^ 2044

/-- `r` is the binary64 value nearest to `x` units of 2^-1074, and of two nearest ones the even one. -/
def Nearest (r : B64) (x : ℝ) : Prop :=
  ∀ c, isFinite c = true →
    |(scaledInt r : ℝ) - x| ≤ |(scaledInt c : ℝ) - x| ∧
      (|(scaledInt r : ℝ) - x| = |(scaledInt c : ℝ) - x| → scaledInt r ≠ scaledInt c → magBits r % 2 = 0)

/-- `r` is the rounding of `x` units of 2^-1074: finite and nearest below the overflow threshold, the infinity of the sign
of `x` from there on. -/
def RoundsTo (r : B64) (x : ℝ) : Prop :=
  (|x| < overflowUnits → isFinite r = true ∧ Nearest r x) ∧
    ((overflowUnits : ℝ) ≤ x → r = 0x7FF0000000000000#64) ∧ (x ≤ -(overflowUnits : ℝ) → r = 0xFFF0000000000000#64)

end Sys2Proof.Machine
end

