-- ==== Sys2Proof/Certificates/Slice0/Obligations.lean ====
section
/-!
DEFINITION. The statements about the model, for the provers. Constants of the specification stand in them as bit
patterns, independently of how the model makes them from decimal literals.
-/

open Sys2Proof Sys2Proof.Machine

/-! ### Encoding -/

/-- R81: the worked encodings decode to the commands they stand for, each legal command encodes to its word, and the
two illegal words get their causes. -/
def Obligations.WorkedEncodings : Prop :=
  (∀ i w, (i, w) ∈ ([(.nop, 0x00000000000000000000000000000000#128),
      (.setPower 1, 0x00000000000000010000000000000001#128),
      (.setVolume 0x3FF0000000000000#64, 0x3FF00000000000000000000000000002#128),
      (.setVolume 0x7FF8000000000000#64, 0x7FF80000000000000000000000000002#128),
      (.setColor 0x4049000000000000#64, 0x40490000000000000000000000000003#128),
      (.setColor 0x4062C00000000000#64, 0x4062C000000000000000000000000003#128),
      (.setBass 0xC06F400000000000#64, 0xC06F4000000000000000000000000004#128),
      (.setTreble 0x4059000000000000#64, 0x40590000000000000000000000000005#128),
      (.reseed 0x0123456789ABCDEF#64, 0x0123456789ABCDEF0000000000000006#128),
      (.render 4000, 0x0000000000000FA00000000000000007#128),
      (.getStatus, 0x00000000000000000000000000000016#128)] : List (Instr × CmdWord)) →
    decode w = .ok i ∧ encode i = w) ∧
  decode 0x00000000000000000000000000000008#128 = .error .unknownOpcode ∧
  decode 0x00000000000000000000000000000100#128 = .error .reservedBits

/-- R74, R75, R77: the verdict on every word. Reserved bits are looked at first, then the opcode; the operand plays no
part. -/
def Obligations.DecodeVerdicts : Prop :=
  ∀ w : CmdWord,
    (decode w = .error .reservedBits ↔ reservedField w ≠ 0) ∧
    (decode w = .error .unknownOpcode ↔ reservedField w = 0 ∧
      (0x08 ≤ (opcodeField w).toNat ∧ (opcodeField w).toNat ≤ 0x0F ∨ 0x17 ≤ (opcodeField w).toNat)) ∧
    ((∃ i, decode w = .ok i) ↔ reservedField w = 0 ∧
      ((opcodeField w).toNat ≤ 0x07 ∨ 0x10 ≤ (opcodeField w).toNat ∧ (opcodeField w).toNat ≤ 0x16))

/-- R71 to R73: exactly which words decode to a command. The word's opcode is the command's, its reserved field is
zero, and its operand field is the command's operand, or anything for a command of kind X. -/
def Obligations.DecodeIffFields : Prop :=
  ∀ (w : CmdWord) (i : Instr),
    decode w = .ok i ↔ reservedField w = 0 ∧ opcodeField w = i.opcode ∧
      (i.ignoresOperand = false → operandField w = i.operand)

/-- R52, R71 to R73: every command, with its operand at every value, comes back from its word, and from the sixteen
bytes of its word, least significant byte first; the bytes of any word make that word. -/
def Obligations.DecodeOfEncode : Prop :=
  (∀ i : Instr, decode (encode i) = .ok i ∧ decodeBytes (commandBytes (encode i)) = some (.ok i)) ∧
  ∀ w : CmdWord, (commandBytes w).length = 16 ∧ commandOfBytes (commandBytes w) = some w

/-- R52, R53: sixteen bytes offered to a port with room and no partial word put exactly the word they make at the tail
of its queue; fewer put nothing there; with a full queue the sixteenth byte does not move. -/
def Obligations.BytesDeliverWholeWords : Prop :=
  (∀ (port : Port) (w : CmdWord), port.rx = [] → port.hasRoom = true →
    (commandBytes w).foldl (fun p b => p.receiveByte b) port = { port with cmdq := port.cmdq ++ [w] } ∧
    ∀ k, k < 16 → ((commandBytes w).take k).foldl (fun p b => p.receiveByte b) port =
      { port with rx := (commandBytes w).take k }) ∧
  ∀ (port : Port) (w : CmdWord), port.rx = [] → port.hasRoom = false →
    (commandBytes w).foldl (fun p b => p.receiveByte b) port = { port with rx := (commandBytes w).take 15 }

/-! ### Steps -/

/-- R180, R56: when the arbiter grants a port whose queue is headed by the word of a command, the step is that
command, on the state in which the word has left the queue, the port is the issuing one and the pointer has moved past
it. Every port with a command pending may be granted. -/
def Obligations.StepRunsTheDecodedCommand : Prop :=
  ∀ (s : State) (p : Nat) (port : Port) (w : CmdWord) (ws : List CmdWord) (i : Instr) (rest : List EnvEvent),
    s.env = .grant p :: rest → s.inReset = false → stalled s = false →
    s.ports[p]? = some port → port.cmdq = w :: ws → decode w = .ok i →
    step s = exec i { s with
      env := rest, ports := s.ports.set p { port with cmdq := ws }, rr := (p + 1) % s.ports.length, issuer := p }

/-- R180, R242: an illegal word so granted takes the illegal-command outcome. -/
def Obligations.StepRefusesTheIllegalWord : Prop :=
  ∀ (s : State) (p : Nat) (port : Port) (w : CmdWord) (ws : List CmdWord) (c : Cause) (rest : List EnvEvent),
    s.env = .grant p :: rest → s.inReset = false → stalled s = false →
    s.ports[p]? = some port → port.cmdq = w :: ws → decode w = .error c →
    step s = .next (raiseIllegal c { s with
      env := rest, ports := s.ports.set p { port with cmdq := ws }, rr := (p + 1) % s.ports.length, issuer := p })

/-- R250: with nothing from outside, the reference arbiter takes the first pending port from its pointer on. -/
def Obligations.StepFollowsRoundRobin : Prop :=
  ∀ (s : State) (k : Nat) (port : Port) (w : CmdWord) (ws : List CmdWord),
    let p := (s.rr + k) % s.ports.length
    s.env = [] → s.inReset = false → stalled s = false → k < s.ports.length →
    s.ports[p]? = some port → port.cmdq = w :: ws →
    (∀ j, j < k → pending s ((s.rr + j) % s.ports.length) = false) →
    step s = runCommand w { s with
      ports := s.ports.set p { port with cmdq := ws }, rr := (p + 1) % s.ports.length, issuer := p }

/-- R250: while a port waits, each command the reference arbiter takes from another port brings its pointer nearer to
the waiting one, so that the wait ends after fewer commands than there are ports. -/
def Obligations.RoundRobinIsFair : Prop :=
  ∀ (s : State) (p g : Nat), s.rr < s.ports.length → pending s p = true → arbitrate s none = some g → g ≠ p →
    (p + s.ports.length - (g + 1) % s.ports.length) % s.ports.length <
      (p + s.ports.length - s.rr) % s.ports.length

/-- R252: a core with no command pending changes nothing. -/
def Obligations.IdleCoreChangesNothing : Prop :=
  ∀ s : State, (∀ p, pending s p = false) →
    (s.env = [] → step s = .next s) ∧
    ∀ p rest, s.env = .grant p :: rest → step s = .next { s with env := rest }

/-- R277: the core is stalled exactly when the port it answered last holds more words than its response queue takes,
and then it executes nothing. That the stuck state of R277 is a step which answers the same state is the model's reading
(log entry 12). -/
def Obligations.StalledCoreWaits : Prop :=
  ∀ s : State,
    (stalled s = true ↔ ∃ port d, s.ports[s.issuer]? = some port ∧ port.rspDepth = some d ∧ d < port.rspq.length) ∧
    (stalled s = true →
      (s.env = [] → step s = .next s) ∧
      ∀ p rest, s.env = .grant p :: rest → step s = .next { s with env := rest })

/-- R51, R277: a command word a host offers moves to the tail of its queue if there is room and does not move
otherwise; a host takes the oldest response word of its own port and nothing else. -/
def Obligations.HostsSendAndTake : Prop :=
  ∀ (s : State) (p : Nat) (port : Port) (w : CmdWord) (rest : List EnvEvent),
    s.inReset = false → s.ports[p]? = some port →
    (s.env = .send p w :: rest →
      ((∀ d, port.cmdDepth = some d → port.cmdq.length < d) →
        step s = .next { s with env := rest, ports := s.ports.set p { port with cmdq := port.cmdq ++ [w] } }) ∧
      (∀ d, port.cmdDepth = some d → d ≤ port.cmdq.length → step s = .next { s with env := rest })) ∧
    (s.env = .take p :: rest →
      step s = .next { s with env := rest, ports := s.ports.set p { port with rspq := port.rspq.tail } })

/-- The model's way of placing a command (log entry 7): whatever the state, the next step runs the word placed, on the
state whose registers are unchanged. -/
def Obligations.PlacedCommandRunsNext : Prop :=
  ∀ (s : State) (nbits w : Nat), ∃ t : State,
    step (s.withFetchWord nbits w) = runCommand (tableWord nbits w) t ∧
    t = { s with ports := t.ports, rr := t.rr, issuer := 0, inReset := false } ∧
    t.ports.length = max 1 s.ports.length ∧ ∀ p, (t.ports[p]?).map Port.cmdq = if p = 0 ∧ s.ports = [] then some [] else
      (s.ports[p]?).map Port.cmdq

/-- R53, R277: the step of a byte a host offers. A byte that does not complete a word joins the partial word; one that
does sends the word to the tail of the queue and leaves no partial word, if there is room; with a full queue it does not
move. -/
def Obligations.HostsSendBytes : Prop :=
  ∀ (s : State) (p : Nat) (port : Port) (b : Byte) (rest : List EnvEvent),
    s.inReset = false → s.ports[p]? = some port → s.env = .sendByte p b :: rest →
    (port.rx.length < 15 →
      step s = .next { s with env := rest, ports := s.ports.set p { port with rx := port.rx ++ [b] } }) ∧
    (∀ w, commandBytes w = port.rx ++ [b] →
      ((∀ d, port.cmdDepth = some d → port.cmdq.length < d) →
        step s = .next { s with
          env := rest, ports := s.ports.set p { port with cmdq := port.cmdq ++ [w], rx := [] } }) ∧
      (∀ d, port.cmdDepth = some d → d ≤ port.cmdq.length → step s = .next { s with env := rest })) ∧
    (port.rx.length = 15 → ∃ w, commandBytes w = port.rx ++ [b])

/-! ### Reset -/

/-- R38: the reset table. -/
def Obligations.ResetTable : Prop :=
  let s := State.reset
  s.power = false ∧ s.targetVol = 0 ∧ s.masterVol = 0 ∧ s.color = 0x4039000000000000#64 ∧ s.bass = 0 ∧ s.treble = 0 ∧
  s.status = 0 ∧
  (∀ slot ∈ [s.primary, s.secondary], slot.pink = ⟨0, 0, 0, 0, 0, 0, 0⟩ ∧ slot.brown = 0 ∧ slot.blueW = 0 ∧
    slot.violW = 0 ∧ slot.violB = 0) ∧
  s.rng = blockConfig.white.seed blockConfig.resetSeed ∧
  (∀ f ∈ [s.leftLS, s.rightLS], f.coef = coefficients blockConfig .low 0 ∧ f.delay = ⟨0, 0, 0, 0⟩) ∧
  (∀ f ∈ [s.leftHS, s.rightHS], f.coef = coefficients blockConfig .high 0 ∧ f.delay = ⟨0, 0, 0, 0⟩) ∧
  1 ≤ s.ports.length ∧ (∀ port ∈ s.ports, port.cmdq = [] ∧ port.rspq = [] ∧ port.rx = []) ∧ s.rr = 0

/-- R270, R271: asserting and then releasing reset, in any state, gives the reset table: every register as in
State.reset, and every queue and partial word of every port empty, whatever they held. -/
def Obligations.ResetFromAnyState : Prop :=
  ∀ (s : State) (rest : List EnvEvent), s.env = .assertReset :: .releaseReset :: rest →
    ∃ t, step s = .next t ∧ t.inReset = true ∧
      step t = .next { State.reset with
        ports := s.ports.map fun port => { port with cmdq := [], rspq := [], rx := [] }
        env := rest }

/-- R270: while reset is asserted no command word is accepted, no response word is delivered and no command executes.
-/
def Obligations.AssertedResetBlocksThePorts : Prop :=
  ∀ s : State, s.inReset = true →
    (s.env = [] → step s = .next s) ∧
    ∀ e rest, s.env = e :: rest → e ≠ .assertReset → e ≠ .releaseReset → step s = .next { s with env := rest }

/-! ### NOP, setters, RESEED -/

/-- R181: `NOP` changes nothing; a word whose low 64 bits are zero is `NOP`, and one with a reserved bit set is
illegal. -/
def Obligations.NopChangesNothing : Prop :=
  (∀ s : State, exec .nop s = .next s) ∧ (∀ x, decode (commandWord x 0 0) = .ok .nop) ∧
    ∀ x r, r ≠ 0 → decode (commandWord x r 0) = .error .reservedBits

/-- R182: opcode 0x01, illegal only with a reserved bit; any non-zero operand turns the power on, zero turns it off,
and nothing else changes. -/
def Obligations.SetPowerWritesOnlyPower : Prop :=
  (∀ x r, decode (commandWord x r 0x01) = if r = 0 then .ok (.setPower x) else .error .reservedBits) ∧
  ∀ (x : Word) (s : State), exec (.setPower x) s = .next { s with power := decide (x ≠ 0) }

/-- R183: opcode 0x02, cause 1 with a reserved bit; the set-point takes the clamped operand, and nothing else changes;
a NaN is refused with cause 4. -/
def Obligations.SetVolumeClampsTheSetPoint : Prop :=
  (∀ x r, decode (commandWord x r 0x02) = if r = 0 then .ok (.setVolume x) else .error .reservedBits) ∧
  ∀ (v : B64) (s : State),
    (isNaN v = false → exec (.setVolume v) s = .next { s with
      targetVol := if flt v 0 then 0 else if flt 0x3FF0000000000000#64 v then 0x3FF0000000000000#64 else v }) ∧
    (isNaN v = true → exec (.setVolume v) s = .next (raiseIllegal .nanOperand s))

/-- R184: opcode 0x03, cause 1 with a reserved bit; the colour takes the clamped operand, and nothing else changes; a
NaN is refused with cause 4. -/
def Obligations.SetColorClampsTheSlider : Prop :=
  (∀ x r, decode (commandWord x r 0x03) = if r = 0 then .ok (.setColor x) else .error .reservedBits) ∧
  ∀ (v : B64) (s : State),
    (isNaN v = false → exec (.setColor v) s = .next { s with
      color := if flt v 0 then 0 else if flt 0x4059000000000000#64 v then 0x4059000000000000#64 else v }) ∧
    (isNaN v = true → exec (.setColor v) s = .next (raiseIllegal .nanOperand s))

/-- R185: opcode 0x04, cause 1 with a reserved bit; `BASS` takes the clamped operand and both low shelves the
coefficients of its gain; no delay register, no high shelf and nothing else changes; a NaN is refused with cause 4. -/
def Obligations.SetBassRecomputesBothLowShelves : Prop :=
  (∀ x r, decode (commandWord x r 0x04) = if r = 0 then .ok (.setBass x) else .error .reservedBits) ∧
  ∀ (v : B64) (s : State),
    (isNaN v = false →
      let b := if flt v 0xC059000000000000#64 then 0xC059000000000000#64
        else if flt 0x4059000000000000#64 v then 0x4059000000000000#64 else v
      let c := coefficients blockConfig .low (fmul (fdiv b 0x4059000000000000#64) 0x4028000000000000#64)
      exec (.setBass v) s = .next { s with
        bass := b, leftLS := ⟨c, s.leftLS.delay⟩, rightLS := ⟨c, s.rightLS.delay⟩ }) ∧
    (isNaN v = true → exec (.setBass v) s = .next (raiseIllegal .nanOperand s))

/-- R186: opcode 0x05, cause 1 with a reserved bit; as R185, for `TREBLE` and the high shelves. -/
def Obligations.SetTrebleRecomputesBothHighShelves : Prop :=
  (∀ x r, decode (commandWord x r 0x05) = if r = 0 then .ok (.setTreble x) else .error .reservedBits) ∧
  ∀ (v : B64) (s : State),
    (isNaN v = false →
      let b := if flt v 0xC059000000000000#64 then 0xC059000000000000#64
        else if flt 0x4059000000000000#64 v then 0x4059000000000000#64 else v
      let c := coefficients blockConfig .high (fmul (fdiv b 0x4059000000000000#64) 0x4028000000000000#64)
      exec (.setTreble v) s = .next { s with
        treble := b, leftHS := ⟨c, s.leftHS.delay⟩, rightHS := ⟨c, s.rightHS.delay⟩ }) ∧
    (isNaN v = true → exec (.setTreble v) s = .next (raiseIllegal .nanOperand s))

/-- R187, R115: opcode 0x06, illegal only with a reserved bit; a reseed replaces the state of the white source with
the operand, and the next draw starts from it; nothing else changes. -/
def Obligations.ReseedReplacesOnlyTheSource : Prop :=
  (∀ x r, decode (commandWord x r 0x06) = if r = 0 then .ok (.reseed x) else .error .reservedBits) ∧
  (∀ (x : Word) (s : State), exec (.reseed x) s = .next { s with rng := blockConfig.white.seed x }) ∧
  ∀ x : Word, splitMix64.seed x = x.toNat ∧
    (splitMix64.draw (splitMix64.seed x)).2 = (x + 0x9E3779B97F4A7C15#64).toNat

/-! ### Getters and responses -/

/-- R193 to R199: the opcode of each getter, whose operand is ignored; each appends its one word to the responses of
the issuing port and changes nothing else. -/
def Obligations.GettersEmitTheirRegister : Prop :=
  (∀ x r op i, (op, i) ∈ ([(0x10, .getPower), (0x11, .getVolume), (0x12, .getColor), (0x13, .getBass), (0x14, .getTreble),
      (0x15, .getMasterVol), (0x16, .getStatus)] : List (BitVec 8 × Instr)) →
    decode (commandWord x r op) = if r = 0 then .ok i else .error .reservedBits) ∧
  ∀ s : State,
    let answer (v : Word) : Host.Outcome State Fault Refusal :=
      .next { s with ports := s.ports.modify s.issuer fun p => { p with rspq := p.rspq ++ [v] } }
    exec .getPower s = answer (if s.power then 1 else 0) ∧
    exec .getVolume s = answer s.targetVol ∧
    exec .getColor s = answer s.color ∧
    exec .getBass s = answer s.bass ∧
    exec .getTreble s = answer s.treble ∧
    exec .getMasterVol s = answer s.masterVol ∧
    exec .getStatus s = answer s.status

/-- R57: how many words each command emits, all of them at the tail of the issuing port's responses; an illegal
command emits none. No command touches the hosts, the arbiter, reset or a command queue. -/
def Obligations.ResponsesAndOutsideFrame : Prop :=
  ∀ (i : Instr) (s t : State), exec i s = .next t →
    t.rr = s.rr ∧ t.issuer = s.issuer ∧ t.inReset = s.inReset ∧ t.env = s.env ∧
    ∃ ws : List Word, ws.length = (if i.wellFormed then responseCount i else 0) ∧
      t.ports = s.ports.modify s.issuer fun p => { p with rspq := p.rspq ++ ws }

/-- R36: what a command other than `RENDER` answers does not depend on the generator registers, the white source, the
coefficients or the delay registers. -/
def Obligations.HiddenStateIsNotReadable : Prop :=
  ∀ (i : Instr) (s t t' : State) (p q : Slot) (r : Nat) (f₁ f₂ f₃ f₄ : Biquad), (∀ n, i ≠ .render n) →
    exec i s = .next t →
    exec i { s with
      primary := p, secondary := q, rng := r, leftLS := f₁, leftHS := f₂, rightLS := f₃, rightHS := f₄ } = .next t' →
    t'.ports = t.ports

/-! ### The illegal-command outcome -/

/-- R242, R241: the outcome writes `STATUS` and nothing else: the first cause since reset sets `ILL` and its code, a
later one changes nothing. An illegal word and a command whose operand check fails have this outcome and no other
effect. -/
def Obligations.IllegalCommandsOnlyRecordTheFirstCause : Prop :=
  (∀ (c : Cause) (s : State),
    let t := raiseIllegal c s
    t = { s with status := t.status } ∧
    (s.status.getLsbD 0 = true → t.status = s.status) ∧
    (s.status.getLsbD 0 = false → t.status.getLsbD 0 = true ∧
      t.status.extractLsb' 4 4 = (match c with
        | .reservedBits => 1#4 | .unknownOpcode => 2#4 | .blockTooLong => 3#4 | .nanOperand => 4#4) ∧
      ∀ j, j ≠ 0 → ¬ (4 ≤ j ∧ j ≤ 7) → t.status.getLsbD j = s.status.getLsbD j)) ∧
  (∀ (w : CmdWord) (c : Cause) (s : State), decode w = .error c → runCommand w s = .next (raiseIllegal c s)) ∧
  ∀ (i : Instr) (c : Cause) (s : State), operandCause blockConfig i = some c →
    exec i s = .next (raiseIllegal c s)

/-- R26: once `ILL` is set, no step but reset changes `STATUS`. -/
def Obligations.FirstCauseIsSticky : Prop :=
  ∀ s t : State, s.status.getLsbD 0 = true → step s = .next t → (∀ rest, s.env ≠ .assertReset :: rest) →
    t.status = s.status

/-- R188: a count beyond `MAX_BLOCK` is illegal with cause 3, for every lawful configuration, and `RENDER` on the
block is that of its own configuration. -/
def Obligations.RenderRefusesLongBlocks : Prop :=
  (∀ (cfg : Config) (n : Word) (s : State), ConfigLegal cfg → cfg.maxBlock < n.toNat →
    render cfg n s = raiseIllegal .blockTooLong s) ∧
  ∀ (n : Word) (s : State), exec (.render n) s = .next (render blockConfig n s)

/-! ### RENDER -/

/-- R189: with the power off a legal `RENDER n` decays the volume `n` times toward 0.0, emits `2n` words of `+0.0`,
and changes nothing else. -/
def Obligations.RenderOffDecaysAndEmitsSilence : Prop :=
  ∀ (n : Word) (s : State), s.power = false → n.toNat ≤ blockConfig.maxBlock →
    exec (.render n) s = .next { s with
      masterVol := (fun m => fadd m (fmul (fsub 0 m) 0x3F50624DD2F1A9FC#64))^[n.toNat] s.masterVol
      ports := s.ports.modify s.issuer fun p => { p with rspq := p.rspq ++ List.replicate (2 * n.toNat) 0 } }

/-- R190 to R192: with the power on a legal `RENDER n` makes one mono block, runs the low and then the high shelf of
each channel over it, and emits frame `i` as the left and the right sample times the volume after `i + 1` updates,
clamped. It writes the generator, the white source, the four instances and the volume, and nothing else. -/
def Obligations.RenderOnFollowsThePipeline : Prop :=
  ∀ (n : Word) (s : State), s.power = true → n.toNat ≤ blockConfig.maxBlock →
    let mono := generateBlended blockConfig.white s.color n.toNat 0x3FF0000000000000#64 s.primary s.secondary s.rng
    let lLow := process s.leftLS mono.out
    let lHigh := process s.leftHS lLow.1
    let rLow := process s.rightLS mono.out
    let rHigh := process s.rightHS rLow.1
    let vol (k : Nat) : B64 :=
      (fun m => fadd m (fmul (fsub s.targetVol m) 0x3F50624DD2F1A9FC#64))^[k] s.masterVol
    let word (x : B64) (i : Nat) : Word := clamp (fmul x (vol (i + 1))) 0xBFF0000000000000#64 0x3FF0000000000000#64
    ∃ ws : List Word, ws.length = 2 * n.toNat ∧
      (∀ i, i < n.toNat → ws[2 * i]? = (lHigh.1[i]?).map (fun x => word x i) ∧
        ws[2 * i + 1]? = (rHigh.1[i]?).map (fun x => word x i)) ∧
      lHigh.1.length = n.toNat ∧ rHigh.1.length = n.toNat ∧
      exec (.render n) s = .next { s with
        primary := mono.primary, secondary := mono.secondary, rng := mono.rng
        leftLS := lLow.2, leftHS := lHigh.2, rightLS := rLow.2, rightHS := rHigh.2
        masterVol := vol n.toNat
        ports := s.ports.modify s.issuer fun p => { p with rspq := p.rspq ++ ws } }

/-- R188: `RENDER 0` is legal and changes nothing, on either path and in every state. -/
def Obligations.RenderZeroChangesNothing : Prop := ∀ s : State, exec (.render 0) s = .next s

/-- R275: for a pure colour, and with the power off, a block of `a` samples followed by a block of `b` gives the same
words and the same state as one block of `a + b`. -/
def Obligations.PureBlocksConcatenate : Prop :=
  ∀ (s : State) (a b : Word), (a + b).toNat = a.toNat + b.toNat → (a + b).toNat ≤ blockConfig.maxBlock →
    (s.power = false ∨ ∃ c, select s.color = .pure c) →
    ∃ t u, exec (.render a) s = .next t ∧ exec (.render b) t = .next u ∧ exec (.render (a + b)) s = .next u

/-- R35: while the channels are equal a legal powered `RENDER` emits every word twice, left and right, and leaves them
equal. -/
def Obligations.LeftAndRightWordsAreEqual : Prop :=
  ∀ (n : Word) (s : State), ChannelsEqual s → s.power = true → n.toNat ≤ blockConfig.maxBlock →
    ∃ (t : State) (frames : List Word), exec (.render n) s = .next t ∧ frames.length = n.toNat ∧
      t.ports = s.ports.modify s.issuer (fun p => { p with rspq := p.rspq ++ frames.flatMap fun w => [w, w] }) ∧
      ChannelsEqual t

/-- R192: an output word lies in `[-1, 1]`, unless the product is a NaN, which passes through. -/
def Obligations.OutputWordsAreClamped : Prop :=
  ∀ x m : B64,
    (isNaN (fmul x m) = false → inRange 0xBFF0000000000000#64 0x3FF0000000000000#64 (outputWord x m) = true) ∧
    (isNaN (fmul x m) = true → outputWord x m = fmul x m)

/-- R21 to R25, R29, R31, R32: which commands can change each register. -/
def Obligations.RegistersAreWrittenOnlyByTheirCommands : Prop :=
  ∀ (i : Instr) (s t : State), exec i s = .next t →
    (t.power ≠ s.power → ∃ x, i = .setPower x) ∧
    (t.targetVol ≠ s.targetVol → ∃ v, i = .setVolume v) ∧
    (t.masterVol ≠ s.masterVol → ∃ n, i = .render n) ∧
    (t.color ≠ s.color → ∃ v, i = .setColor v) ∧
    (t.bass ≠ s.bass → ∃ v, i = .setBass v) ∧
    (t.treble ≠ s.treble → ∃ v, i = .setTreble v) ∧
    (t.rng ≠ s.rng → (∃ x, i = .reseed x) ∨ ∃ n, i = .render n ∧ s.power = true) ∧
    (t.primary ≠ s.primary ∨ t.secondary ≠ s.secondary → ∃ n, i = .render n ∧ s.power = true) ∧
    (t.leftLS.coef ≠ s.leftLS.coef ∨ t.rightLS.coef ≠ s.rightLS.coef → ∃ v, i = .setBass v) ∧
    (t.leftHS.coef ≠ s.leftHS.coef ∨ t.rightHS.coef ≠ s.rightHS.coef → ∃ v, i = .setTreble v) ∧
    (t.leftLS.delay ≠ s.leftLS.delay ∨ t.leftHS.delay ≠ s.leftHS.delay ∨ t.rightLS.delay ≠ s.rightLS.delay ∨
      t.rightHS.delay ≠ s.rightHS.delay → ∃ n, i = .render n ∧ s.power = true)

/-! ### The noise generator -/

/-- R112, R114: what every slider value that is no NaN selects, with the exact binary64 edges of the table. -/
def Obligations.SelectionFollowsTheTable : Prop :=
  ∀ s : B64, isNaN s = false →
    let t (lo : B64) : B64 := fdiv (fsub s lo) 0x4039000000000000#64
    select s =
      if fle s 0x3F9999999999999A#64 then .pure .brown
      else if fle s 0x4038F99999999999#64 then .blend .brown .pink (t 0)
      else if fle s 0x4039066666666666#64 then .pure .pink
      else if fle s 0x4048FCCCCCCCCCCC#64 then .blend .pink .white (t 0x4039000000000000#64)
      else if fle s 0x4049033333333333#64 then .pure .white
      else if fle s 0x4052BE6666666666#64 then .blend .white .blue (t 0x4049000000000000#64)
      else if fle s 0x4052C19999999999#64 then .pure .blue
      else if fle s 0x4058FE6666666666#64 then .blend .blue .violet (t 0x4052C00000000000#64)
      else .pure .violet

/-- R105, R114: a mono block writes only the registers of the selected colours: the pure or lo colour's in the primary
slot, the hi colour's in the secondary slot. -/
def Obligations.BlocksWriteOnlySelectedRegisters : Prop :=
  ∀ (src : WhiteSource) (slider v : B64) (n : Nat) (p q : Slot) (S : Nat),
    let m := generateBlended src slider n v p q S
    (∀ c, select slider = .pure c → slotsAgreeExcept c m.primary p ∧ m.secondary = q) ∧
    (∀ lo hi t, select slider = .blend lo hi t →
      slotsAgreeExcept lo m.primary p ∧ slotsAgreeExcept hi m.secondary q)

/-- R101, R105, R113, D16: a pure block of `n` samples takes draws 0 to n-1, one per step of its colour on the primary
slot; a blended one takes draws 0 to n-1 for the lo colour on the primary slot and draws n to 2n-1 for the hi colour on
the secondary slot, and crossfades the two. -/
def Obligations.BlocksTakeTheirDraws : Prop :=
  ∀ (src : WhiteSource) (slider v : B64) (n : Nat) (p q : Slot) (S : Nat),
    let m := generateBlended src slider n v p q S
    m.out.length = n ∧
    (∀ c, select slider = .pure c →
      m.rng = (fun x => (src.draw x).2)^[n] S ∧
      IsColourRun c v n (fun j => drawnSample src S j) (fun j => m.out.getD j 0) p m.primary) ∧
    (∀ lo hi t, select slider = .blend lo hi t →
      m.rng = (fun x => (src.draw x).2)^[2 * n] S ∧
      ∃ a b : Nat → B64,
        IsColourRun lo v n (fun j => drawnSample src S j) a p m.primary ∧
        IsColourRun hi v n (fun j => drawnSample src S (n + j)) b q m.secondary ∧
        ∀ j, j < n →
          m.out[j]? = some (fadd (fmul (a j) (fsub 0x3FF0000000000000#64 t)) (fmul (b j) t)))

/-- R102, R103, R104: a draw of the reference source. It mixes the advanced word as the rule writes it; the sample is
exact: in units of 2^-52 it is the top 53 bits of `z`, less 2^52, so it lies in `[-1, 1 - 2^-52]`; the first draw after a
seed of 0 is the worked example. -/
def Obligations.DrawsAreExact : Prop :=
  (∀ S : Word,
    let S' := S + 0x9E3779B97F4A7C15#64
    let z₁ := (S' ^^^ (S' >>> 30)) * 0xBF58476D1CE4E5B9#64
    let z₂ := (z₁ ^^^ (z₁ >>> 27)) * 0x94D049BB133111EB#64
    let z := z₂ ^^^ (z₂ >>> 31)
    let d := splitMix64.draw S.toNat
    scaledInt d.1 = ((z.toNat / 2 ^ 11 : Nat) - 2 ^ 52 : Int) * 2 ^ 1022 ∧
    isFinite d.1 = true ∧
    inRange 0xBFF0000000000000#64 0x3FEFFFFFFFFFFFFE#64 d.1 = true ∧
    d.2 = S'.toNat) ∧
  mix64 (0 + 0x9E3779B97F4A7C15#64) = 0xE220A8397B1DCDAF#64 ∧ (splitMix64.draw 0).1 = 0x3FE8882A0E5EC772#64

/-- R106 to R110: the recurrences of the five colours. -/
def Obligations.ColourRecurrences : Prop :=
  ∀ (w v : B64) (sl : Slot),
    colorStep .white w v sl = (fmul w v, sl) ∧
    (let tap (c st : B64) : B64 := fadd st (fmul c (fsub w st))
     let p : Pink := ⟨tap 0x3FC0902DE00D1B71#64 sl.pink.k0, tap 0x3FC8000000000000#64 sl.pink.k1,
       tap 0x3FCEE631F8A0902E#64 sl.pink.k2, tap 0x3FD35DCC63F14120#64 sl.pink.k3, tap 0x3FD883126E978D50#64 sl.pink.k4,
       tap 0x3FDFC1BDA5119CE0#64 sl.pink.k5, tap 0x3FE70624DD2F1AA0#64 sl.pink.k6⟩
     let sum := fadd (fadd (fadd (fadd (fadd (fadd p.k0 p.k1) p.k2) p.k3) p.k4) p.k5) p.k6
     colorStep .pink w v sl = (fmul (fdiv sum 0x4004000000000000#64) v, { sl with pink := p })) ∧
    (let b := fdiv (fadd sl.brown (fmul 0x3F947AE147AE147B#64 w)) 0x3FF051EB851EB852#64
     colorStep .brown w v sl = (fmul (fmul b 0x400C000000000000#64) v, { sl with brown := b })) ∧
    colorStep .blue w v sl = (fmul (fsub w sl.blueW) v, { sl with blueW := w }) ∧
    colorStep .violet w v sl =
      (fmul (fsub (fsub w sl.violW) sl.violB) v, { sl with violW := w, violB := fsub w sl.violW })

/-- R106, R109, R110: the ranges of the colours whose recurrences keep them exactly. -/
def Obligations.DifferenceColoursStayInRange : Prop :=
  ∀ (w : B64) (sl : Slot), inRange 0xBFF0000000000000#64 0x3FF0000000000000#64 w = true →
    (colorStep .white w 0x3FF0000000000000#64 sl).1 = w ∧
    (inRange 0xBFF0000000000000#64 0x3FF0000000000000#64 sl.blueW = true →
      inRange 0xC000000000000000#64 0x4000000000000000#64 (colorStep .blue w 0x3FF0000000000000#64 sl).1 = true) ∧
    (inRange 0xBFF0000000000000#64 0x3FF0000000000000#64 sl.violW = true →
      inRange 0xC000000000000000#64 0x4000000000000000#64 sl.violB = true →
      let r := colorStep .violet w 0x3FF0000000000000#64 sl
      inRange 0xC010000000000000#64 0x4010000000000000#64 r.1 = true ∧
      inRange 0xC000000000000000#64 0x4000000000000000#64 r.2.violB = true)

/-! ### The filters -/

/-- R158: `Process` computes the difference equation over the sequence of inputs and outputs that the delay registers
begin, leaves the last two of each in them, and keeps the coefficients. -/
def Obligations.ProcessFollowsTheDifferenceEquation : Prop :=
  ∀ (f : Biquad) (buf : List B64),
    let r := process f buf
    let x := f.delay.x2 :: f.delay.x1 :: buf
    let y := f.delay.y2 :: f.delay.y1 :: r.1
    let c := f.coef
    r.1.length = buf.length ∧
    (∀ i, i < buf.length → y[i + 2]? = some (
      fsub (fsub (fadd (fadd (fmul c.b0 (x.getD (i + 2) 0)) (fmul c.b1 (x.getD (i + 1) 0))) (fmul c.b2 (x.getD i 0)))
        (fmul c.a1 (y.getD (i + 1) 0))) (fmul c.a2 (y.getD i 0)))) ∧
    r.2.coef = c ∧
    r.2.delay = ⟨x.getD (buf.length + 1) 0, x.getD buf.length 0, y.getD (buf.length + 1) 0, y.getD buf.length 0⟩

/-- R152 to R155: the coefficients of both shelves, for every gain and every configuration, as the rules write them. -/
def Obligations.ShelfCoefficientFormulas : Prop :=
  ∀ (cfg : Config) (gainDB : B64),
    let one : B64 := 0x3FF0000000000000#64
    let two : B64 := 0x4000000000000000#64
    let minusTwo : B64 := 0xC000000000000000#64
    let w0 (f0 : B64) := fdiv (fmul (fmul two 0x400921FB54442D18#64) f0) cfg.fs
    let A := cfg.pow10 (fdiv gainDB 0x4044000000000000#64)
    let alpha (f0 : B64) := fmul (fdiv (cfg.sin64 (w0 f0)) two) (fsqrt two)
    let tsa (f0 : B64) := fmul (fmul two (fsqrt A)) (alpha f0)
    let Ap1 := fadd A one
    let Am1 := fsub A one
    (let cw := cfg.cos64 (w0 0x4072C00000000000#64)
     let t := tsa 0x4072C00000000000#64
     let a0 := fadd (fadd Ap1 (fmul Am1 cw)) t
     coefficients cfg .low gainDB = {
       b0 := fdiv (fmul A (fadd (fsub Ap1 (fmul Am1 cw)) t)) a0
       b1 := fdiv (fmul (fmul two A) (fsub Am1 (fmul Ap1 cw))) a0
       b2 := fdiv (fmul A (fsub (fsub Ap1 (fmul Am1 cw)) t)) a0
       a1 := fdiv (fmul minusTwo (fadd Am1 (fmul Ap1 cw))) a0
       a2 := fdiv (fsub (fadd Ap1 (fmul Am1 cw)) t) a0 }) ∧
    (let cw := cfg.cos64 (w0 0x40A7700000000000#64)
     let t := tsa 0x40A7700000000000#64
     let a0 := fadd (fsub Ap1 (fmul Am1 cw)) t
     coefficients cfg .high gainDB = {
       b0 := fdiv (fmul A (fadd (fadd Ap1 (fmul Am1 cw)) t)) a0
       b1 := fdiv (fmul (fmul minusTwo A) (fadd Am1 (fmul Ap1 cw))) a0
       b2 := fdiv (fmul A (fsub (fadd Ap1 (fmul Am1 cw)) t)) a0
       a1 := fdiv (fmul two (fsub Am1 (fmul Ap1 cw))) a0
       a2 := fdiv (fsub (fsub Ap1 (fmul Am1 cw)) t) a0 })

/-- R159: at 0 dB, of either sign, `b0 = 1.0`, `b1 = a1` and `b2 = a2` bit for bit, for both shelves and every lawful
configuration. -/
def Obligations.ZeroDecibelNumeratorIsDenominator : Prop :=
  ∀ (cfg : Config) (shelf : Shelf) (g : B64), ConfigLegal cfg → isZero g = true →
    let c := coefficients cfg shelf g
    c.b0 = 0x3FF0000000000000#64 ∧ c.b1 = c.a1 ∧ c.b2 = c.a2

/-- R157: the gain map and its corner cases. -/
def Obligations.GainMapCorners : Prop :=
  (∀ v : B64, gainOf v = fmul (fdiv v 0x4059000000000000#64) 0x4028000000000000#64) ∧
  gainOf 0x4059000000000000#64 = 0x4028000000000000#64 ∧ gainOf 0xC059000000000000#64 = 0xC028000000000000#64 ∧
  gainOf 0x4049000000000000#64 = 0x4018000000000000#64 ∧ gainOf 0x3FF0000000000000#64 = 0x3FBEB851EB851EB8#64 ∧
  gainOf 0x4040800000000000#64 = 0x400FAE147AE147AE#64 ∧ gainOf 0x8000000000000000#64 = 0x8000000000000000#64

/-- R156, R157: the gain of a slider in its range lies in `[-12, 12]` dB. -/
def Obligations.GainStaysWithinTwelveDecibels : Prop :=
  ∀ v : B64, inRange 0xC059000000000000#64 0x4059000000000000#64 v = true →
    inRange 0xC028000000000000#64 0x4028000000000000#64 (gainOf v) = true

/-! ### Invariants and totality -/

/-- R240, R242: every command answers a next state. That every step does so too is the model's reading (log entry 12,
DEDUCED): a core that waits for a host, which R277 and I23 call stuck, answers the state it is in, but
for the event spent. -/
def Obligations.EveryStepCompletes : Prop :=
  (∀ (i : Instr) (s : State), ∃ t, exec i s = .next t) ∧ ∀ s : State, ∃ t, step s = .next t

/-- R34, R35, R26, R28, R31: what holds between commands at reset. -/
def Obligations.ResetMeetsTheInvariants : Prop := Invariant State.reset ∧ MasterVolInRange State.reset

/-- R34, R35, R26, R28, R31: every step keeps the invariants, from every state that meets them. -/
def Obligations.StepKeepsTheInvariant : Prop := ∀ s t : State, Invariant s → step s = .next t → Invariant t

/-- R23, R34: every step keeps the volume in `[0, 1]`, never `-0.0` and never a NaN, from every state whose parameters
are in their ranges. -/
def Obligations.StepKeepsTheVolumeInRange : Prop :=
  ∀ s t : State, ParametersInRange s → MasterVolInRange s → step s = .next t → MasterVolInRange t

/-- R34, R191: a legal `RENDER` moves the volume toward its target, `TARGET_VOL` with the power on and 0.0 with it
off, and never past it. -/
def Obligations.RenderNeverOvershoots : Prop :=
  ∀ (n : Word) (s t : State), ParametersInRange s → MasterVolInRange s → n.toNat ≤ blockConfig.maxBlock →
    exec (.render n) s = .next t →
    let T := if s.power then s.targetVol else 0
    (fle s.masterVol T = true → fle s.masterVol t.masterVol = true ∧ fle t.masterVol T = true) ∧
    (fle T s.masterVol = true → fle T t.masterVol = true ∧ fle t.masterVol s.masterVol = true)

/-! ### Arithmetic -/

/-- R9: each of the five operations on finite operands is its exact result in real arithmetic, rounded once: to the nearest
binary64 value, ties to the even one, or to the infinity of its sign from the overflow threshold on. A product, a
quotient and a root have the sign of their operands, zeros included, and a sum that is exactly zero is `-0.0` only when
both operands are negative. -/
def Obligations.OperationsRoundToNearestEven : Prop :=
  ∀ a b : B64, isFinite a = true → isFinite b = true →
    RoundsTo (fadd a b) ((scaledInt a : ℝ) + scaledInt b) ∧
    (scaledInt a + scaledInt b = 0 → signBit (fadd a b) = (signBit a && signBit b)) ∧
    RoundsTo (fsub a b) ((scaledInt a : ℝ) - scaledInt b) ∧
    (scaledInt a - scaledInt b = 0 → signBit (fsub a b) = (signBit a && !signBit b)) ∧
    RoundsTo (fmul a b) ((scaledInt a : ℝ) * scaledInt b / 2 ^ 1074) ∧
    signBit (fmul a b) = (signBit a != signBit b) ∧
    (isZero b = false → RoundsTo (fdiv a b) ((scaledInt a : ℝ) * 2 ^ 1074 / scaledInt b) ∧
      signBit (fdiv a b) = (signBit a != signBit b)) ∧
    (signBit a = false ∨ isZero a = true → RoundsTo (fsqrt a) (Real.sqrt ((scaledInt a : ℝ) * 2 ^ 1074)) ∧
      signBit (fsqrt a) = signBit a)

/-- R9, R240: the five operations on NaNs, on infinities, with a divisor of zero and on the root of a negative value: the
default results of IEEE 754. Which NaN a result is, is the free value of log entry 1. -/
def Obligations.OperationsOnInfinitiesAndNaNs : Prop :=
  ∀ a b : B64,
    let infinity (neg : Bool) : B64 := if neg then 0xFFF0000000000000#64 else 0x7FF0000000000000#64
    let zero (neg : Bool) : B64 := if neg then 0x8000000000000000#64 else 0#64
    let sign := signBit a != signBit b
    (isNaN a = true ∨ isNaN b = true →
      isNaN (fadd a b) = true ∧ isNaN (fsub a b) = true ∧ isNaN (fmul a b) = true ∧ isNaN (fdiv a b) = true) ∧
    (isInf a = true → isFinite b = true → fadd a b = a ∧ fsub a b = a ∧ fdiv a b = infinity sign) ∧
    (isFinite a = true → isInf b = true → fadd a b = b ∧ fsub a b = infinity (!signBit b) ∧ fdiv a b = zero sign) ∧
    (isInf a = true → isInf b = true → isNaN (fdiv a b) = true ∧
      (sign = false → fadd a b = a ∧ isNaN (fsub a b) = true) ∧
      (sign = true → isNaN (fadd a b) = true ∧ fsub a b = a)) ∧
    (isInf a = true ∨ isInf b = true → isNaN a = false → isNaN b = false →
      (isZero a = true ∨ isZero b = true → isNaN (fmul a b) = true) ∧
      (isZero a = false → isZero b = false → fmul a b = infinity sign)) ∧
    (isFinite a = true → isZero b = true →
      (isZero a = true → isNaN (fdiv a b) = true) ∧ (isZero a = false → fdiv a b = infinity sign)) ∧
    (isNaN a = true → isNaN (fsqrt a) = true) ∧
    (isNaN a = false → isZero a = false → signBit a = true → isNaN (fsqrt a) = true) ∧
    (isInf a = true → signBit a = false → fsqrt a = a)

/-- R9: the integer square root under `Sqrt` is the floor of the root. -/
def Obligations.IntegerRootIsTheFloor : Prop :=
  ∀ m : Nat, isqrt m * isqrt m ≤ m ∧ m < (isqrt m + 1) * (isqrt m + 1)

/-- R11: the clamp of a value that is no NaN lies in the range and leaves a value of the range as it is, `-0.0`
included; infinities go to the nearer bound. -/
def Obligations.ClampStaysInRange : Prop :=
  ∀ v lo hi : B64, isFinite lo = true → isFinite hi = true → fle lo hi = true →
    (isNaN v = false → inRange lo hi (clamp v lo hi) = true) ∧
    (inRange lo hi v = true → clamp v lo hi = v) ∧
    (isNaN v = true → clamp v lo hi = v) ∧
    clamp 0x7FF0000000000000#64 lo hi = hi ∧ clamp 0xFFF0000000000000#64 lo hi = lo
end

