-- ==== Sys2Proof/Laws/Rounding.lean ====
section
/-!
SUPPORT. What rounding does: it is monotone, it is exact on binary64 values, and each rounded operation on finite
operands is the rounding of its exact result.
-/

namespace Sys2Proof.Machine

/-! ### Patterns -/

theorem magBits_lt (x : B64) : magBits x < 2 ^ 63 := Nat.mod_lt _ (by norm_num)

theorem infMag_lt : infMag < 2 ^ 63 := by decide

theorem signBit_eq (x : B64) : signBit x = decide (2 ^ 63 ≤ x.toNat) := by
  unfold signBit
  rw [BitVec.msb_eq_decide]

theorem magBits_pack (neg : Bool) {m : Nat} (h : m < 2 ^ 63) : magBits (pack neg m) = m := by
  unfold magBits pack
  cases neg <;> simp only [BitVec.toNat_ofNat] <;> norm_num <;> omega

theorem signBit_pack (neg : Bool) {m : Nat} (h : m < 2 ^ 63) : signBit (pack neg m) = neg := by
  rw [signBit_eq]
  unfold pack
  cases neg <;> simp only [BitVec.toNat_ofNat] <;> norm_num <;> omega

theorem pack_signBit_magBits (x : B64) : pack (signBit x) (magBits x) = x := by
  apply BitVec.eq_of_toNat_eq
  have hx := x.isLt
  rw [signBit_eq]
  unfold pack magBits
  rw [BitVec.toNat_ofNat]
  by_cases h : 2 ^ 63 ≤ x.toNat <;> simp only [h, decide_true, decide_false] <;> norm_num <;> omega

/-! ### Rounding to a whole number -/

theorem roundTie_le_succ (m r u : Nat) : roundTie m r u ≤ m + 1 := by
  unfold roundTie; split_ifs <;> omega

theorem le_roundTie (m r u : Nat) : m ≤ roundTie m r u := by
  unfold roundTie; split_ifs <;> omega

theorem roundTie_zero (m : Nat) {u : Nat} (h : 0 < u) : roundTie m 0 u = m := by
  simp [roundTie, h]

/-- Rounding to nearest, ties to even, is monotone in the exact value. -/
theorem roundTie_mono {n u n' u' : Nat} (hu : 0 < u) (hu' : 0 < u') (h : n * u' ≤ n' * u) :
    roundTie (n / u) (n % u) u ≤ roundTie (n' / u') (n' % u') u' := by
  have hq : n / u ≤ n' / u' := by
    rw [Nat.le_div_iff_mul_le hu']
    have h1 : n / u * u ≤ n := Nat.div_mul_le_self n u
    have h2 : n / u * u' * u ≤ n' * u := by
      calc n / u * u' * u = n / u * u * u' := by ring
        _ ≤ n * u' := Nat.mul_le_mul_right _ h1
        _ ≤ n' * u := h
    exact Nat.le_of_mul_le_mul_right h2 hu
  rcases Nat.lt_or_ge (n / u) (n' / u') with hlt | hge
  · exact (roundTie_le_succ _ _ _).trans (Nat.succ_le_of_lt hlt |>.trans (le_roundTie _ _ _))
  · have he : n' / u' = n / u := le_antisymm hge hq
    rw [he]
    have hn := Nat.div_add_mod n u
    have hn' := Nat.div_add_mod n' u'
    rw [he] at hn'
    generalize n / u = m at *
    generalize n % u = r at *
    generalize n' % u' = r' at *
    have hr : r * u' ≤ r' * u := by
      subst hn hn'
      nlinarith [h]
    unfold roundTie
    by_cases h1 : 2 * r < u
    · rw [if_pos h1]; split_ifs <;> omega
    · have h3 : u' ≤ 2 * r' := by
        by_contra hc
        have : 2 * r' < u' := by omega
        nlinarith
      by_cases h2 : u < 2 * r
      · have h4 : u' < 2 * r' := by
          by_contra hc
          have : 2 * r' ≤ u' := by omega
          nlinarith
        rw [if_neg h1, if_pos h2, if_neg (by omega), if_pos h4]
      · rw [if_neg h1, if_neg h2, if_neg (by omega)]
        split_ifs <;> omega

/-! ### Rounding to a magnitude -/

/-- The number of low bits of `n / d` that do not fit the significand. -/
def excess (n d : Nat) : Nat := (n / d).log2 - 52

/-- The magnitude bits before the overflow to infinity. -/
def roundCode (n d : Nat) : Nat :=
  excess n d * 2 ^ 52 + roundTie (n / (d * 2 ^ excess n d)) (n % (d * 2 ^ excess n d)) (d * 2 ^ excess n d)

theorem roundMag_eq (n d : Nat) : roundMag n d = min (roundCode n d) infMag := rfl

theorem roundMag_le_infMag (n d : Nat) : roundMag n d ≤ infMag := by
  rw [roundMag_eq]; exact min_le_right _ _

theorem roundMag_lt (n d : Nat) : roundMag n d < 2 ^ 63 := (roundMag_le_infMag n d).trans_lt infMag_lt

theorem quotient_lt (n d : Nat) : n / d < 2 ^ (excess n d + 53) := by
  have := Nat.lt_log2_self (n := n / d)
  exact this.trans_le (Nat.pow_le_pow_right (by norm_num) (by unfold excess; omega))

theorem le_quotient {n d : Nat} (h : 0 < excess n d) : 2 ^ (excess n d + 52) ≤ n / d := by
  have h0 : n / d ≠ 0 := by
    intro h0
    rw [excess, h0, Nat.log2_zero] at h
    omega
  have := Nat.log2_self_le h0
  refine (Nat.pow_le_pow_right (by norm_num) ?_).trans this
  unfold excess at *; omega

theorem excess_mono {n d n' d' : Nat} (h : n / d ≤ n' / d') : excess n d ≤ excess n' d' := by
  unfold excess
  have : (n / d).log2 ≤ (n' / d').log2 := by
    by_cases h0 : n / d = 0
    · simp [h0]
    · rw [Nat.le_log2 ((Nat.pos_of_ne_zero h0).trans_le h).ne']
      exact (Nat.log2_self_le h0).trans h
  omega

theorem quotient_mono {n d n' d' : Nat} (hd : 0 < d) (hd' : 0 < d') (h : n * d' ≤ n' * d) : n / d ≤ n' / d' := by
  rw [Nat.le_div_iff_mul_le hd']
  have h2 : n / d * d' * d ≤ n' * d := by
    calc n / d * d' * d = n / d * d * d' := by ring
      _ ≤ n * d' := Nat.mul_le_mul_right _ (Nat.div_mul_le_self n d)
      _ ≤ n' * d := h
  exact Nat.le_of_mul_le_mul_right h2 hd

theorem roundCode_mono {n d n' d' : Nat} (hd : 0 < d) (hd' : 0 < d') (h : n * d' ≤ n' * d) :
    roundCode n d ≤ roundCode n' d' := by
  have hk := excess_mono (quotient_mono hd hd' h)
  rcases Nat.eq_or_lt_of_le hk with he | hlt
  · unfold roundCode
    rw [← he]
    refine Nat.add_le_add_left (roundTie_mono (by positivity) (by positivity) ?_) _
    calc n * (d' * 2 ^ excess n d) = n * d' * 2 ^ excess n d := by ring
      _ ≤ n' * d * 2 ^ excess n d := Nat.mul_le_mul_right _ h
      _ = n' * (d * 2 ^ excess n d) := by ring
  · have h1 : n / (d * 2 ^ excess n d) < 2 ^ 53 := by
      rw [← Nat.div_div_eq_div_mul, Nat.div_lt_iff_lt_mul (by positivity), ← pow_add, Nat.add_comm 53]
      exact quotient_lt n d
    have h2 : 2 ^ 52 ≤ n' / (d' * 2 ^ excess n' d') := by
      rw [← Nat.div_div_eq_div_mul, Nat.le_div_iff_mul_le (by positivity), ← pow_add, Nat.add_comm 52]
      exact le_quotient (by omega)
    have h3 := roundTie_le_succ (n / (d * 2 ^ excess n d)) (n % (d * 2 ^ excess n d)) (d * 2 ^ excess n d)
    have h4 := le_roundTie (n' / (d' * 2 ^ excess n' d')) (n' % (d' * 2 ^ excess n' d')) (d' * 2 ^ excess n' d')
    have h5 : (excess n d + 1) * 2 ^ 52 ≤ excess n' d' * 2 ^ 52 := Nat.mul_le_mul_right _ hlt
    unfold roundCode
    omega

/-- Rounding is monotone in the exact value. -/
theorem roundMag_mono {n d n' d' : Nat} (hd : 0 < d) (hd' : 0 < d') (h : n * d' ≤ n' * d) :
    roundMag n d ≤ roundMag n' d' := by
  rw [roundMag_eq, roundMag_eq]
  exact min_le_min_right _ (roundCode_mono hd hd' h)

/-- Rounding a value that is a binary64 value already gives its own bits. -/
theorem roundMag_scaledMag {m d : Nat} (hd : 0 < d) (hm : m ≤ infMag) : roundMag (scaledMag m * d) d = m := by
  have hq : scaledMag m * d / d = scaledMag m := Nat.mul_div_cancel _ hd
  have hm0 := Nat.div_add_mod m (2 ^ 52)
  have hf : m % 2 ^ 52 < 2 ^ 52 := Nat.mod_lt _ (by norm_num)
  suffices h : roundCode (scaledMag m * d) d = m by rw [roundMag_eq, h]; exact min_eq_left hm
  by_cases h0 : m / 2 ^ 52 = 0
  · have hs : scaledMag m = m % 2 ^ 52 := by simp only [scaledMag, h0, if_true]
    have hk : excess (scaledMag m * d) d = 0 := by
      unfold excess
      rw [hq, hs]
      by_cases hz : m % 2 ^ 52 = 0
      · rw [hz, Nat.log2_zero]
      · have : (m % 2 ^ 52).log2 < 52 := (Nat.log2_lt hz).2 hf
        omega
    have hc : roundCode (scaledMag m * d) d = 0 * 2 ^ 52 + m % 2 ^ 52 := by
      rw [roundCode, hk, pow_zero, Nat.mul_one, hq, Nat.mul_mod_left, roundTie_zero _ hd, hs]
    omega
  · have hs : scaledMag m = (2 ^ 52 + m % 2 ^ 52) * 2 ^ (m / 2 ^ 52 - 1) := by simp only [scaledMag, h0, if_false]
    have hk : excess (scaledMag m * d) d = m / 2 ^ 52 - 1 := by
      unfold excess
      rw [hq, hs]
      have : ((2 ^ 52 + m % 2 ^ 52) * 2 ^ (m / 2 ^ 52 - 1)).log2 = 52 + (m / 2 ^ 52 - 1) := by
        rw [Nat.log2_eq_iff (by positivity)]
        constructor
        · rw [pow_add]; exact Nat.mul_le_mul_right _ (by omega)
        · have : 2 ^ 52 + m % 2 ^ 52 < 2 ^ 53 := by omega
          calc _ < 2 ^ 53 * 2 ^ (m / 2 ^ 52 - 1) := Nat.mul_lt_mul_of_pos_right this (by positivity)
            _ = 2 ^ (52 + (m / 2 ^ 52 - 1) + 1) := by rw [← pow_add]; congr 1; omega
      omega
    have hu : scaledMag m * d = (2 ^ 52 + m % 2 ^ 52) * (d * 2 ^ (m / 2 ^ 52 - 1)) := by rw [hs]; ring
    have hpos : 0 < d * 2 ^ (m / 2 ^ 52 - 1) := by positivity
    have hc : roundCode (scaledMag m * d) d = (m / 2 ^ 52 - 1) * 2 ^ 52 + (2 ^ 52 + m % 2 ^ 52) := by
      rw [roundCode, hk, hu, Nat.mul_div_cancel _ hpos, Nat.mul_mod_left, roundTie_zero _ hpos]
    have : (m / 2 ^ 52 - 1) * 2 ^ 52 = m / 2 ^ 52 * 2 ^ 52 - 2 ^ 52 := by rw [Nat.sub_mul, Nat.one_mul]
    omega

theorem roundMag_le_of_le {n d m : Nat} (hd : 0 < d) (hm : m ≤ infMag) (h : n ≤ scaledMag m * d) :
    roundMag n d ≤ m := by
  rw [← roundMag_scaledMag hd hm]
  exact roundMag_mono hd hd (Nat.mul_le_mul_right _ h)

theorem le_roundMag_of_le {n d m : Nat} (hd : 0 < d) (hm : m ≤ infMag) (h : scaledMag m * d ≤ n) :
    m ≤ roundMag n d := by
  rw [← roundMag_scaledMag hd hm]
  exact roundMag_mono hd hd (Nat.mul_le_mul_right _ h)

theorem roundMag_zero {d : Nat} (hd : 0 < d) : roundMag 0 d = 0 := by
  have := roundMag_scaledMag (m := 0) hd (by decide)
  simpa [scaledMag] using this

/-- Magnitude bits order as the values they stand for. -/
theorem scaledMag_strictMono {m m' : Nat} (h : m < m') : scaledMag m < scaledMag m' := by
  unfold scaledMag
  have h1 := Nat.div_add_mod m (2 ^ 52)
  have h2 := Nat.div_add_mod m' (2 ^ 52)
  have h3 : m % 2 ^ 52 < 2 ^ 52 := Nat.mod_lt _ (by norm_num)
  have h4 : m' % 2 ^ 52 < 2 ^ 52 := Nat.mod_lt _ (by norm_num)
  generalize m / 2 ^ 52 = e at *
  generalize m % 2 ^ 52 = f at *
  generalize m' / 2 ^ 52 = e' at *
  generalize m' % 2 ^ 52 = f' at *
  have he : e ≤ e' := by omega
  by_cases h0 : e = 0
  · by_cases h0' : e' = 0
    · simp only [h0, h0', if_true]; omega
    · simp only [h0, h0', if_true, if_false]
      have : 1 ≤ 2 ^ (e' - 1) := Nat.one_le_two_pow
      nlinarith
  · have h0' : e' ≠ 0 := by omega
    simp only [h0, h0', if_false]
    rcases Nat.eq_or_lt_of_le he with heq | hlt
    · subst heq
      exact Nat.mul_lt_mul_of_pos_right (by omega) (by positivity)
    · have hp : 2 ^ (e - 1) * 2 ≤ 2 ^ (e' - 1) := by
        rw [← pow_succ]; exact Nat.pow_le_pow_right (by norm_num) (by omega)
      have : 0 < 2 ^ (e - 1) := by positivity
      nlinarith

theorem scaledMag_le_iff {m m' : Nat} : scaledMag m ≤ scaledMag m' ↔ m ≤ m' :=
  (strictMono_nat_of_lt_succ fun n => scaledMag_strictMono (Nat.lt_succ_self n)).le_iff_le

theorem scaledMag_lt_iff {m m' : Nat} : scaledMag m < scaledMag m' ↔ m < m' :=
  (strictMono_nat_of_lt_succ fun n => scaledMag_strictMono (Nat.lt_succ_self n)).lt_iff_lt

theorem scaledMag_zero : scaledMag 0 = 0 := by simp [scaledMag]

/-! ### Signed values -/

/-- The order key of the signed value nearest to `z / d` units. -/
def roundKey (z : Int) (d : Nat) : Int := if z < 0 then -(roundMag z.natAbs d : Int) else (roundMag z.natAbs d : Int)

/-- The value that an order key stands for, in units. -/
def scaledKey (k : Int) : Int := if k < 0 then -(scaledMag k.natAbs : Int) else (scaledMag k.natAbs : Int)

theorem roundKey_mono {z z' : Int} {d d' : Nat} (hd : 0 < d) (hd' : 0 < d') (h : z * d' ≤ z' * d) :
    roundKey z d ≤ roundKey z' d' := by
  have hd1 : (0 : Int) < d := by exact_mod_cast hd
  have hd2 : (0 : Int) < d' := by exact_mod_cast hd'
  unfold roundKey
  by_cases hz : z < 0
  · by_cases hz' : z' < 0
    · rw [if_pos hz, if_pos hz']
      have : z'.natAbs * d ≤ z.natAbs * d' := by
        zify; rw [abs_of_neg hz, abs_of_neg hz']; linarith
      have := roundMag_mono hd' hd this
      omega
    · rw [if_pos hz, if_neg hz']; omega
  · have hz' : ¬ z' < 0 := by
      intro hn
      have h1 : 0 ≤ z * d' := mul_nonneg (by omega) hd2.le
      nlinarith
    rw [if_neg hz, if_neg hz']
    have : z.natAbs * d' ≤ z'.natAbs * d := by
      zify; rw [abs_of_nonneg (by omega), abs_of_nonneg (by omega)]; exact h
    have := roundMag_mono hd hd' this
    omega

theorem roundKey_scaledKey {k : Int} {d : Nat} (hd : 0 < d) (hk : k.natAbs ≤ infMag) :
    roundKey (scaledKey k * d) d = k := by
  have hd1 : (0 : Int) < d := by exact_mod_cast hd
  have e : (scaledKey k * d).natAbs = scaledMag k.natAbs * d := by
    unfold scaledKey
    split_ifs <;> simp [Int.natAbs_mul]
  unfold roundKey
  rw [e, roundMag_scaledMag hd hk]
  by_cases hk0 : k < 0
  · have hpos : 0 < scaledMag k.natAbs := by
      rw [← scaledMag_zero]; exact scaledMag_strictMono (by omega)
    have : scaledKey k * d < 0 := by
      unfold scaledKey; rw [if_pos hk0]
      have : (0 : Int) < scaledMag k.natAbs := by exact_mod_cast hpos
      nlinarith
    rw [if_pos this]; omega
  · have : ¬ scaledKey k * d < 0 := by
      unfold scaledKey; rw [if_neg hk0]; push Not; positivity
    rw [if_neg this]; omega

theorem scaledKey_strictMono {k k' : Int} (h : k < k') : scaledKey k < scaledKey k' := by
  unfold scaledKey
  split_ifs with h1 h2
  · have := scaledMag_strictMono (m := k'.natAbs) (m' := k.natAbs) (by omega)
    omega
  · have := scaledMag_strictMono (m := 0) (m' := k.natAbs) (by omega)
    rw [scaledMag_zero] at this
    omega
  · omega
  · have := scaledMag_strictMono (m := k.natAbs) (m' := k'.natAbs) (by omega)
    omega

theorem scaledKey_le_iff {k k' : Int} : scaledKey k ≤ scaledKey k' ↔ k ≤ k' :=
  (strictMono_int_of_lt_succ fun n => scaledKey_strictMono (Int.lt_succ n)).le_iff_le

theorem scaledKey_lt_iff {k k' : Int} : scaledKey k < scaledKey k' ↔ k < k' :=
  (strictMono_int_of_lt_succ fun n => scaledKey_strictMono (Int.lt_succ n)).lt_iff_lt

theorem scaledKey_inj {k k' : Int} : scaledKey k = scaledKey k' ↔ k = k' :=
  (strictMono_int_of_lt_succ fun n => scaledKey_strictMono (Int.lt_succ n)).injective.eq_iff

theorem roundKey_natAbs (z : Int) (d : Nat) : (roundKey z d).natAbs = roundMag z.natAbs d := by
  unfold roundKey; split_ifs
  · rw [Int.natAbs_neg, Int.natAbs_natCast]
  · rw [Int.natAbs_natCast]

theorem roundKey_le_of_le {z k : Int} {d : Nat} (hd : 0 < d) (hk : k.natAbs ≤ infMag) (h : z ≤ scaledKey k * d) :
    roundKey z d ≤ k := by
  rw [← roundKey_scaledKey hd hk]
  have hd1 : (0 : Int) < d := by exact_mod_cast hd
  exact roundKey_mono hd hd (by nlinarith)

theorem le_roundKey_of_le {z k : Int} {d : Nat} (hd : 0 < d) (hk : k.natAbs ≤ infMag) (h : scaledKey k * d ≤ z) :
    k ≤ roundKey z d := by
  rw [← roundKey_scaledKey hd hk]
  have hd1 : (0 : Int) < d := by exact_mod_cast hd
  exact roundKey_mono hd hd (by nlinarith)

theorem roundKey_neg (z : Int) {d : Nat} (hd : 0 < d) : roundKey (-z) d = -roundKey z d := by
  unfold roundKey
  rw [Int.natAbs_neg]
  rcases lt_trichotomy z 0 with h | h | h
  · rw [if_neg (by omega), if_pos h]; omega
  · subst h; simp [roundMag_zero hd]
  · rw [if_pos (by omega), if_neg (by omega)]

/-! ### Values and their order keys -/

theorem orderKey_natAbs (x : B64) : (orderKey x).natAbs = magBits x := by
  unfold orderKey; split_ifs <;> simp

theorem scaledInt_eq (x : B64) : scaledInt x = scaledKey (orderKey x) := by
  unfold scaledInt scaledKey scaled
  rw [orderKey_natAbs]
  unfold orderKey
  by_cases hs : signBit x = true
  · rw [if_pos hs, if_pos hs]
    by_cases hm : magBits x = 0
    · simp [hm, scaledMag_zero]
    · rw [if_pos (by omega)]
  · rw [if_neg hs, if_neg hs, if_neg (by omega)]

theorem scaledInt_natAbs (x : B64) : (scaledInt x).natAbs = scaled x := by
  unfold scaledInt; split_ifs <;> simp

theorem orderKey_pack (neg : Bool) {m : Nat} (h : m < 2 ^ 63) :
    orderKey (pack neg m) = if neg then -(m : Int) else (m : Int) := by
  unfold orderKey; rw [magBits_pack _ h, signBit_pack _ h]

theorem orderKey_pack_roundKey (z : Int) (d : Nat) :
    orderKey (pack (decide (z < 0)) (roundMag z.natAbs d)) = roundKey z d := by
  rw [orderKey_pack _ (roundMag_lt _ _)]
  unfold roundKey
  by_cases h : z < 0 <;> simp [h]

theorem isNaN_pack (neg : Bool) {m : Nat} (h : m ≤ infMag) : isNaN (pack neg m) = false := by
  unfold isNaN
  rw [magBits_pack _ (h.trans_lt infMag_lt)]
  simpa using h

theorem isNaN_of_isFinite {x : B64} (h : isFinite x = true) : isNaN x = false := by
  simp [isFinite, isNaN] at *; omega

theorem isInf_of_isFinite {x : B64} (h : isFinite x = true) : isInf x = false := by
  simp [isFinite, isInf] at *; omega

end Sys2Proof.Machine
end

