-- ==== Sys2Proof/Laws/Arithmetic.lean ====
section
/-!
SUPPORT. One lemma per rounded operation on finite operands: the order key of the result is the rounding of the exact
result, and the result is no NaN. Comparisons, the clamp and literals in the same terms.
-/

namespace Sys2Proof.Machine

/-! ### Classes of values -/

theorem isFinite_iff {x : B64} : isFinite x = true ↔ (orderKey x).natAbs < infMag := by
  rw [orderKey_natAbs]; simp [isFinite]

theorem isNaN_false_iff {x : B64} : isNaN x = false ↔ (orderKey x).natAbs ≤ infMag := by
  rw [orderKey_natAbs]; simp [isNaN]

theorem isZero_iff {x : B64} : isZero x = true ↔ orderKey x = 0 := by
  have := orderKey_natAbs x
  simp only [isZero, beq_iff_eq]
  omega

/-- A value other than a zero is given by its order key. -/
theorem eq_of_orderKey_eq {x y : B64} (h : orderKey x = orderKey y) (h0 : orderKey x ≠ 0) : x = y := by
  have hx := orderKey_natAbs x
  have hy := orderKey_natAbs y
  rw [← pack_signBit_magBits x, ← pack_signBit_magBits y, ← hx, ← hy, h]
  congr 1
  unfold orderKey at h h0
  cases hx : signBit x <;> cases hy : signBit y <;> simp only [hx, hy] at h h0 ⊢ <;> simp at h h0 <;> omega

theorem signBit_of_orderKey_pos {x : B64} (h : 0 < orderKey x) : signBit x = false := by
  unfold orderKey at h
  cases hx : signBit x
  · rfl
  · simp only [hx, if_true] at h; omega

theorem signBit_of_orderKey_neg {x : B64} (h : orderKey x < 0) : signBit x = true := by
  unfold orderKey at h
  cases hx : signBit x
  · simp [hx] at h; omega
  · rfl

theorem orderKey_fneg (x : B64) : orderKey (fneg x) = -orderKey x := by
  unfold fneg
  rw [orderKey_pack _ (magBits_lt x)]
  unfold orderKey
  cases signBit x <;> simp

theorem signBit_fneg (x : B64) : signBit (fneg x) = !signBit x := signBit_pack _ (magBits_lt x)

theorem magBits_fneg (x : B64) : magBits (fneg x) = magBits x := magBits_pack _ (magBits_lt x)

theorem scaledKey_neg (k : Int) : scaledKey (-k) = -scaledKey k := by
  unfold scaledKey
  rw [Int.natAbs_neg]
  rcases lt_trichotomy k 0 with h | h | h
  · rw [if_neg (by omega), if_pos h]; omega
  · subst h; simp [scaledMag_zero]
  · rw [if_pos (by omega), if_neg (by omega)]

theorem scaledInt_fneg (x : B64) : scaledInt (fneg x) = -scaledInt x := by
  rw [scaledInt_eq, scaledInt_eq, orderKey_fneg, scaledKey_neg]

theorem isFinite_fneg (x : B64) : isFinite (fneg x) = isFinite x := by
  unfold isFinite; rw [magBits_fneg]

theorem isNaN_fneg (x : B64) : isNaN (fneg x) = isNaN x := by
  unfold isNaN; rw [magBits_fneg]

/-! ### Comparisons -/

theorem flt_iff {a b : B64} : flt a b = true ↔ isNaN a = false ∧ isNaN b = false ∧ orderKey a < orderKey b := by
  simp [flt, and_assoc]

theorem fle_iff {a b : B64} : fle a b = true ↔ isNaN a = false ∧ isNaN b = false ∧ orderKey a ≤ orderKey b := by
  simp [fle, and_assoc]

theorem inRange_iff {lo hi v : B64} : inRange lo hi v = true ↔
    isNaN v = false ∧ isNaN lo = false ∧ isNaN hi = false ∧ orderKey lo ≤ orderKey v ∧ orderKey v ≤ orderKey hi := by
  simp only [inRange, Bool.and_eq_true, fle_iff]
  tauto

/-- The clamp of a value that is no NaN lies in its range (R11). -/
theorem clamp_inRange {lo hi v : B64} (hv : isNaN v = false) (hlo : isNaN lo = false) (hhi : isNaN hi = false)
    (h : orderKey lo ≤ orderKey hi) : inRange lo hi (clamp v lo hi) = true := by
  unfold clamp
  rw [inRange_iff]
  split_ifs with h1 h2
  · exact ⟨hlo, hlo, hhi, le_refl _, h⟩
  · exact ⟨hhi, hlo, hhi, h, le_refl _⟩
  · rw [flt_iff] at h1 h2
    push Not at h1 h2
    exact ⟨hv, hlo, hhi, h1 hv hlo, h2 hhi hv⟩

/-- The clamp leaves a value in its range as it is, signed zero included (R11). -/
theorem clamp_of_inRange {lo hi v : B64} (h : inRange lo hi v = true) : clamp v lo hi = v := by
  rw [inRange_iff] at h
  unfold clamp
  rw [if_neg (by rw [flt_iff]; omega), if_neg (by rw [flt_iff]; omega)]

/-! ### Sums and differences -/

theorem unitsPerOne_pos : 0 < unitsPerOne := by unfold unitsPerOne; positivity

theorem orderKey_addFinite (a b : B64) : orderKey (addFinite a b) = roundKey (scaledInt a + scaledInt b) 1 := by
  unfold addFinite
  simp only
  split_ifs with h
  · rw [orderKey_pack _ (by norm_num), h]
    unfold roundKey
    simp [roundMag_zero]
  · exact orderKey_pack_roundKey _ _

theorem isNaN_addFinite (a b : B64) : isNaN (addFinite a b) = false := by
  rw [isNaN_false_iff, orderKey_addFinite, roundKey_natAbs]
  exact roundMag_le_infMag _ _

theorem fadd_of_finite {a b : B64} (ha : isFinite a = true) (hb : isFinite b = true) : fadd a b = addFinite a b := by
  unfold fadd addAs
  simp [isNaN_of_isFinite, isInf_of_isFinite, ha, hb]

theorem fsub_of_finite {a b : B64} (ha : isFinite a = true) (hb : isFinite b = true) :
    fsub a b = addFinite a (fneg b) := by
  unfold fsub addAs
  simp [isNaN_of_isFinite, isInf_of_isFinite, ha, hb]

/-- The sum of two finite values is the rounding of their exact sum. -/
theorem orderKey_fadd {a b : B64} (ha : isFinite a = true) (hb : isFinite b = true) :
    orderKey (fadd a b) = roundKey (scaledInt a + scaledInt b) 1 := by
  rw [fadd_of_finite ha hb, orderKey_addFinite]

theorem isNaN_fadd {a b : B64} (ha : isFinite a = true) (hb : isFinite b = true) : isNaN (fadd a b) = false := by
  rw [fadd_of_finite ha hb, isNaN_addFinite]

/-- The difference of two finite values is the rounding of their exact difference. -/
theorem orderKey_fsub {a b : B64} (ha : isFinite a = true) (hb : isFinite b = true) :
    orderKey (fsub a b) = roundKey (scaledInt a - scaledInt b) 1 := by
  rw [fsub_of_finite ha hb, orderKey_addFinite, scaledInt_fneg, sub_eq_add_neg]

theorem isNaN_fsub {a b : B64} (ha : isFinite a = true) (hb : isFinite b = true) : isNaN (fsub a b) = false := by
  rw [fsub_of_finite ha hb, isNaN_addFinite]

/-! ### Products and quotients -/

theorem fmul_of_finite {a b : B64} (ha : isFinite a = true) (hb : isFinite b = true) :
    fmul a b = pack (signBit a != signBit b) (roundMag (scaled a * scaled b) unitsPerOne) := by
  unfold fmul
  simp [isNaN_of_isFinite, isInf_of_isFinite, ha, hb]

theorem orderKey_pack_signs (a b : Bool) (m n d : Nat) (hd : 0 < d) :
    orderKey (pack (a != b) (roundMag (m * n) d)) =
      roundKey ((if a then -(m : Int) else m) * (if b then -(n : Int) else n)) d := by
  rw [orderKey_pack _ (roundMag_lt _ _)]
  have e : ((m : Int) * n).natAbs = m * n := by rw [Int.natAbs_mul, Int.natAbs_natCast, Int.natAbs_natCast]
  have h : roundKey ((m : Int) * n) d = roundMag (m * n) d := by
    unfold roundKey; rw [if_neg (by push Not; positivity), e]
  have h' : roundKey (-((m : Int) * n)) d = -roundMag (m * n) d := by rw [roundKey_neg _ hd, h]
  cases a <;> cases b <;> simp [h, h']

/-- The product of two finite values is the rounding of their exact product. -/
theorem orderKey_fmul {a b : B64} (ha : isFinite a = true) (hb : isFinite b = true) :
    orderKey (fmul a b) = roundKey (scaledInt a * scaledInt b) unitsPerOne := by
  rw [fmul_of_finite ha hb, orderKey_pack_signs _ _ _ _ _ unitsPerOne_pos]
  rfl

theorem isNaN_fmul {a b : B64} (ha : isFinite a = true) (hb : isFinite b = true) : isNaN (fmul a b) = false := by
  rw [fmul_of_finite ha hb, isNaN_pack _ (roundMag_le_infMag _ _)]

theorem fdiv_of_finite {a b : B64} (ha : isFinite a = true) (hb : isFinite b = true) (h0 : isZero b = false) :
    fdiv a b = pack (signBit a != signBit b) (roundMag (scaled a * unitsPerOne) (scaled b)) := by
  unfold fdiv
  simp [isNaN_of_isFinite, isInf_of_isFinite, ha, hb, h0]

theorem isNaN_fdiv {a b : B64} (ha : isFinite a = true) (hb : isFinite b = true) (h0 : isZero b = false) :
    isNaN (fdiv a b) = false := by
  rw [fdiv_of_finite ha hb h0, isNaN_pack _ (roundMag_le_infMag _ _)]

theorem scaled_pos {b : B64} (h0 : isZero b = false) : 0 < scaled b := by
  unfold scaled
  rw [← scaledMag_zero]
  refine scaledMag_strictMono (Nat.pos_of_ne_zero ?_)
  simpa [isZero] using h0

/-- The quotient of a finite value by a positive one is the rounding of their exact quotient. -/
theorem orderKey_fdiv {a b : B64} (ha : isFinite a = true) (hb : isFinite b = true) (hpos : 0 < orderKey b) :
    orderKey (fdiv a b) = roundKey (scaledInt a * unitsPerOne) (scaled b) := by
  have h0 : isZero b = false := by
    rw [← Bool.not_eq_true, isZero_iff]; omega
  rw [fdiv_of_finite ha hb h0, signBit_of_orderKey_pos hpos]
  have := orderKey_pack_signs (signBit a) false (scaled a) unitsPerOne (scaled b) (scaled_pos h0)
  rw [this]
  rfl

/-! ### Literals -/

theorem orderKey_literal (n d : Nat) : orderKey (literal n d) = roundMag (n * unitsPerOne) d := by
  unfold literal
  rw [orderKey_pack _ (roundMag_lt _ _)]
  simp

theorem isNaN_literal (n d : Nat) : isNaN (literal n d) = false := isNaN_pack _ (roundMag_le_infMag _ _)

/-- `1.0` is 2^1074 units. -/
theorem scaledInt_one : scaledInt (whole 1) = unitsPerOne := by decide +kernel

theorem isFinite_one : isFinite (whole 1) = true := by decide +kernel

/-- Multiplying a finite value by 1.0 changes nothing, signed zero included (R100). -/
theorem fmul_one {x : B64} (hx : isFinite x = true) : fmul x (whole 1) = x := by
  have h1 : scaled (whole 1) = unitsPerOne := by decide +kernel
  have h2 : signBit (whole 1) = false := by decide +kernel
  have hm : magBits x ≤ infMag := by simp [isFinite] at hx; omega
  rw [fmul_of_finite hx isFinite_one, h1, h2, Bool.bne_false, scaled, roundMag_scaledMag unitsPerOne_pos hm,
    pack_signBit_magBits]

end Sys2Proof.Machine
end

