-- ==== Sys2Proof/Laws/Config.lean ====
section
/-!
SUPPORT. The block's configuration keeps the laws of 00_scope.md R6, 41_biquad_filter.md R151 and
40_noise_generator.md R104, and no configuration
that keeps them is changed: a claim about the block's configuration is one about every lawful one.
-/

namespace Sys2Proof.Machine

theorem legalise_legal (c : Config) : ConfigLegal (legalise c) where
  fs := by
    unfold legalise; simp only
    split
    · assumption
    · decide +kernel
  sin64 x := by
    unfold legalise; simp only
    split
    · assumption
    · decide +kernel
  cos64 x := by
    unfold legalise; simp only
    split
    · assumption
    · decide +kernel
  pow10 x := by
    unfold legalise; simp only
    split
    · decide +kernel
    · split
      · assumption
      · decide +kernel
  white S := by
    unfold legalise; simp only
    split
    · assumption
    · decide +kernel
  pow10_0 x h := by unfold legalise; simp only; rw [if_pos h]
  maxBlock := by unfold legalise; simp only; split <;> omega

theorem blockConfig_legal : ConfigLegal blockConfig := legalise_legal _

theorem legalise_of_legal {c : Config} (h : ConfigLegal c) : legalise c = c := by
  obtain ⟨fs, sin64, cos64, pow10, maxBlock, resetSeed, white, extraPorts⟩ := c
  have hw : ∀ S, sampleLegal (white.draw S).1 = true := h.white
  simp only [legalise, Config.mk.injEq, and_true, hw, if_true]
  refine ⟨if_pos h.fs, funext fun x => if_pos (h.sin64 x), funext fun x => if_pos (h.cos64 x), funext fun x => ?_,
    if_neg (Nat.one_le_iff_ne_zero.1 h.maxBlock)⟩
  by_cases hx : isZero x = true
  · rw [if_pos hx]; exact (h.pow10_0 x hx).symm
  · rw [if_neg hx, if_pos (h.pow10 x)]

end Sys2Proof.Machine
end

