-- ==== Sys2Proof/Laws/Encoding.lean ====
section
/-!
SUPPORT. The fields of a command word made from three fields (30_encoding.md R71).
-/

namespace Sys2Proof

@[simp] theorem opcodeField_commandWord (x : Word) (r : BitVec 56) (op : BitVec 8) :
    opcodeField (commandWord x r op) = op := by
  apply BitVec.eq_of_getLsbD_eq
  intro i hi
  simp only [opcodeField, commandWord, BitVec.getLsbD_extractLsb', BitVec.getLsbD_append, hi, decide_true,
    Bool.true_and, Nat.zero_add]
  rw [if_pos trivial, if_pos (by omega)]

@[simp] theorem reservedField_commandWord (x : Word) (r : BitVec 56) (op : BitVec 8) :
    reservedField (commandWord x r op) = r := by
  apply BitVec.eq_of_getLsbD_eq
  intro i hi
  simp only [reservedField, commandWord, BitVec.getLsbD_extractLsb', BitVec.getLsbD_append, hi, decide_true,
    Bool.true_and]
  rw [if_pos (by omega), if_neg (by omega)]
  congr 1; omega

@[simp] theorem operandField_commandWord (x : Word) (r : BitVec 56) (op : BitVec 8) :
    operandField (commandWord x r op) = x := by
  apply BitVec.eq_of_getLsbD_eq
  intro i hi
  simp only [operandField, commandWord, BitVec.getLsbD_extractLsb', BitVec.getLsbD_append, hi, decide_true,
    Bool.true_and]
  rw [if_neg (by omega)]
  congr 1; omega

end Sys2Proof
end

