-- ==== Sys2Proof/Laws/State.lean ====
section
/-!
SUPPORT. What each shared update of the state does to each field, one lemma per field it leaves or writes. Proofs use
these and need not unfold a record update.
-/

namespace Sys2Proof.Machine

/-! ### The illegal-command outcome (60_exceptions.md R242) -/

@[simp] theorem raiseIllegal_power (c : Cause) (s : State) : (raiseIllegal c s).power = s.power := rfl
@[simp] theorem raiseIllegal_targetVol (c : Cause) (s : State) : (raiseIllegal c s).targetVol = s.targetVol := rfl
@[simp] theorem raiseIllegal_masterVol (c : Cause) (s : State) : (raiseIllegal c s).masterVol = s.masterVol := rfl
@[simp] theorem raiseIllegal_color (c : Cause) (s : State) : (raiseIllegal c s).color = s.color := rfl
@[simp] theorem raiseIllegal_bass (c : Cause) (s : State) : (raiseIllegal c s).bass = s.bass := rfl
@[simp] theorem raiseIllegal_treble (c : Cause) (s : State) : (raiseIllegal c s).treble = s.treble := rfl
@[simp] theorem raiseIllegal_status (c : Cause) (s : State) : (raiseIllegal c s).status = recordIllegal s.status c := rfl
@[simp] theorem raiseIllegal_primary (c : Cause) (s : State) : (raiseIllegal c s).primary = s.primary := rfl
@[simp] theorem raiseIllegal_secondary (c : Cause) (s : State) : (raiseIllegal c s).secondary = s.secondary := rfl
@[simp] theorem raiseIllegal_rng (c : Cause) (s : State) : (raiseIllegal c s).rng = s.rng := rfl
@[simp] theorem raiseIllegal_leftLS (c : Cause) (s : State) : (raiseIllegal c s).leftLS = s.leftLS := rfl
@[simp] theorem raiseIllegal_leftHS (c : Cause) (s : State) : (raiseIllegal c s).leftHS = s.leftHS := rfl
@[simp] theorem raiseIllegal_rightLS (c : Cause) (s : State) : (raiseIllegal c s).rightLS = s.rightLS := rfl
@[simp] theorem raiseIllegal_rightHS (c : Cause) (s : State) : (raiseIllegal c s).rightHS = s.rightHS := rfl
@[simp] theorem raiseIllegal_ports (c : Cause) (s : State) : (raiseIllegal c s).ports = s.ports := rfl
@[simp] theorem raiseIllegal_rr (c : Cause) (s : State) : (raiseIllegal c s).rr = s.rr := rfl
@[simp] theorem raiseIllegal_issuer (c : Cause) (s : State) : (raiseIllegal c s).issuer = s.issuer := rfl
@[simp] theorem raiseIllegal_inReset (c : Cause) (s : State) : (raiseIllegal c s).inReset = s.inReset := rfl
@[simp] theorem raiseIllegal_env (c : Cause) (s : State) : (raiseIllegal c s).env = s.env := rfl

/-! ### Emitting (20_memory.md R57) -/

@[simp] theorem emit_power (ws : List Word) (s : State) : (emit ws s).power = s.power := rfl
@[simp] theorem emit_targetVol (ws : List Word) (s : State) : (emit ws s).targetVol = s.targetVol := rfl
@[simp] theorem emit_masterVol (ws : List Word) (s : State) : (emit ws s).masterVol = s.masterVol := rfl
@[simp] theorem emit_color (ws : List Word) (s : State) : (emit ws s).color = s.color := rfl
@[simp] theorem emit_bass (ws : List Word) (s : State) : (emit ws s).bass = s.bass := rfl
@[simp] theorem emit_treble (ws : List Word) (s : State) : (emit ws s).treble = s.treble := rfl
@[simp] theorem emit_status (ws : List Word) (s : State) : (emit ws s).status = s.status := rfl
@[simp] theorem emit_primary (ws : List Word) (s : State) : (emit ws s).primary = s.primary := rfl
@[simp] theorem emit_secondary (ws : List Word) (s : State) : (emit ws s).secondary = s.secondary := rfl
@[simp] theorem emit_rng (ws : List Word) (s : State) : (emit ws s).rng = s.rng := rfl
@[simp] theorem emit_leftLS (ws : List Word) (s : State) : (emit ws s).leftLS = s.leftLS := rfl
@[simp] theorem emit_leftHS (ws : List Word) (s : State) : (emit ws s).leftHS = s.leftHS := rfl
@[simp] theorem emit_rightLS (ws : List Word) (s : State) : (emit ws s).rightLS = s.rightLS := rfl
@[simp] theorem emit_rightHS (ws : List Word) (s : State) : (emit ws s).rightHS = s.rightHS := rfl
@[simp] theorem emit_ports (ws : List Word) (s : State) : (emit ws s).ports = s.ports.modify s.issuer fun p => { p with rspq := p.rspq ++ ws } := rfl
@[simp] theorem emit_rr (ws : List Word) (s : State) : (emit ws s).rr = s.rr := rfl
@[simp] theorem emit_issuer (ws : List Word) (s : State) : (emit ws s).issuer = s.issuer := rfl
@[simp] theorem emit_inReset (ws : List Word) (s : State) : (emit ws s).inReset = s.inReset := rfl
@[simp] theorem emit_env (ws : List Word) (s : State) : (emit ws s).env = s.env := rfl

/-! ### Taking a command (60_exceptions.md R250) -/

@[simp] theorem beginCommand_power (p : Nat) (s : State) : (beginCommand p s).power = s.power := rfl
@[simp] theorem beginCommand_targetVol (p : Nat) (s : State) : (beginCommand p s).targetVol = s.targetVol := rfl
@[simp] theorem beginCommand_masterVol (p : Nat) (s : State) : (beginCommand p s).masterVol = s.masterVol := rfl
@[simp] theorem beginCommand_color (p : Nat) (s : State) : (beginCommand p s).color = s.color := rfl
@[simp] theorem beginCommand_bass (p : Nat) (s : State) : (beginCommand p s).bass = s.bass := rfl
@[simp] theorem beginCommand_treble (p : Nat) (s : State) : (beginCommand p s).treble = s.treble := rfl
@[simp] theorem beginCommand_status (p : Nat) (s : State) : (beginCommand p s).status = s.status := rfl
@[simp] theorem beginCommand_primary (p : Nat) (s : State) : (beginCommand p s).primary = s.primary := rfl
@[simp] theorem beginCommand_secondary (p : Nat) (s : State) : (beginCommand p s).secondary = s.secondary := rfl
@[simp] theorem beginCommand_rng (p : Nat) (s : State) : (beginCommand p s).rng = s.rng := rfl
@[simp] theorem beginCommand_leftLS (p : Nat) (s : State) : (beginCommand p s).leftLS = s.leftLS := rfl
@[simp] theorem beginCommand_leftHS (p : Nat) (s : State) : (beginCommand p s).leftHS = s.leftHS := rfl
@[simp] theorem beginCommand_rightLS (p : Nat) (s : State) : (beginCommand p s).rightLS = s.rightLS := rfl
@[simp] theorem beginCommand_rightHS (p : Nat) (s : State) : (beginCommand p s).rightHS = s.rightHS := rfl
@[simp] theorem beginCommand_ports (p : Nat) (s : State) : (beginCommand p s).ports = s.ports.modify p fun port => { port with cmdq := port.cmdq.tail } := rfl
@[simp] theorem beginCommand_rr (p : Nat) (s : State) : (beginCommand p s).rr = (p + 1) % s.ports.length := rfl
@[simp] theorem beginCommand_issuer (p : Nat) (s : State) : (beginCommand p s).issuer = p := rfl
@[simp] theorem beginCommand_inReset (p : Nat) (s : State) : (beginCommand p s).inReset = s.inReset := rfl
@[simp] theorem beginCommand_env (p : Nat) (s : State) : (beginCommand p s).env = s.env := rfl

/-! ### RESEED (40_noise_generator.md R115) -/

@[simp] theorem reseedGen_power (src : WhiteSource) (x : Word) (s : State) : (reseedGen src x s).power = s.power := rfl
@[simp] theorem reseedGen_targetVol (src : WhiteSource) (x : Word) (s : State) : (reseedGen src x s).targetVol = s.targetVol := rfl
@[simp] theorem reseedGen_masterVol (src : WhiteSource) (x : Word) (s : State) : (reseedGen src x s).masterVol = s.masterVol := rfl
@[simp] theorem reseedGen_color (src : WhiteSource) (x : Word) (s : State) : (reseedGen src x s).color = s.color := rfl
@[simp] theorem reseedGen_bass (src : WhiteSource) (x : Word) (s : State) : (reseedGen src x s).bass = s.bass := rfl
@[simp] theorem reseedGen_treble (src : WhiteSource) (x : Word) (s : State) : (reseedGen src x s).treble = s.treble := rfl
@[simp] theorem reseedGen_status (src : WhiteSource) (x : Word) (s : State) : (reseedGen src x s).status = s.status := rfl
@[simp] theorem reseedGen_primary (src : WhiteSource) (x : Word) (s : State) : (reseedGen src x s).primary = s.primary := rfl
@[simp] theorem reseedGen_secondary (src : WhiteSource) (x : Word) (s : State) : (reseedGen src x s).secondary = s.secondary := rfl
@[simp] theorem reseedGen_rng (src : WhiteSource) (x : Word) (s : State) : (reseedGen src x s).rng = src.seed x := rfl
@[simp] theorem reseedGen_leftLS (src : WhiteSource) (x : Word) (s : State) : (reseedGen src x s).leftLS = s.leftLS := rfl
@[simp] theorem reseedGen_leftHS (src : WhiteSource) (x : Word) (s : State) : (reseedGen src x s).leftHS = s.leftHS := rfl
@[simp] theorem reseedGen_rightLS (src : WhiteSource) (x : Word) (s : State) : (reseedGen src x s).rightLS = s.rightLS := rfl
@[simp] theorem reseedGen_rightHS (src : WhiteSource) (x : Word) (s : State) : (reseedGen src x s).rightHS = s.rightHS := rfl
@[simp] theorem reseedGen_ports (src : WhiteSource) (x : Word) (s : State) : (reseedGen src x s).ports = s.ports := rfl
@[simp] theorem reseedGen_rr (src : WhiteSource) (x : Word) (s : State) : (reseedGen src x s).rr = s.rr := rfl
@[simp] theorem reseedGen_issuer (src : WhiteSource) (x : Word) (s : State) : (reseedGen src x s).issuer = s.issuer := rfl
@[simp] theorem reseedGen_inReset (src : WhiteSource) (x : Word) (s : State) : (reseedGen src x s).inReset = s.inReset := rfl
@[simp] theorem reseedGen_env (src : WhiteSource) (x : Word) (s : State) : (reseedGen src x s).env = s.env := rfl

/-! ### SET_BASS (42_mixer_commands.md R185) -/

@[simp] theorem setBass_power (cfg : Config) (v : B64) (s : State) : (setBass cfg v s).power = s.power := rfl
@[simp] theorem setBass_targetVol (cfg : Config) (v : B64) (s : State) : (setBass cfg v s).targetVol = s.targetVol := rfl
@[simp] theorem setBass_masterVol (cfg : Config) (v : B64) (s : State) : (setBass cfg v s).masterVol = s.masterVol := rfl
@[simp] theorem setBass_color (cfg : Config) (v : B64) (s : State) : (setBass cfg v s).color = s.color := rfl
@[simp] theorem setBass_bass (cfg : Config) (v : B64) (s : State) : (setBass cfg v s).bass = clampSlider v := rfl
@[simp] theorem setBass_treble (cfg : Config) (v : B64) (s : State) : (setBass cfg v s).treble = s.treble := rfl
@[simp] theorem setBass_status (cfg : Config) (v : B64) (s : State) : (setBass cfg v s).status = s.status := rfl
@[simp] theorem setBass_primary (cfg : Config) (v : B64) (s : State) : (setBass cfg v s).primary = s.primary := rfl
@[simp] theorem setBass_secondary (cfg : Config) (v : B64) (s : State) : (setBass cfg v s).secondary = s.secondary := rfl
@[simp] theorem setBass_rng (cfg : Config) (v : B64) (s : State) : (setBass cfg v s).rng = s.rng := rfl
@[simp] theorem setBass_leftLS (cfg : Config) (v : B64) (s : State) : (setBass cfg v s).leftLS = s.leftLS.updateGain cfg .low (gainOf (clampSlider v)) := rfl
@[simp] theorem setBass_leftHS (cfg : Config) (v : B64) (s : State) : (setBass cfg v s).leftHS = s.leftHS := rfl
@[simp] theorem setBass_rightLS (cfg : Config) (v : B64) (s : State) : (setBass cfg v s).rightLS = s.rightLS.updateGain cfg .low (gainOf (clampSlider v)) := rfl
@[simp] theorem setBass_rightHS (cfg : Config) (v : B64) (s : State) : (setBass cfg v s).rightHS = s.rightHS := rfl
@[simp] theorem setBass_ports (cfg : Config) (v : B64) (s : State) : (setBass cfg v s).ports = s.ports := rfl
@[simp] theorem setBass_rr (cfg : Config) (v : B64) (s : State) : (setBass cfg v s).rr = s.rr := rfl
@[simp] theorem setBass_issuer (cfg : Config) (v : B64) (s : State) : (setBass cfg v s).issuer = s.issuer := rfl
@[simp] theorem setBass_inReset (cfg : Config) (v : B64) (s : State) : (setBass cfg v s).inReset = s.inReset := rfl
@[simp] theorem setBass_env (cfg : Config) (v : B64) (s : State) : (setBass cfg v s).env = s.env := rfl

/-! ### SET_TREBLE (42_mixer_commands.md R186) -/

@[simp] theorem setTreble_power (cfg : Config) (v : B64) (s : State) : (setTreble cfg v s).power = s.power := rfl
@[simp] theorem setTreble_targetVol (cfg : Config) (v : B64) (s : State) : (setTreble cfg v s).targetVol = s.targetVol := rfl
@[simp] theorem setTreble_masterVol (cfg : Config) (v : B64) (s : State) : (setTreble cfg v s).masterVol = s.masterVol := rfl
@[simp] theorem setTreble_color (cfg : Config) (v : B64) (s : State) : (setTreble cfg v s).color = s.color := rfl
@[simp] theorem setTreble_bass (cfg : Config) (v : B64) (s : State) : (setTreble cfg v s).bass = s.bass := rfl
@[simp] theorem setTreble_treble (cfg : Config) (v : B64) (s : State) : (setTreble cfg v s).treble = clampSlider v := rfl
@[simp] theorem setTreble_status (cfg : Config) (v : B64) (s : State) : (setTreble cfg v s).status = s.status := rfl
@[simp] theorem setTreble_primary (cfg : Config) (v : B64) (s : State) : (setTreble cfg v s).primary = s.primary := rfl
@[simp] theorem setTreble_secondary (cfg : Config) (v : B64) (s : State) : (setTreble cfg v s).secondary = s.secondary := rfl
@[simp] theorem setTreble_rng (cfg : Config) (v : B64) (s : State) : (setTreble cfg v s).rng = s.rng := rfl
@[simp] theorem setTreble_leftLS (cfg : Config) (v : B64) (s : State) : (setTreble cfg v s).leftLS = s.leftLS := rfl
@[simp] theorem setTreble_leftHS (cfg : Config) (v : B64) (s : State) : (setTreble cfg v s).leftHS = s.leftHS.updateGain cfg .high (gainOf (clampSlider v)) := rfl
@[simp] theorem setTreble_rightLS (cfg : Config) (v : B64) (s : State) : (setTreble cfg v s).rightLS = s.rightLS := rfl
@[simp] theorem setTreble_rightHS (cfg : Config) (v : B64) (s : State) : (setTreble cfg v s).rightHS = s.rightHS.updateGain cfg .high (gainOf (clampSlider v)) := rfl
@[simp] theorem setTreble_ports (cfg : Config) (v : B64) (s : State) : (setTreble cfg v s).ports = s.ports := rfl
@[simp] theorem setTreble_rr (cfg : Config) (v : B64) (s : State) : (setTreble cfg v s).rr = s.rr := rfl
@[simp] theorem setTreble_issuer (cfg : Config) (v : B64) (s : State) : (setTreble cfg v s).issuer = s.issuer := rfl
@[simp] theorem setTreble_inReset (cfg : Config) (v : B64) (s : State) : (setTreble cfg v s).inReset = s.inReset := rfl
@[simp] theorem setTreble_env (cfg : Config) (v : B64) (s : State) : (setTreble cfg v s).env = s.env := rfl

/-! ### RENDER with the power off (42_mixer_commands.md R189) -/

@[simp] theorem renderOff_power (n : Nat) (s : State) : (renderOff n s).power = s.power := rfl
@[simp] theorem renderOff_targetVol (n : Nat) (s : State) : (renderOff n s).targetVol = s.targetVol := rfl
@[simp] theorem renderOff_masterVol (n : Nat) (s : State) : (renderOff n s).masterVol = smoothN 0 n s.masterVol := rfl
@[simp] theorem renderOff_color (n : Nat) (s : State) : (renderOff n s).color = s.color := rfl
@[simp] theorem renderOff_bass (n : Nat) (s : State) : (renderOff n s).bass = s.bass := rfl
@[simp] theorem renderOff_treble (n : Nat) (s : State) : (renderOff n s).treble = s.treble := rfl
@[simp] theorem renderOff_status (n : Nat) (s : State) : (renderOff n s).status = s.status := rfl
@[simp] theorem renderOff_primary (n : Nat) (s : State) : (renderOff n s).primary = s.primary := rfl
@[simp] theorem renderOff_secondary (n : Nat) (s : State) : (renderOff n s).secondary = s.secondary := rfl
@[simp] theorem renderOff_rng (n : Nat) (s : State) : (renderOff n s).rng = s.rng := rfl
@[simp] theorem renderOff_leftLS (n : Nat) (s : State) : (renderOff n s).leftLS = s.leftLS := rfl
@[simp] theorem renderOff_leftHS (n : Nat) (s : State) : (renderOff n s).leftHS = s.leftHS := rfl
@[simp] theorem renderOff_rightLS (n : Nat) (s : State) : (renderOff n s).rightLS = s.rightLS := rfl
@[simp] theorem renderOff_rightHS (n : Nat) (s : State) : (renderOff n s).rightHS = s.rightHS := rfl
@[simp] theorem renderOff_ports (n : Nat) (s : State) : (renderOff n s).ports = s.ports.modify s.issuer fun p => { p with rspq := p.rspq ++ List.replicate (2 * n) 0 } := rfl
@[simp] theorem renderOff_rr (n : Nat) (s : State) : (renderOff n s).rr = s.rr := rfl
@[simp] theorem renderOff_issuer (n : Nat) (s : State) : (renderOff n s).issuer = s.issuer := rfl
@[simp] theorem renderOff_inReset (n : Nat) (s : State) : (renderOff n s).inReset = s.inReset := rfl
@[simp] theorem renderOff_env (n : Nat) (s : State) : (renderOff n s).env = s.env := rfl

/-! ### RENDER with the power on: what it leaves (42_mixer_commands.md R190) -/

@[simp] theorem renderOn_power (src : WhiteSource) (n : Nat) (s : State) : (renderOn src n s).power = s.power := rfl
@[simp] theorem renderOn_targetVol (src : WhiteSource) (n : Nat) (s : State) : (renderOn src n s).targetVol = s.targetVol := rfl
@[simp] theorem renderOn_masterVol (src : WhiteSource) (n : Nat) (s : State) : (renderOn src n s).masterVol = smoothN s.targetVol n s.masterVol := rfl
@[simp] theorem renderOn_color (src : WhiteSource) (n : Nat) (s : State) : (renderOn src n s).color = s.color := rfl
@[simp] theorem renderOn_bass (src : WhiteSource) (n : Nat) (s : State) : (renderOn src n s).bass = s.bass := rfl
@[simp] theorem renderOn_treble (src : WhiteSource) (n : Nat) (s : State) : (renderOn src n s).treble = s.treble := rfl
@[simp] theorem renderOn_status (src : WhiteSource) (n : Nat) (s : State) : (renderOn src n s).status = s.status := rfl
@[simp] theorem renderOn_rr (src : WhiteSource) (n : Nat) (s : State) : (renderOn src n s).rr = s.rr := rfl
@[simp] theorem renderOn_issuer (src : WhiteSource) (n : Nat) (s : State) : (renderOn src n s).issuer = s.issuer := rfl
@[simp] theorem renderOn_inReset (src : WhiteSource) (n : Nat) (s : State) : (renderOn src n s).inReset = s.inReset := rfl
@[simp] theorem renderOn_env (src : WhiteSource) (n : Nat) (s : State) : (renderOn src n s).env = s.env := rfl

/-! ### A host offers a command word (20_memory.md R51) -/

@[simp] theorem hostSend_power (p : Nat) (w : CmdWord) (s : State) : (hostSend p w s).power = s.power := by unfold hostSend; split <;> rfl
@[simp] theorem hostSend_targetVol (p : Nat) (w : CmdWord) (s : State) : (hostSend p w s).targetVol = s.targetVol := by unfold hostSend; split <;> rfl
@[simp] theorem hostSend_masterVol (p : Nat) (w : CmdWord) (s : State) : (hostSend p w s).masterVol = s.masterVol := by unfold hostSend; split <;> rfl
@[simp] theorem hostSend_color (p : Nat) (w : CmdWord) (s : State) : (hostSend p w s).color = s.color := by unfold hostSend; split <;> rfl
@[simp] theorem hostSend_bass (p : Nat) (w : CmdWord) (s : State) : (hostSend p w s).bass = s.bass := by unfold hostSend; split <;> rfl
@[simp] theorem hostSend_treble (p : Nat) (w : CmdWord) (s : State) : (hostSend p w s).treble = s.treble := by unfold hostSend; split <;> rfl
@[simp] theorem hostSend_status (p : Nat) (w : CmdWord) (s : State) : (hostSend p w s).status = s.status := by unfold hostSend; split <;> rfl
@[simp] theorem hostSend_primary (p : Nat) (w : CmdWord) (s : State) : (hostSend p w s).primary = s.primary := by unfold hostSend; split <;> rfl
@[simp] theorem hostSend_secondary (p : Nat) (w : CmdWord) (s : State) : (hostSend p w s).secondary = s.secondary := by unfold hostSend; split <;> rfl
@[simp] theorem hostSend_rng (p : Nat) (w : CmdWord) (s : State) : (hostSend p w s).rng = s.rng := by unfold hostSend; split <;> rfl
@[simp] theorem hostSend_leftLS (p : Nat) (w : CmdWord) (s : State) : (hostSend p w s).leftLS = s.leftLS := by unfold hostSend; split <;> rfl
@[simp] theorem hostSend_leftHS (p : Nat) (w : CmdWord) (s : State) : (hostSend p w s).leftHS = s.leftHS := by unfold hostSend; split <;> rfl
@[simp] theorem hostSend_rightLS (p : Nat) (w : CmdWord) (s : State) : (hostSend p w s).rightLS = s.rightLS := by unfold hostSend; split <;> rfl
@[simp] theorem hostSend_rightHS (p : Nat) (w : CmdWord) (s : State) : (hostSend p w s).rightHS = s.rightHS := by unfold hostSend; split <;> rfl
@[simp] theorem hostSend_rr (p : Nat) (w : CmdWord) (s : State) : (hostSend p w s).rr = s.rr := by unfold hostSend; split <;> rfl
@[simp] theorem hostSend_issuer (p : Nat) (w : CmdWord) (s : State) : (hostSend p w s).issuer = s.issuer := by unfold hostSend; split <;> rfl
@[simp] theorem hostSend_inReset (p : Nat) (w : CmdWord) (s : State) : (hostSend p w s).inReset = s.inReset := by unfold hostSend; split <;> rfl
@[simp] theorem hostSend_env (p : Nat) (w : CmdWord) (s : State) : (hostSend p w s).env = s.env := by unfold hostSend; split <;> rfl

/-! ### A host offers a byte (20_memory.md R53) -/

@[simp] theorem hostSendByte_power (p : Nat) (b : Byte) (s : State) : (hostSendByte p b s).power = s.power := by unfold hostSendByte; split <;> rfl
@[simp] theorem hostSendByte_targetVol (p : Nat) (b : Byte) (s : State) : (hostSendByte p b s).targetVol = s.targetVol := by unfold hostSendByte; split <;> rfl
@[simp] theorem hostSendByte_masterVol (p : Nat) (b : Byte) (s : State) : (hostSendByte p b s).masterVol = s.masterVol := by unfold hostSendByte; split <;> rfl
@[simp] theorem hostSendByte_color (p : Nat) (b : Byte) (s : State) : (hostSendByte p b s).color = s.color := by unfold hostSendByte; split <;> rfl
@[simp] theorem hostSendByte_bass (p : Nat) (b : Byte) (s : State) : (hostSendByte p b s).bass = s.bass := by unfold hostSendByte; split <;> rfl
@[simp] theorem hostSendByte_treble (p : Nat) (b : Byte) (s : State) : (hostSendByte p b s).treble = s.treble := by unfold hostSendByte; split <;> rfl
@[simp] theorem hostSendByte_status (p : Nat) (b : Byte) (s : State) : (hostSendByte p b s).status = s.status := by unfold hostSendByte; split <;> rfl
@[simp] theorem hostSendByte_primary (p : Nat) (b : Byte) (s : State) : (hostSendByte p b s).primary = s.primary := by unfold hostSendByte; split <;> rfl
@[simp] theorem hostSendByte_secondary (p : Nat) (b : Byte) (s : State) : (hostSendByte p b s).secondary = s.secondary := by unfold hostSendByte; split <;> rfl
@[simp] theorem hostSendByte_rng (p : Nat) (b : Byte) (s : State) : (hostSendByte p b s).rng = s.rng := by unfold hostSendByte; split <;> rfl
@[simp] theorem hostSendByte_leftLS (p : Nat) (b : Byte) (s : State) : (hostSendByte p b s).leftLS = s.leftLS := by unfold hostSendByte; split <;> rfl
@[simp] theorem hostSendByte_leftHS (p : Nat) (b : Byte) (s : State) : (hostSendByte p b s).leftHS = s.leftHS := by unfold hostSendByte; split <;> rfl
@[simp] theorem hostSendByte_rightLS (p : Nat) (b : Byte) (s : State) : (hostSendByte p b s).rightLS = s.rightLS := by unfold hostSendByte; split <;> rfl
@[simp] theorem hostSendByte_rightHS (p : Nat) (b : Byte) (s : State) : (hostSendByte p b s).rightHS = s.rightHS := by unfold hostSendByte; split <;> rfl
@[simp] theorem hostSendByte_rr (p : Nat) (b : Byte) (s : State) : (hostSendByte p b s).rr = s.rr := by unfold hostSendByte; split <;> rfl
@[simp] theorem hostSendByte_issuer (p : Nat) (b : Byte) (s : State) : (hostSendByte p b s).issuer = s.issuer := by unfold hostSendByte; split <;> rfl
@[simp] theorem hostSendByte_inReset (p : Nat) (b : Byte) (s : State) : (hostSendByte p b s).inReset = s.inReset := by unfold hostSendByte; split <;> rfl
@[simp] theorem hostSendByte_env (p : Nat) (b : Byte) (s : State) : (hostSendByte p b s).env = s.env := by unfold hostSendByte; split <;> rfl

/-! ### A host takes a response word (20_memory.md R51) -/

@[simp] theorem hostTake_power (p : Nat) (s : State) : (hostTake p s).power = s.power := by unfold hostTake; split <;> rfl
@[simp] theorem hostTake_targetVol (p : Nat) (s : State) : (hostTake p s).targetVol = s.targetVol := by unfold hostTake; split <;> rfl
@[simp] theorem hostTake_masterVol (p : Nat) (s : State) : (hostTake p s).masterVol = s.masterVol := by unfold hostTake; split <;> rfl
@[simp] theorem hostTake_color (p : Nat) (s : State) : (hostTake p s).color = s.color := by unfold hostTake; split <;> rfl
@[simp] theorem hostTake_bass (p : Nat) (s : State) : (hostTake p s).bass = s.bass := by unfold hostTake; split <;> rfl
@[simp] theorem hostTake_treble (p : Nat) (s : State) : (hostTake p s).treble = s.treble := by unfold hostTake; split <;> rfl
@[simp] theorem hostTake_status (p : Nat) (s : State) : (hostTake p s).status = s.status := by unfold hostTake; split <;> rfl
@[simp] theorem hostTake_primary (p : Nat) (s : State) : (hostTake p s).primary = s.primary := by unfold hostTake; split <;> rfl
@[simp] theorem hostTake_secondary (p : Nat) (s : State) : (hostTake p s).secondary = s.secondary := by unfold hostTake; split <;> rfl
@[simp] theorem hostTake_rng (p : Nat) (s : State) : (hostTake p s).rng = s.rng := by unfold hostTake; split <;> rfl
@[simp] theorem hostTake_leftLS (p : Nat) (s : State) : (hostTake p s).leftLS = s.leftLS := by unfold hostTake; split <;> rfl
@[simp] theorem hostTake_leftHS (p : Nat) (s : State) : (hostTake p s).leftHS = s.leftHS := by unfold hostTake; split <;> rfl
@[simp] theorem hostTake_rightLS (p : Nat) (s : State) : (hostTake p s).rightLS = s.rightLS := by unfold hostTake; split <;> rfl
@[simp] theorem hostTake_rightHS (p : Nat) (s : State) : (hostTake p s).rightHS = s.rightHS := by unfold hostTake; split <;> rfl
@[simp] theorem hostTake_rr (p : Nat) (s : State) : (hostTake p s).rr = s.rr := by unfold hostTake; split <;> rfl
@[simp] theorem hostTake_issuer (p : Nat) (s : State) : (hostTake p s).issuer = s.issuer := by unfold hostTake; split <;> rfl
@[simp] theorem hostTake_inReset (p : Nat) (s : State) : (hostTake p s).inReset = s.inReset := by unfold hostTake; split <;> rfl
@[simp] theorem hostTake_env (p : Nat) (s : State) : (hostTake p s).env = s.env := by unfold hostTake; split <;> rfl

/-! ### Reset released (70_reset_and_hazards.md R270) -/

@[simp] theorem releaseReset_power (s : State) : (releaseReset s).power = s.power := rfl
@[simp] theorem releaseReset_targetVol (s : State) : (releaseReset s).targetVol = s.targetVol := rfl
@[simp] theorem releaseReset_masterVol (s : State) : (releaseReset s).masterVol = s.masterVol := rfl
@[simp] theorem releaseReset_color (s : State) : (releaseReset s).color = s.color := rfl
@[simp] theorem releaseReset_bass (s : State) : (releaseReset s).bass = s.bass := rfl
@[simp] theorem releaseReset_treble (s : State) : (releaseReset s).treble = s.treble := rfl
@[simp] theorem releaseReset_status (s : State) : (releaseReset s).status = s.status := rfl
@[simp] theorem releaseReset_primary (s : State) : (releaseReset s).primary = s.primary := rfl
@[simp] theorem releaseReset_secondary (s : State) : (releaseReset s).secondary = s.secondary := rfl
@[simp] theorem releaseReset_rng (s : State) : (releaseReset s).rng = s.rng := rfl
@[simp] theorem releaseReset_leftLS (s : State) : (releaseReset s).leftLS = s.leftLS := rfl
@[simp] theorem releaseReset_leftHS (s : State) : (releaseReset s).leftHS = s.leftHS := rfl
@[simp] theorem releaseReset_rightLS (s : State) : (releaseReset s).rightLS = s.rightLS := rfl
@[simp] theorem releaseReset_rightHS (s : State) : (releaseReset s).rightHS = s.rightHS := rfl
@[simp] theorem releaseReset_ports (s : State) : (releaseReset s).ports = s.ports := rfl
@[simp] theorem releaseReset_rr (s : State) : (releaseReset s).rr = s.rr := rfl
@[simp] theorem releaseReset_issuer (s : State) : (releaseReset s).issuer = s.issuer := rfl
@[simp] theorem releaseReset_inReset (s : State) : (releaseReset s).inReset = false := rfl
@[simp] theorem releaseReset_env (s : State) : (releaseReset s).env = s.env := rfl

/-! ### Placing a command -/

@[simp] theorem placeCommand_power (w : CmdWord) (s : State) : (placeCommand w s).power = s.power := rfl
@[simp] theorem placeCommand_targetVol (w : CmdWord) (s : State) : (placeCommand w s).targetVol = s.targetVol := rfl
@[simp] theorem placeCommand_masterVol (w : CmdWord) (s : State) : (placeCommand w s).masterVol = s.masterVol := rfl
@[simp] theorem placeCommand_color (w : CmdWord) (s : State) : (placeCommand w s).color = s.color := rfl
@[simp] theorem placeCommand_bass (w : CmdWord) (s : State) : (placeCommand w s).bass = s.bass := rfl
@[simp] theorem placeCommand_treble (w : CmdWord) (s : State) : (placeCommand w s).treble = s.treble := rfl
@[simp] theorem placeCommand_status (w : CmdWord) (s : State) : (placeCommand w s).status = s.status := rfl
@[simp] theorem placeCommand_primary (w : CmdWord) (s : State) : (placeCommand w s).primary = s.primary := rfl
@[simp] theorem placeCommand_secondary (w : CmdWord) (s : State) : (placeCommand w s).secondary = s.secondary := rfl
@[simp] theorem placeCommand_rng (w : CmdWord) (s : State) : (placeCommand w s).rng = s.rng := rfl
@[simp] theorem placeCommand_leftLS (w : CmdWord) (s : State) : (placeCommand w s).leftLS = s.leftLS := rfl
@[simp] theorem placeCommand_leftHS (w : CmdWord) (s : State) : (placeCommand w s).leftHS = s.leftHS := rfl
@[simp] theorem placeCommand_rightLS (w : CmdWord) (s : State) : (placeCommand w s).rightLS = s.rightLS := rfl
@[simp] theorem placeCommand_rightHS (w : CmdWord) (s : State) : (placeCommand w s).rightHS = s.rightHS := rfl
@[simp] theorem placeCommand_ports (w : CmdWord) (s : State) : (placeCommand w s).ports = placeFirst w (s.ports.modify s.issuer Port.relieved) := rfl
@[simp] theorem placeCommand_rr (w : CmdWord) (s : State) : (placeCommand w s).rr = s.rr := rfl
@[simp] theorem placeCommand_issuer (w : CmdWord) (s : State) : (placeCommand w s).issuer = s.issuer := rfl
@[simp] theorem placeCommand_inReset (w : CmdWord) (s : State) : (placeCommand w s).inReset = false := rfl
@[simp] theorem placeCommand_env (w : CmdWord) (s : State) : (placeCommand w s).env = .grant 0 :: s.env := rfl

/-! ### Filter instances (41_biquad_filter.md R156) -/

@[simp] theorem updateGain_coef (cfg : Config) (sh : Shelf) (g : B64) (f : Biquad) :
    (f.updateGain cfg sh g).coef = coefficients cfg sh g := rfl
@[simp] theorem updateGain_delay (cfg : Config) (sh : Shelf) (g : B64) (f : Biquad) :
    (f.updateGain cfg sh g).delay = f.delay := rfl
@[simp] theorem step_coef (x : B64) (f : Biquad) : (f.step x).2.coef = f.coef := rfl

end Sys2Proof.Machine
end

