-- ==== Sys2Proof/Laws/Ops.lean ====
section
/-!
SUPPORT. What the shared operations and one step can do, said once: emitting, arbitration, and the cases of a step.
-/

namespace Sys2Proof.Machine

/-! ### Ports -/

theorem modify_id {α : Type} (l : List α) (i : Nat) (f : α → α) (h : ∀ a, f a = a) : l.modify i f = l := by
  apply List.ext_getElem?
  intro j
  rw [List.getElem?_modify]
  split <;> simp [h]

/-- Emitting no word changes nothing. -/
@[simp] theorem emit_nil (s : State) : emit [] s = s := by
  unfold emit
  rw [modify_id]
  simp

/-- Emitting twice is emitting the words in sequence. -/
theorem emit_emit (xs ys : List Word) (s : State) : emit ys (emit xs s) = emit (xs ++ ys) s := by
  have : ((s.ports.modify s.issuer fun p => { p with rspq := p.rspq ++ xs }).modify s.issuer
      fun p => { p with rspq := p.rspq ++ ys }) = s.ports.modify s.issuer fun p => { p with rspq := p.rspq ++ (xs ++ ys) } := by
    apply List.ext_getElem?
    intro j
    simp only [List.getElem?_modify]
    cases s.ports[j]? <;> by_cases h : s.issuer = j <;> simp [h, List.append_assoc]
  simp only [emit, this]

@[simp] theorem emit_ports_length (ws : List Word) (s : State) : (emit ws s).ports.length = s.ports.length := by simp

@[simp] theorem beginCommand_ports_length (p : Nat) (s : State) :
    (beginCommand p s).ports.length = s.ports.length := by simp

/-! ### Arbitration (60_exceptions.md R250) -/

theorem pending_iff {s : State} {p : Nat} :
    pending s p = true ↔ ∃ port, s.ports[p]? = some port ∧ port.cmdq ≠ [] := by
  unfold pending
  cases s.ports[p]? <;> simp

theorem pending_lt {s : State} {p : Nat} (h : pending s p = true) : p < s.ports.length := by
  obtain ⟨port, h, -⟩ := pending_iff.1 h
  exact (List.getElem?_eq_some_iff.1 h).1

theorem roundRobin_pending {s : State} {p : Nat} (h : roundRobin s = some p) : pending s p = true :=
  List.find?_some h

/-- The port the arbiter chooses has a command pending. -/
theorem arbitrate_pending {s : State} {ch : Option Nat} {p : Nat} (h : arbitrate s ch = some p) :
    pending s p = true := by
  unfold arbitrate at h
  cases ch with
  | none => exact roundRobin_pending h
  | some q =>
    simp only at h
    split at h
    · injection h with h; subst h; assumption
    · exact roundRobin_pending h

/-- The arbiter grants a port that has a command pending. -/
theorem arbitrate_granted {s : State} {p : Nat} (h : pending s p = true) : arbitrate s (some p) = some p := by
  simp [arbitrate, h]

theorem headCommand_pending {s : State} {p : Nat} {w : CmdWord} (h : headCommand s p = some w) :
    pending s p = true := by
  unfold headCommand at h
  rw [pending_iff]
  cases hp : s.ports[p]? with
  | none => rw [hp] at h; simp at h
  | some port =>
    rw [hp] at h
    refine ⟨port, rfl, ?_⟩
    rintro he
    simp [he] at h

theorem nextCommand_granted {s : State} {p : Nat} {w : CmdWord} (h : headCommand s p = some w) :
    nextCommand s (some p) = some (p, w) := by
  simp [nextCommand, arbitrate_granted (headCommand_pending h), h]

theorem nextCommand_spec {s : State} {ch : Option Nat} {p : Nat} {w : CmdWord} (h : nextCommand s ch = some (p, w)) :
    arbitrate s ch = some p ∧ headCommand s p = some w := by
  unfold nextCommand at h
  split at h
  · next q hq =>
    rw [Option.map_eq_some_iff] at h
    obtain ⟨w', h1, h2⟩ := h
    injection h2 with h3 h4
    subst h3 h4
    exact ⟨hq, h1⟩
  · simp at h

/-! ### One command -/

/-- The effect of a legal command (42_mixer_commands.md R181 to R199). -/
def legalEffect (i : Instr) (s : State) : State :=
  match i with
  | .nop => s
  | .setPower x => { s with power := boolOperand x }
  | .setVolume v => { s with targetVol := clamp v 0 (whole 1) }
  | .setColor v => { s with color := clamp v 0 (whole 100) }
  | .setBass v => setBass blockConfig v s
  | .setTreble v => setTreble blockConfig v s
  | .reseed x => reseedGen blockConfig.white x s
  | .render n => renderPath blockConfig.white (countOperand n) s
  | .getPower => emit [(BitVec.ofBool s.power).setWidth 64] s
  | .getVolume => emit [s.targetVol] s
  | .getColor => emit [s.color] s
  | .getBass => emit [s.bass] s
  | .getTreble => emit [s.treble] s
  | .getMasterVol => emit [s.masterVol] s
  | .getStatus => emit [s.status] s

/-- A command answers a next state: the illegal-command outcome when its operand check gives a cause, its effect
otherwise. -/
theorem exec_eq (i : Instr) (s : State) :
    exec i s = .next (match operandCause blockConfig i with
      | some c => raiseIllegal c s
      | none => legalEffect i s) := by
  cases i <;> simp only [exec, operandCause, legalEffect, execNop, execSetPower, execReseed, execGetPower,
    execGetVolume, execGetColor, execGetBass, execGetTreble, execGetMasterVol, execGetStatus]
  · unfold execSetVolume; split <;> simp [*]
  · unfold execSetColor; split <;> simp [*]
  · unfold execSetBass; split <;> simp [*]
  · unfold execSetTreble; split <;> simp [*]
  · unfold execRender render; split <;> simp [*]

theorem exec_cases {i : Instr} {s t : State} (h : exec i s = .next t) :
    (∃ c, operandCause blockConfig i = some c ∧ t = raiseIllegal c s) ∨
      (operandCause blockConfig i = none ∧ t = legalEffect i s) := by
  rw [exec_eq] at h
  injection h with h
  cases hc : operandCause blockConfig i with
  | some c => rw [hc] at h; exact .inl ⟨c, rfl, h.symm⟩
  | none => rw [hc] at h; exact .inr ⟨rfl, h.symm⟩

/-- A command word answers a next state: the outcome of an illegal word, or that of its command. -/
theorem runCommand_cases {w : CmdWord} {s t : State} (h : runCommand w s = .next t) :
    (∃ c, decode w = .error c ∧ t = raiseIllegal c s) ∨ (∃ i, decode w = .ok i ∧ exec i s = .next t) := by
  unfold runCommand at h
  split at h
  · exact .inr ⟨_, by assumption, h⟩
  · injection h with h; exact .inl ⟨_, by assumption, h.symm⟩

/-! ### One step -/

/-- The core's turn: nothing, or one command taken and executed. -/
theorem coreTurn_cases {ch : Option Nat} {s t : State} (h : coreTurn ch s = .next t) :
    t = s ∨ (s.inReset = false ∧ stalled s = false ∧
      ∃ p w, nextCommand s ch = some (p, w) ∧ runCommand w (beginCommand p s) = .next t) := by
  unfold coreTurn at h
  split at h
  · injection h with h; exact .inl h.symm
  · split at h
    · injection h with h; exact .inl h.symm
    · split at h
      · injection h with h; exact .inl h.symm
      · exact .inr ⟨by simpa using ‹¬ s.inReset = true›, by simpa using ‹¬ stalled s = true›, _, _, by assumption, h⟩

/-- Everything one step can do. -/
theorem step_cases {s t : State} (h : step s = .next t) :
    (∃ ch rest, (s.env = [] ∧ rest = [] ∧ ch = none ∨ ∃ p, s.env = .grant p :: rest ∧ ch = some p) ∧
      coreTurn ch { s with env := rest } = .next t) ∨
    (∃ p w rest, s.env = .send p w :: rest ∧ t = hostSend p w { s with env := rest }) ∨
    (∃ p b rest, s.env = .sendByte p b :: rest ∧ t = hostSendByte p b { s with env := rest }) ∨
    (∃ p rest, s.env = .take p :: rest ∧ t = hostTake p { s with env := rest }) ∨
    (∃ rest, s.env = .assertReset :: rest ∧ t = assertReset blockConfig { s with env := rest }) ∨
    (∃ rest, s.env = .releaseReset :: rest ∧ t = releaseReset { s with env := rest }) := by
  unfold step at h
  split at h
  · next he =>
    refine .inl ⟨none, [], .inl ⟨he, rfl, rfl⟩, ?_⟩
    have : { s with env := [] } = s := by rw [← he]
    rw [this]; exact h
  · next p rest he => exact .inl ⟨some p, rest, .inr ⟨p, he, rfl⟩, h⟩
  · next p w rest he => injection h with h; exact .inr (.inl ⟨p, w, rest, he, h.symm⟩)
  · next p b rest he => injection h with h; exact .inr (.inr (.inl ⟨p, b, rest, he, h.symm⟩))
  · next p rest he => injection h with h; exact .inr (.inr (.inr (.inl ⟨p, rest, he, h.symm⟩)))
  · next rest he => injection h with h; exact .inr (.inr (.inr (.inr (.inl ⟨rest, he, h.symm⟩))))
  · next rest he => injection h with h; exact .inr (.inr (.inr (.inr (.inr ⟨rest, he, h.symm⟩))))

end Sys2Proof.Machine
end

