-- ==== Sys2Proof/Laws/PerInstr.lean ====
section
/-!
SUPPORT. Facts about every command, one lemma per constructor.
-/

namespace Sys2Proof.Laws

/-- The word of a command has its reserved field zero, its own opcode and its own operand (30_encoding.md R71, R79). -/
def CanonicalEncoding.Statement (i : Instr) : Prop :=
  reservedField (encode i) = 0 ∧ opcodeField (encode i) = i.opcode ∧ operandField (encode i) = i.operand

theorem CanonicalEncoding.nop : CanonicalEncoding.Statement .nop := by
  simp [CanonicalEncoding.Statement, encode]

theorem CanonicalEncoding.setPower (x : Word) : CanonicalEncoding.Statement (.setPower x) := by
  simp [CanonicalEncoding.Statement, encode]

theorem CanonicalEncoding.setVolume (v : Word) : CanonicalEncoding.Statement (.setVolume v) := by
  simp [CanonicalEncoding.Statement, encode]

theorem CanonicalEncoding.setColor (v : Word) : CanonicalEncoding.Statement (.setColor v) := by
  simp [CanonicalEncoding.Statement, encode]

theorem CanonicalEncoding.setBass (v : Word) : CanonicalEncoding.Statement (.setBass v) := by
  simp [CanonicalEncoding.Statement, encode]

theorem CanonicalEncoding.setTreble (v : Word) : CanonicalEncoding.Statement (.setTreble v) := by
  simp [CanonicalEncoding.Statement, encode]

theorem CanonicalEncoding.reseed (x : Word) : CanonicalEncoding.Statement (.reseed x) := by
  simp [CanonicalEncoding.Statement, encode]

theorem CanonicalEncoding.render (n : Word) : CanonicalEncoding.Statement (.render n) := by
  simp [CanonicalEncoding.Statement, encode]

theorem CanonicalEncoding.getPower : CanonicalEncoding.Statement .getPower := by
  simp [CanonicalEncoding.Statement, encode]

theorem CanonicalEncoding.getVolume : CanonicalEncoding.Statement .getVolume := by
  simp [CanonicalEncoding.Statement, encode]

theorem CanonicalEncoding.getColor : CanonicalEncoding.Statement .getColor := by
  simp [CanonicalEncoding.Statement, encode]

theorem CanonicalEncoding.getBass : CanonicalEncoding.Statement .getBass := by
  simp [CanonicalEncoding.Statement, encode]

theorem CanonicalEncoding.getTreble : CanonicalEncoding.Statement .getTreble := by
  simp [CanonicalEncoding.Statement, encode]

theorem CanonicalEncoding.getMasterVol : CanonicalEncoding.Statement .getMasterVol := by
  simp [CanonicalEncoding.Statement, encode]

theorem CanonicalEncoding.getStatus : CanonicalEncoding.Statement .getStatus := by
  simp [CanonicalEncoding.Statement, encode]

end Sys2Proof.Laws
end

