-- ==== Sys2Proof/Laws/Render.lean ====
section
/-!
SUPPORT. The recursions of a `RENDER`: how long their results are, which draws a pure run takes and what it makes of
them, and that a run of `a + b` samples is a run of `a` followed by a run of `b`.
-/

namespace Sys2Proof.Machine

/-! ### Lengths (20_memory.md R57) -/

@[simp] theorem generatePure_length (src : WhiteSource) (c : Color) (v : B64) (n : Nat) (sl : Slot) (S : Nat) :
    (generatePure src c v n sl S).out.length = n := by
  induction n generalizing sl S with
  | zero => rfl
  | succ n ih => simp [generatePure, ih]

@[simp] theorem generateBlended_length (src : WhiteSource) (s : B64) (n : Nat) (v : B64) (p q : Slot) (S : Nat) :
    (generateBlended src s n v p q S).out.length = n := by
  unfold generateBlended
  split <;> simp [crossfade]

@[simp] theorem process_length (f : Biquad) (xs : List B64) : (process f xs).1.length = xs.length := by
  induction xs generalizing f with
  | nil => rfl
  | cons x xs ih => simp [process, ih]

@[simp] theorem processChannel_length (ls hs : Biquad) (xs : List B64) :
    (processChannel ls hs xs).1.length = xs.length := by simp [processChannel]

theorem outputFrames_length (T m : B64) (ls rs : List B64) (h : ls.length = rs.length) :
    (outputFrames T ls rs m).length = 2 * ls.length := by
  induction ls generalizing rs m with
  | nil => rfl
  | cons l ls ih =>
    cases rs with
    | nil => simp at h
    | cons r rs =>
      simp only [List.length_cons, Nat.add_right_cancel_iff] at h
      simp only [outputFrames, List.length_cons, ih _ _ h]
      omega

/-! ### Runs in sequence (70_reset_and_hazards.md R275) -/

theorem smoothN_succ (T : B64) (n : Nat) (m : B64) : smoothN T (n + 1) m = smoothN T n (smooth T m) := rfl

theorem smoothN_zero (T : B64) (m : B64) : smoothN T 0 m = m := rfl

theorem smoothN_add (T : B64) (a b : Nat) (m : B64) : smoothN T (a + b) m = smoothN T b (smoothN T a m) := by
  induction a generalizing m with
  | zero => rw [Nat.zero_add, smoothN_zero]
  | succ a ih =>
    have e : a + 1 + b = a + b + 1 := by omega
    rw [e, smoothN_succ, smoothN_succ, ih]

theorem generatePure_zero (src : WhiteSource) (c : Color) (v : B64) (sl : Slot) (S : Nat) : generatePure src c v 0 sl S = ⟨[], sl, S⟩ := rfl

theorem generatePure_succ (src : WhiteSource) (c : Color) (v : B64) (n : Nat) (sl : Slot) (S : Nat) :
    generatePure src c v (n + 1) sl S =
      ⟨(colorStep c (src.draw S).1 v sl).1 :: (generatePure src c v n (colorStep c (src.draw S).1 v sl).2 (src.draw S).2).out,
       (generatePure src c v n (colorStep c (src.draw S).1 v sl).2 (src.draw S).2).slot,
       (generatePure src c v n (colorStep c (src.draw S).1 v sl).2 (src.draw S).2).rng⟩ := rfl

theorem generatePure_add (src : WhiteSource) (c : Color) (v : B64) (a b : Nat) (sl : Slot) (S : Nat) :
    generatePure src c v (a + b) sl S =
      ⟨(generatePure src c v a sl S).out ++
        (generatePure src c v b (generatePure src c v a sl S).slot (generatePure src c v a sl S).rng).out,
       (generatePure src c v b (generatePure src c v a sl S).slot (generatePure src c v a sl S).rng).slot,
       (generatePure src c v b (generatePure src c v a sl S).slot (generatePure src c v a sl S).rng).rng⟩ := by
  induction a generalizing sl S with
  | zero => rw [Nat.zero_add, generatePure_zero, List.nil_append]
  | succ a ih =>
    have e : a + 1 + b = a + b + 1 := by omega
    rw [e, generatePure_succ, generatePure_succ, ih, List.cons_append]

/-- All a pure run does: it takes draws 0 to n-1 and steps its colour on them, from the slot it was given (R101, R105). -/
theorem generatePure_spec (src : WhiteSource) (c : Color) (v : B64) (n : Nat) (sl : Slot) (S : Nat) :
    (generatePure src c v n sl S).rng = (fun x => (src.draw x).2)^[n] S ∧
      IsColourRun c v n (fun j => drawnSample src S j) (fun j => (generatePure src c v n sl S).out.getD j 0) sl
        (generatePure src c v n sl S).slot := by
  induction n generalizing sl S with
  | zero => exact ⟨rfl, fun _ => sl, rfl, rfl, fun j hj => absurd hj (Nat.not_lt_zero j)⟩
  | succ n ih =>
    obtain ⟨hrng, slots, hfirst, hlast, hstep⟩ := ih (colorStep c (src.draw S).1 v sl).2 (src.draw S).2
    refine ⟨by simpa [generatePure] using hrng, fun | 0 => sl | j + 1 => slots j, rfl, hlast, fun j hj => ?_⟩
    cases j with
    | zero => exact ⟨by simp [generatePure, drawnSample], by simpa [drawnSample] using hfirst⟩
    | succ j => simpa [generatePure, drawnSample] using hstep j (Nat.lt_of_succ_lt_succ hj)

theorem process_append (f : Biquad) (xs ys : List B64) :
    process f (xs ++ ys) =
      ((process f xs).1 ++ (process (process f xs).2 ys).1, (process (process f xs).2 ys).2) := by
  induction xs generalizing f with
  | nil => rfl
  | cons x xs ih => simp [process, ih]

@[simp] theorem process_coef (f : Biquad) (xs : List B64) : (process f xs).2.coef = f.coef := by
  induction xs generalizing f with
  | nil => rfl
  | cons x xs ih => simp [process, ih, Biquad.step]

theorem outputFrames_append (T m : B64) (ls rs ls' rs' : List B64) (h : ls.length = rs.length) :
    outputFrames T (ls ++ ls') (rs ++ rs') m =
      outputFrames T ls rs m ++ outputFrames T ls' rs' (smoothN T ls.length m) := by
  induction ls generalizing rs m with
  | nil =>
    cases rs with
    | nil => rfl
    | cons r rs => simp at h
  | cons l ls ih =>
    cases rs with
    | nil => simp at h
    | cons r rs =>
      simp only [List.length_cons, Nat.add_right_cancel_iff] at h
      simp [outputFrames, ih _ _ h, smoothN]

end Sys2Proof.Machine
end

