-- ==== Sys2Proof/Laws/Volume.lean ====
section
/-!
SUPPORT. One volume update (42_mixer_commands.md R191): the step it adds is never longer than the distance to the target,
so the new volume lies between the old one and the target.
-/

namespace Sys2Proof.Machine

/-! ### The step of the volume as a function of the exact distance -/

/-- The step that an exact distance of `D` units gives: rounded, times 0.001, rounded; in units. -/
def volumeStep (D : Int) : Int :=
  scaledKey (roundKey (scaledKey (roundKey D 1) * scaledInt (literal 1 1000)) unitsPerOne)

theorem scaledMag_small {m : Nat} (h : m < 2 ^ 53) : scaledMag m = m := by
  unfold scaledMag
  have h1 := Nat.div_add_mod m (2 ^ 52)
  have h2 : m % 2 ^ 52 < 2 ^ 52 := Nat.mod_lt _ (by norm_num)
  by_cases h0 : m / 2 ^ 52 = 0
  · rw [if_pos h0]; omega
  · have : m / 2 ^ 52 = 1 := by omega
    rw [if_neg h0, this]; simp; omega

/-- Lowering the exponent field by one halves a value. -/
theorem scaledMag_half {m : Nat} (h : 2 ^ 53 ≤ m) : 2 * scaledMag (m - 2 ^ 52) = scaledMag m := by
  have e1 : (m - 2 ^ 52) / 2 ^ 52 = m / 2 ^ 52 - 1 := by omega
  have e2 : (m - 2 ^ 52) % 2 ^ 52 = m % 2 ^ 52 := by omega
  have h1 : 2 ≤ m / 2 ^ 52 := by omega
  unfold scaledMag
  rw [e1, e2, if_neg (by omega), if_neg (by omega)]
  obtain ⟨j, hj⟩ := Nat.exists_eq_add_of_le h1
  rw [hj, show 2 + j - 1 - 1 = j by omega, show 2 + j - 1 = j + 1 by omega, pow_succ]
  ring

theorem rate_pos : 0 < scaledInt (literal 1 1000) := by decide +kernel

theorem rate_le_half : 2 * scaledInt (literal 1 1000) ≤ unitsPerOne := by decide +kernel

theorem volumeStep_neg (D : Int) : volumeStep (-D) = -volumeStep D := by
  unfold volumeStep
  rw [roundKey_neg _ Nat.one_pos, scaledKey_neg, neg_mul, roundKey_neg _ unitsPerOne_pos, scaledKey_neg]

theorem roundKey_nonneg {z : Int} {d : Nat} (h : 0 ≤ z) : 0 ≤ roundKey z d := by
  unfold roundKey; rw [if_neg (by omega)]; omega

theorem scaledKey_nonneg {k : Int} (h : 0 ≤ k) : 0 ≤ scaledKey k := by
  unfold scaledKey; rw [if_neg (by omega)]; omega

theorem scaledKey_of_nonneg {k : Int} (h : 0 ≤ k) : scaledKey k = scaledMag k.natAbs := by
  unfold scaledKey; rw [if_neg (by omega)]

theorem roundKey_natAbs_le (z : Int) (d : Nat) : (roundKey z d).natAbs ≤ infMag := by
  rw [roundKey_natAbs]; exact roundMag_le_infMag _ _

/-- A step upward is not negative and never longer than the distance. -/
theorem volumeStep_bounds {D : Int} (h : 0 ≤ D) : 0 ≤ volumeStep D ∧ volumeStep D ≤ D := by
  have hU : (0 : Int) < unitsPerOne := by exact_mod_cast unitsPerOne_pos
  have he := roundKey_nonneg (d := 1) h
  have hd := scaledKey_nonneg he
  have hk := rate_pos
  refine ⟨scaledKey_nonneg (roundKey_nonneg (mul_nonneg hd hk.le)), ?_⟩
  have hkU := rate_le_half
  unfold volumeStep
  by_cases hs : D < 2 ^ 53
  · -- the distance is a binary64 value
    have hD : D = scaledKey D := by
      rw [scaledKey_of_nonneg h, scaledMag_small (by omega)]; omega
    have hinf : D.natAbs ≤ infMag := by unfold infMag; omega
    have hr : roundKey D 1 = D := by
      have := roundKey_scaledKey (k := D) Nat.one_pos hinf
      rwa [← hD, Nat.cast_one, mul_one] at this
    rw [hr]
    conv_rhs => rw [hD]
    rw [scaledKey_le_iff]
    refine roundKey_le_of_le unitsPerOne_pos hinf ?_
    rw [← hD]
    nlinarith
  · -- the distance is long enough for its half to be a binary64 value
    push Not at hs
    set e := roundKey D 1 with hedef
    have hcode : (2 : Int) ^ 53 ≤ e := by
      refine le_roundKey_of_le Nat.one_pos (by decide) ?_
      have : scaledKey (2 ^ 53) = 2 ^ 53 := by decide +kernel
      rw [this]; simpa using hs
    have heinf : e.natAbs ≤ infMag := roundKey_natAbs_le _ _
    have hhalf : 2 * scaledKey (e - 2 ^ 52) = scaledKey e := by
      have hn : (e - 2 ^ 52 : Int).natAbs = e.natAbs - 2 ^ 52 := by omega
      rw [scaledKey_of_nonneg (k := e - 2 ^ 52) (by omega), scaledKey_of_nonneg he, hn]
      have := scaledMag_half (m := e.natAbs) (by omega)
      omega
    have hle : scaledKey (e - 2 ^ 52) ≤ D := by
      by_contra hc
      push Not at hc
      have : roundKey D 1 ≤ e - 2 ^ 52 := by
        refine roundKey_le_of_le Nat.one_pos (by omega) ?_
        simpa using hc.le
      omega
    refine le_trans ?_ hle
    rw [scaledKey_le_iff]
    refine roundKey_le_of_le unitsPerOne_pos (by omega) ?_
    have h0 := scaledKey_nonneg (k := e - 2 ^ 52) (by omega)
    nlinarith

/-! ### One update -/

/-- A volume or a target of the range `[0, 1]` (10_state.md R22, R23). -/
theorem unit_range {x : B64} (h : inRange 0 (whole 1) x = true) :
    isFinite x = true ∧ 0 ≤ orderKey x ∧ orderKey x ≤ orderKey (whole 1) := by
  have h0 : orderKey (0 : B64) = 0 := by decide
  have h1 : orderKey (whole 1) = 0x3FF0000000000000 := by decide +kernel
  rw [inRange_iff, h0] at h
  refine ⟨?_, h.2.2.2.1, h.2.2.2.2⟩
  rw [isFinite_iff]
  unfold infMag
  omega

theorem isFinite_rate : isFinite (literal 1 1000) = true := by decide +kernel

/-- The difference of two values of the range is finite, and so is the step. -/
theorem smooth_spec {T m : B64} (hT : inRange 0 (whole 1) T = true) (hm : inRange 0 (whole 1) m = true) :
    isNaN (smooth T m) = false ∧
      orderKey (smooth T m) = roundKey (scaledInt m + volumeStep (scaledInt T - scaledInt m)) 1 ∧
      (0 < scaledInt m + volumeStep (scaledInt T - scaledInt m) → signBit (smooth T m) = false) ∧
      (scaledInt m + volumeStep (scaledInt T - scaledInt m) = 0 → signBit m = false → signBit (smooth T m) = false) := by
  obtain ⟨fT, T0, T1⟩ := unit_range hT
  obtain ⟨fm, m0, m1⟩ := unit_range hm
  have k1 : orderKey (whole 1) = 0x3FF0000000000000 := by decide +kernel
  have hone : scaledKey (orderKey (whole 1)) = scaledInt (whole 1) := (scaledInt_eq _).symm
  have sT0 : 0 ≤ scaledInt T := by rw [scaledInt_eq]; exact scaledKey_nonneg T0
  have sm0 : 0 ≤ scaledInt m := by rw [scaledInt_eq]; exact scaledKey_nonneg m0
  have sT1 : scaledInt T ≤ scaledInt (whole 1) := by rw [scaledInt_eq T, ← hone, scaledKey_le_iff]; exact T1
  have sm1 : scaledInt m ≤ scaledInt (whole 1) := by rw [scaledInt_eq m, ← hone, scaledKey_le_iff]; exact m1
  have kd := orderKey_fsub fT fm
  have dlo : -orderKey (whole 1) ≤ orderKey (fsub T m) := by
    rw [kd]
    refine le_roundKey_of_le Nat.one_pos (by rw [k1]; decide) ?_
    rw [scaledKey_neg, hone]; push_cast; linarith
  have dhi : orderKey (fsub T m) ≤ orderKey (whole 1) := by
    rw [kd]
    refine roundKey_le_of_le Nat.one_pos (by rw [k1]; decide) ?_
    rw [hone]; push_cast; linarith
  have fd : isFinite (fsub T m) = true := by
    rw [isFinite_iff]; unfold infMag; omega
  have kp := orderKey_fmul fd isFinite_rate
  have hp : scaledInt (fmul (fsub T m) (literal 1 1000)) = volumeStep (scaledInt T - scaledInt m) := by
    rw [scaledInt_eq, kp, scaledInt_eq (fsub T m), kd]; rfl
  have hstep : (volumeStep (scaledInt T - scaledInt m)).natAbs ≤ (scaledInt T - scaledInt m).natAbs := by
    rcases le_total 0 (scaledInt T - scaledInt m) with h | h
    · have := volumeStep_bounds h; omega
    · have := volumeStep_bounds (D := -(scaledInt T - scaledInt m)) (by omega)
      rw [volumeStep_neg] at this; omega
  have fp : isFinite (fmul (fsub T m) (literal 1 1000)) = true := by
    rw [isFinite_iff]
    have hlo : -orderKey (whole 1) ≤ orderKey (fmul (fsub T m) (literal 1 1000)) := by
      rw [← scaledKey_le_iff, scaledKey_neg, hone, ← scaledInt_eq, hp]; omega
    have hhi : orderKey (fmul (fsub T m) (literal 1 1000)) ≤ orderKey (whole 1) := by
      rw [← scaledKey_le_iff, hone, ← scaledInt_eq, hp]; omega
    unfold infMag; omega
  refine ⟨isNaN_fadd fm fp, ?_, ?_, ?_⟩
  · unfold smooth; rw [orderKey_fadd fm fp, hp]
  · intro h
    unfold smooth
    rw [fadd_of_finite fm fp]
    unfold addFinite
    simp only [hp]
    rw [if_neg (by omega), signBit_pack _ (roundMag_lt _ _)]
    simpa using h.le
  · intro h hs
    unfold smooth
    rw [fadd_of_finite fm fp]
    unfold addFinite
    simp only [hp]
    rw [if_pos h, signBit_pack _ (by norm_num), hs, Bool.false_and]

/-- An update moves the volume toward the target and never past it (R191 (a)); a volume that is not `-0.0` never
becomes it (R23). -/
theorem smooth_between {T m : B64} (hT : inRange 0 (whole 1) T = true) (hm : inRange 0 (whole 1) m = true)
    (hs : signBit m = false) :
    inRange 0 (whole 1) (smooth T m) = true ∧ signBit (smooth T m) = false ∧
      (orderKey m ≤ orderKey T → orderKey m ≤ orderKey (smooth T m) ∧ orderKey (smooth T m) ≤ orderKey T) ∧
      (orderKey T ≤ orderKey m → orderKey T ≤ orderKey (smooth T m) ∧ orderKey (smooth T m) ≤ orderKey m) := by
  obtain ⟨fT, T0, T1⟩ := unit_range hT
  obtain ⟨fm, m0, m1⟩ := unit_range hm
  obtain ⟨hn, hk, hpos, hzero⟩ := smooth_spec hT hm
  have cT : (orderKey T).natAbs ≤ infMag := (isFinite_iff.1 fT).le
  have cm : (orderKey m).natAbs ≤ infMag := (isFinite_iff.1 fm).le
  have up : orderKey m ≤ orderKey T → orderKey m ≤ orderKey (smooth T m) ∧ orderKey (smooth T m) ≤ orderKey T := by
    intro h
    have hD : 0 ≤ scaledInt T - scaledInt m := by
      rw [scaledInt_eq, scaledInt_eq]; have := scaledKey_le_iff.2 h; omega
    have := volumeStep_bounds hD
    rw [hk]
    refine ⟨le_roundKey_of_le Nat.one_pos cm ?_, roundKey_le_of_le Nat.one_pos cT ?_⟩
    · rw [← scaledInt_eq]; push_cast; linarith
    · rw [← scaledInt_eq]; push_cast; linarith
  have down : orderKey T ≤ orderKey m → orderKey T ≤ orderKey (smooth T m) ∧ orderKey (smooth T m) ≤ orderKey m := by
    intro h
    have hD : 0 ≤ -(scaledInt T - scaledInt m) := by
      rw [scaledInt_eq, scaledInt_eq]; have := scaledKey_le_iff.2 h; omega
    have := volumeStep_bounds hD
    rw [volumeStep_neg] at this
    rw [hk]
    refine ⟨le_roundKey_of_le Nat.one_pos cT ?_, roundKey_le_of_le Nat.one_pos cm ?_⟩
    · rw [← scaledInt_eq]; push_cast; linarith
    · rw [← scaledInt_eq]; push_cast; linarith
  have h0 : orderKey (0 : B64) = 0 := by decide
  refine ⟨?_, ?_, up, down⟩
  · rw [inRange_iff, h0]
    refine ⟨hn, by decide, by decide +kernel, ?_, ?_⟩ <;>
      rcases le_total (orderKey m) (orderKey T) with h | h
    · have := up h; omega
    · have := down h; omega
    · have := up h; omega
    · have := down h; omega
  · have hnn : 0 ≤ scaledInt m + volumeStep (scaledInt T - scaledInt m) := by
      have sT0 : 0 ≤ scaledInt T := by rw [scaledInt_eq]; exact scaledKey_nonneg T0
      have sm0 : 0 ≤ scaledInt m := by rw [scaledInt_eq]; exact scaledKey_nonneg m0
      rcases le_total 0 (scaledInt T - scaledInt m) with h | h
      · have := volumeStep_bounds h; omega
      · have := volumeStep_bounds (D := -(scaledInt T - scaledInt m)) (by omega)
        rw [volumeStep_neg] at this; omega
    rcases hnn.lt_or_eq with h | h
    · exact hpos h
    · exact hzero h.symm hs

end Sys2Proof.Machine
end

