-- ==== Sys2Proof/Machine/Assembler.lean ====
section
/-!
DEFINITION. The assembler text of a command program (30_encoding.md R79, R80): one command per line,
`MNEMONIC [operand] [; comment]`. It is no part of the block: it says which words a program's text stands for.
-/

namespace Sys2Proof.Machine

/-! ### Numbers -/

/-- The value of a digit, of either case, in a base up to 16. -/
def digitValue (base : Nat) (c : Char) : Option Nat :=
  let v :=
    if '0' ≤ c ∧ c ≤ '9' then c.toNat - '0'.toNat
    else if 'a' ≤ c ∧ c ≤ 'f' then c.toNat - 'a'.toNat + 10
    else if 'A' ≤ c ∧ c ≤ 'F' then c.toNat - 'A'.toNat + 10
    else base
  if v < base then some v else none

/-- The digits at the front of a text, continuing a number of value `v` and `k` digits: value, digits and the rest. -/
def readDigits (base : Nat) : List Char → Nat → Nat → Nat × Nat × List Char
  | [], v, k => (v, k, [])
  | c :: cs, v, k =>
    match digitValue base c with
    | some d => readDigits base cs (v * base + d) (k + 1)
    | none => (v, k, c :: cs)

/-- A text that is one whole number in a base. -/
def readNat (base : Nat) (cs : List Char) : Option Nat :=
  match readDigits base cs 0 0 with
  | (_, 0, _) => none
  | (v, _ + 1, []) => some v
  | (_, _ + 1, _ :: _) => none

/-- A decimal or `0x` hexadecimal integer of at most 64 bits (kind U of R79); no plus sign and no suffix, and a leading zero
is decimal (DESIGN CHOICE, log entry 10). -/
def readU (cs : List Char) : Option Word :=
  let v := match cs with
    | '0' :: 'x' :: ds => readNat 16 ds
    | _ => readNat 10 cs
  match v with
  | some n => if n < 2 ^ 64 then some (BitVec.ofNat 64 n) else none
  | none => none

/-- Kind B of R79; `on` and `off` are read in lower case only (DESIGN CHOICE, log entry 10). -/
def readB (cs : List Char) : Option Word :=
  if cs = ['o', 'n'] then some 1 else if cs = ['o', 'f', 'f'] then some 0 else readU cs

/-- A signed decimal exponent. -/
def readExponent : List Char → Option Int
  | '-' :: cs => (readNat 10 cs).map fun n => -(n : Int)
  | '+' :: cs => (readNat 10 cs).map fun n => (n : Int)
  | cs => (readNat 10 cs).map fun n => (n : Int)

/-- `v * radix ^ e`, rounded to the nearest binary64 value. -/
def scaledLiteral (v radix : Nat) (e : Int) : B64 := literal (v * radix ^ e.toNat) (radix ^ (-e).toNat)

/-- The digits before and after an optional point: value, how many digits in all, how many after the point, the rest.
DESIGN CHOICE (log entry 10): R79 does not say what a floating literal is; the point may be left out (`50`), and so may
the digits on one side of it (`.5`, `5.`), in decimal and in hexadecimal. -/
def readMantissa (base : Nat) (cs : List Char) : Nat × Nat × Nat × List Char :=
  match readDigits base cs 0 0 with
  | (v, k, '.' :: rest) =>
    match readDigits base rest v 0 with
    | (v', j, rest') => (v', k + j, j, rest')
  | (v, k, rest) => (v, k, 0, rest)

/-- A decimal floating literal without its sign: at least one digit, and an optional exponent (log entry 10). -/
def readDecimal (cs : List Char) : Option B64 :=
  match readMantissa 10 cs with
  | (_, 0, _, _) => none
  | (v, _ + 1, j, []) => some (scaledLiteral v 10 (-(j : Int)))
  | (v, _ + 1, j, c :: rest) =>
    if c = 'e' ∨ c = 'E' then (readExponent rest).map fun e => scaledLiteral v 10 (e - j) else none

/-- The part of a C99 hexadecimal floating literal after `0x`; its exponent is mandatory. -/
def readHexFloat (cs : List Char) : Option B64 :=
  match readMantissa 16 cs with
  | (_, 0, _, _) => none
  | (_, _ + 1, _, []) => none
  | (v, _ + 1, j, c :: rest) =>
    if c = 'p' ∨ c = 'P' then (readExponent rest).map fun e => scaledLiteral v 2 (e - 4 * j) else none

/-- A floating literal without its sign. -/
def readMagnitude : List Char → Option B64
  | ['i', 'n', 'f'] => some (pack false infMag)
  | '0' :: 'x' :: cs => readHexFloat cs
  | cs => readDecimal cs

/-- Kind F of R79. DESIGN CHOICE (log entry 10): R79 does not say whether a literal may carry a leading plus sign or a C99
floating suffix (`f`, `F`, `l`, `L`); both are refused. A minus may stand before a decimal or hexadecimal
literal as before `inf`, and `inf`, `nan` and `bits:0x` are read in lower case only. -/
def readF : List Char → Option B64
  | ['n', 'a', 'n'] => some 0x7FF8000000000000#64
  | 'b' :: 'i' :: 't' :: 's' :: ':' :: '0' :: 'x' :: cs =>
    if cs.length = 16 then (readNat 16 cs).map (BitVec.ofNat 64) else none
  | '-' :: cs => (readMagnitude cs).map fneg
  | cs => readMagnitude cs

/-! ### Lines -/

def isBlank (c : Char) : Bool := c == ' ' || c == '\t' || c == '\r'

/-- The text before a comment. -/
def stripComment : List Char → List Char
  | [] => []
  | ';' :: _ => []
  | c :: cs => c :: stripComment cs

/-- The words of a text, between the separators of one kind. -/
def splitWords (isSep : Char → Bool) : List Char → List (List Char)
  | [] => []
  | c :: cs =>
    if isSep c then splitWords isSep cs
    else match cs, splitWords isSep cs with
      | [], _ => [[c]]
      | d :: _, ws => if isSep d then [c] :: ws else
        match ws with
        | w :: ws' => (c :: w) :: ws'
        | [] => [[c]]

/-- The parts of a text between commas, with the blanks around them removed; none if a part is not one word. -/
def splitCommas (cs : List Char) : Option (List (List Char)) :=
  let rec go : List Char → List Char → List (List Char)
    | [], acc => [acc.reverse]
    | ',' :: cs, acc => acc.reverse :: go cs []
    | c :: cs, acc => go cs (c :: acc)
  (go cs []).mapM fun part =>
    match splitWords isBlank part with
    | [w] => some w
    | _ => none

/-- The mnemonic and the operands of a command line: the first word, and what stands between the commas after it. -/
def parseOperands (cs : List Char) : Option (List (List Char)) :=
  if (splitWords isBlank cs).isEmpty then some [] else splitCommas cs

/-- The rest of a text after its first word. -/
def afterWord : List Char → List Char
  | [] => []
  | c :: cs => if isBlank c then c :: cs else afterWord cs

def dropBlanks : List Char → List Char
  | [] => []
  | c :: cs => if isBlank c then dropBlanks cs else c :: cs

/-- The commands a mnemonic stands for with its operands; mnemonics are matched without regard to case (R79, R80). -/
def assembleCommand (mnemonic : List Char) (operands : List (List Char)) : Option (List Instr) :=
  match String.ofList (mnemonic.map Char.toUpper), operands with
  | "NOP", [] => some [.nop]
  | "SET_POWER", [x] => (readB x).map fun b => [.setPower b]
  | "SET_VOLUME", [x] => (readF x).map fun v => [.setVolume v]
  | "SET_COLOR", [x] => (readF x).map fun v => [.setColor v]
  | "SET_BASS", [x] => (readF x).map fun v => [.setBass v]
  | "SET_TREBLE", [x] => (readF x).map fun v => [.setTreble v]
  | "RESEED", [x] => (readU x).map fun n => [.reseed n]
  | "RENDER", [x] => (readU x).map fun n => [.render n]
  | "GET_POWER", [] => some [.getPower]
  | "GET_VOLUME", [] => some [.getVolume]
  | "GET_COLOR", [] => some [.getColor]
  | "GET_BASS", [] => some [.getBass]
  | "GET_TREBLE", [] => some [.getTreble]
  | "GET_MASTER_VOL", [] => some [.getMasterVol]
  | "GET_STATUS", [] => some [.getStatus]
  | "POWER_ON", [] => some (Pseudo.expand .powerOn)
  | "POWER_OFF", [] => some (Pseudo.expand .powerOff)
  | "SILENCE", [] => some (Pseudo.expand .silence)
  | "PRESET", [c, b, t] =>
    match readF c, readF b, readF t with
    | some c, some b, some t => some (Pseudo.expand (.preset c b t))
    | _, _, _ => none
  | _, _ => none

/-- One line: its command words, or none for an assembly error. A line without a command gives no words (log entry
10). -/
def assembleLine (line : List Char) : Option (List CmdWord) :=
  let cs := dropBlanks (stripComment line)
  match splitWords isBlank cs with
  | [] => some []
  | m :: _ =>
    match parseOperands (afterWord cs) with
    | some ops => (assembleCommand m ops).map fun is => is.map encode
    | none => none

/-- A whole program, line by line. -/
def assemble (text : String) : Option (List CmdWord) :=
  let isNewline : Char → Bool := fun c => c == '\n'
  ((splitWords isNewline text.toList).mapM assembleLine).map List.flatten

end Sys2Proof.Machine
end

