-- ==== Sys2Proof/Tests/Slice0.lean ====
section
/-!
SUPPORT. Tests whose expected results stand in the specification (named at each), and a named witness that meets the
hypotheses of each obligation that has any.
-/

namespace Sys2Proof.Tests

open Sys2Proof Sys2Proof.Machine

/- One theorem at a time: checked side by side, the evaluations below take much memory. -/
set_option Elab.async false

/-! ### Helpers -/

/-- The reference configuration of 00_scope.md R6, with the trigonometric values of 95_test_vectors.md 2.6 and the
powers of ten of 12, -12 and 6 dB. -/
def refConfig : Config where
  fs := 0x40E7700000000000#64
  sin64 x := if x = 0x3FA41B2F769CF0E0#64 then 0x3FA419DCD176E0F7#64 else 0x3FD87DE2A6AEA963#64
  cos64 x := if x = 0x3FA41B2F769CF0E0#64 then 0x3FEFF9AF2BFBC297#64 else 0x3FED906BCF328D46#64
  pow10 x :=
    if x = 0x3FD3333333333333#64 then 0x3FFFEC982D5BB8AF#64
    else if x = 0xBFD3333333333333#64 then 0x3FE009B9CF334252#64
    else if x = 0x3FC3333333333333#64 then 0x3FF699C0F7E86E10#64
    else 0x3FF0000000000000#64
  maxBlock := 65536
  resetSeed := 0
  white := splitMix64
  extraPorts := 1

/-- The reference block after reset: two ports, seed 0. -/
def base : State := State.resetWith refConfig

/-- `base` with the queues of its ports as given. -/
def withPorts (p q : Port) : State := { base with ports := [p, q] }

/-- A port whose command queue holds the given words. -/
def queued (ws : List CmdWord) : Port := { Port.empty with cmdq := ws }

/-- A field of the state an outcome gives. -/
def after {α : Type} (f : State → α) : Host.Outcome State Fault Refusal → Option α
  | .next t => some (f t)
  | _ => none

/-- The responses of port 0 in a state. -/
def answers (s : State) : List Word := ((s.ports[0]?).map Port.rspq).getD []

/-- The outputs of a colour for a list of white samples, from zero registers and with volume 1.0. -/
def colourRun (c : Color) : List B64 → Slot → List B64
  | [], _ => []
  | w :: ws, sl => (colorStep c w 0x3FF0000000000000#64 sl).1 :: colourRun c ws (colorStep c w 0x3FF0000000000000#64 sl).2

/-! ### Decoding: words written from 30_encoding.md R71 and R73 (OPERAND, RSV = 0, OP) -/

theorem test_decode_nop : decode 0xFFFFFFFFFFFFFFFF0000000000000000#128 = .ok .nop := by decide
theorem test_decode_setPower : decode 0x80000000000000000000000000000001#128 = .ok (.setPower 0x8000000000000000) := by decide
theorem test_decode_setVolume : decode 0x3FF00000000000000000000000000002#128 = .ok (.setVolume 0x3FF0000000000000) := by decide
theorem test_decode_setColor : decode 0x40290000000000000000000000000003#128 = .ok (.setColor 0x4029000000000000) := by decide
theorem test_decode_setBass : decode 0xC06F4000000000000000000000000004#128 = .ok (.setBass 0xC06F400000000000) := by decide
theorem test_decode_setTreble : decode 0x40590000000000000000000000000005#128 = .ok (.setTreble 0x4059000000000000) := by decide
theorem test_decode_reseed : decode 0x0123456789ABCDEF0000000000000006#128 = .ok (.reseed 0x0123456789ABCDEF) := by decide
theorem test_decode_render : decode 0x0000000000000FA00000000000000007#128 = .ok (.render 4000) := by decide
theorem test_decode_getters :
    [0x10, 0x11, 0x12, 0x13, 0x14, 0x15, 0x16].map (decodeTableWord 64) =
      [some .getPower, some .getVolume, some .getColor, some .getBass, some .getTreble, some .getMasterVol,
        some .getStatus] := by decide

/-- 95_test_vectors.md 2.9: the verdicts, reserved bits before the opcode. -/
theorem test_decode_illegal :
    [0x100#128, 0xFF00000000000010#128, 0x08#128, 0x0F#128, 0x17#128, 0xFF#128].map (fun w => (decode w).toOption) =
        [none, none, none, none, none, none] ∧
      decode 0xFF00000000000010#128 = .error .reservedBits ∧ decode 0x17#128 = .error .unknownOpcode ∧
      decode 0x0F#128 = .error .unknownOpcode := by decide

/-- 20_memory.md R52: the opcode byte of `RENDER 4000` comes first, the operand's low byte ninth. -/
theorem test_byte_order :
    decodeBytes [7, 0, 0, 0, 0, 0, 0, 0, 0xA0, 0x0F, 0, 0, 0, 0, 0, 0] = some (.ok (.render 4000)) ∧
      responseBytes 0x0123456789ABCDEF#64 = [0xEF, 0xCD, 0xAB, 0x89, 0x67, 0x45, 0x23, 0x01] := by decide

/-! ### Assembler text (30_encoding.md R79 to R81) -/

theorem test_assemble :
    assemble "set_bass -250.0 ; low\nRESEED 0x0123456789ABCDEF\nSET_POWER on\nGET_STATUS" =
      some [0xC06F4000000000000000000000000004#128, 0x0123456789ABCDEF0000000000000006#128,
        0x00000000000000010000000000000001#128, 0x16#128] := by decide +kernel

theorem test_assemble_floats :
    ["0x1.8p-1", "nan", "-inf", "bits:0x0000000000000001", "12.5", "5e-324"].map (fun t => readF t.toList) =
        [some 0x3FE8000000000000#64, some 0x7FF8000000000000#64, some 0xFFF0000000000000#64, some 1#64,
          some 0x4029000000000000#64, some 1#64] ∧
      assemble "RENDER 18446744073709551616" = none := by decide +kernel

theorem test_pseudo :
    assemble "PRESET 12.5, 50.0, -100.0\nSILENCE\nPOWER_OFF" =
      some [0x40290000000000000000000000000003#128, 0x40490000000000000000000000000004#128,
        0xC0590000000000000000000000000005#128, 0x02#128, 0x01#128] := by decide +kernel

/-! ### Well-formedness: each operand check refuses an ill-formed term (30_encoding.md R74) -/

theorem test_wf_setVolume_nan : ¬ (Instr.setVolume 0x7FF0000000000001#64).wellFormed := by decide
theorem test_wf_setColor_nan : ¬ (Instr.setColor 0x7FF8000000000000#64).wellFormed := by decide
theorem test_wf_setBass_nan : ¬ (Instr.setBass 0xFFF8000000000000#64).wellFormed := by decide
theorem test_wf_setTreble_nan : ¬ (Instr.setTreble 0xFFFFFFFFFFFFFFFF#64).wellFormed := by decide
theorem test_wf_render_long : ¬ (Instr.render 65537).wellFormedFor refConfig := by decide
theorem test_wf_accepts :
    (Instr.render 65536).wellFormedFor refConfig ∧ (Instr.render 0).wellFormed ∧
      (Instr.setVolume 0x7FF0000000000000#64).wellFormed ∧ (Instr.reseed 0xFFFFFFFFFFFFFFFF).wellFormed := by decide

/-! ### Arithmetic (00_scope.md R9 to R11; literals of 92_eei_decisions.md and 40_noise_generator.md) -/

theorem test_literals :
    [literal 1 1000, literal 1294 10000, literal 102 100, whole 25, whole 48000] =
      [0x3F50624DD2F1A9FC#64, 0x3FC0902DE00D1B71#64, 0x3FF051EB851EB852#64, 0x4039000000000000#64,
        0x40E7700000000000#64] := by decide +kernel

/-- IEEE 754: a subnormal result, a tie to even, the overflow threshold, signed zeros. -/
theorem test_rounding :
    fmul 0x0010000000000000#64 0x3FE0000000000000#64 = 0x0008000000000000#64 ∧
      fadd 0x4340000000000000#64 0x3FF0000000000000#64 = 0x4340000000000000#64 ∧
      fadd 0x7FEFFFFFFFFFFFFF#64 0x7FEFFFFFFFFFFFFF#64 = 0x7FF0000000000000#64 ∧
      fsub 0x3FF0000000000000#64 0x3FF0000000000000#64 = 0 ∧
      fmul 0x8000000000000000#64 0x3FF0000000000000#64 = 0x8000000000000000#64 := by decide +kernel

/-- The square root of 2 and of a perfect square; the quotient 1/3. -/
theorem test_sqrt_and_division :
    fsqrt 0x4000000000000000#64 = 0x3FF6A09E667F3BCD#64 ∧ fsqrt 0x4022000000000000#64 = 0x4008000000000000#64 ∧
      fdiv 0x3FF0000000000000#64 0x4008000000000000#64 = 0x3FD5555555555555#64 := by decide +kernel

/-! ### The noise generator (95_test_vectors.md 2.1 to 2.4) -/

theorem test_draws :
    let d0 := splitMix64.draw 0
    let d1 := splitMix64.draw d0.2
    d0.1 = 0x3FE8882A0E5EC772#64 ∧ d1.1 = 0xBFC18761955E46A0#64 ∧ (splitMix64.draw d1.2).1 = 0xBFEE4EE8B9DFFDB0#64 ∧
      d1.2 = 0x3C6EF372FE94F82A ∧ (splitMix64.draw 1).1 = 0x3FC10A2DEC890258#64 := by decide +kernel

theorem test_white_corners :
    [0x0#64, 0x7FF#64, 0x800#64, 0xFFFFFFFFFFFFFFFF#64].map whiteOf =
      [0xBFF0000000000000#64, 0xBFF0000000000000#64, 0xBFEFFFFFFFFFFFFE#64, 0x3FEFFFFFFFFFFFFE#64] := by decide +kernel

/-- Section 2.2, for the input 1.0, -1.0, 0.5, 0.0. -/
theorem test_colours :
    let input := [0x3FF0000000000000#64, 0xBFF0000000000000#64, 0x3FE0000000000000#64, 0#64]
    colourRun .white input Slot.zero = input ∧
    colourRun .pink input Slot.zero =
      [0x3FEF7B9E060FE47A#64, 0xBFDC79BBB6579DFD#64, 0x3FD266F243372019#64, 0x3FC482C04D403F73#64] ∧
    colourRun .brown input Slot.zero =
      [0x3FB1919191919192#64, 0xBF560C01F7EDE3E4#64, 0x3FA0E4A6D7768400#64, 0x3FA08FDAC932EFD8#64] ∧
    colourRun .blue input Slot.zero =
      [0x3FF0000000000000#64, 0xC000000000000000#64, 0x3FF8000000000000#64, 0xBFE0000000000000#64] ∧
    colourRun .violet input Slot.zero =
      [0x3FF0000000000000#64, 0xC008000000000000#64, 0x400C000000000000#64, 0xC000000000000000#64] := by decide +kernel

/-- Section 2.3 and 40_noise_generator.md R114: the last value of each range selects its pure colour or blend. -/
theorem test_selection_anchors :
    [0x8000000000000000#64, 0x3F9999999999999A#64, 0x4038F9999999999A#64, 0x4039000000000000#64, 0x4039066666666666#64,
      0x4049000000000000#64, 0x4052C00000000000#64, 0x4058FE6666666667#64, 0x4059000000000000#64].map select =
      [.pure .brown, .pure .brown, .pure .pink, .pure .pink, .pure .pink, .pure .white, .pure .blue, .pure .violet,
        .pure .violet] := by decide +kernel

theorem test_selection_blends :
    select 0x3F9999999999999B#64 = .blend .brown .pink 0x3F50624DD2F1A9FD#64 ∧
      select 0x4029000000000000#64 = .blend .brown .pink 0x3FE0000000000000#64 ∧
      select 0x4042C00000000000#64 = .blend .pink .white 0x3FE0000000000000#64 ∧
      select 0x4058FE6666666666#64 = .blend .blue .violet 0x3FEFF7CED9168729#64 := by decide +kernel

/-- Section 2.4, `s = 12.5`, `n = 2`: all lo draws come first. -/
theorem test_blend :
    (generateBlended splitMix64 0x4029000000000000#64 2 0x3FF0000000000000#64 Slot.zero Slot.zero 0).out =
      [0xBFDC2288901D0D8C#64, 0x3FCD54E8E72B234A#64] := by decide +kernel

/-! ### The filters (95_test_vectors.md 2.6, 2.7) -/

theorem test_low_shelf :
    coefficients refConfig .low 0x4028000000000000#64 =
      ⟨0x3FF050E71928DA76#64, 0xBFFF5A57661E9CCE#64, 0x3FEE2B996DDE5DFD#64, 0xBFFF5EF82C67EF7E#64,
        0x3FEEC426139D6D87#64⟩ := by decide +kernel

theorem test_high_shelf :
    coefficients refConfig .high 0xC028000000000000#64 =
      ⟨0x3FD3783A9533EFF7#64, 0xBFD84B45B5799479#64, 0x3FC1FA5571E34ED7#64, 0xBFF9BB1DB4F57839#64,
        0x3FE58B4B3640F1E8#64⟩ := by decide +kernel

theorem test_process_step :
    (process (Biquad.atReset refConfig .low) (List.replicate 5 0x3FF0000000000000#64)).1 =
      [0x3FF0000000000000#64, 0x3FF0000000000000#64, 0x3FEFFFFFFFFFFFFF#64, 0x3FEFFFFFFFFFFFFF#64,
        0x3FF0000000000000#64] := by decide +kernel

/-! ### Commands, one step each -/

/-- R181. -/
theorem test_nop : exec .nop base = .next base := rfl

/-- Section 2.5: only the top bit of the operand is set. -/
theorem test_setPower : after State.power (exec (.setPower 0x8000000000000000) base) = some true := by decide

/-- Section 2.5: `SET_VOLUME 2.0` and `SET_VOLUME -0.0`. -/
theorem test_setVolume :
    after State.targetVol (exec (.setVolume 0x4000000000000000#64) base) = some 0x3FF0000000000000#64 ∧
      after State.targetVol (exec (.setVolume 0x8000000000000000#64) base) = some 0x8000000000000000#64 := by
  decide +kernel

/-- `SET_VOLUME` of a signalling NaN leaves the set-point and records cause 4. -/
theorem test_setVolume_nan :
    after (fun s => (s.targetVol, s.status)) (exec (.setVolume 0x7FF0000000000001#64) base) = some (0, 0x41) := by decide

/-- Section 1, S7 and S8. -/
theorem test_setColor :
    after State.color (exec (.setColor 0xC014000000000000#64) base) = some 0 ∧
      after State.color (exec (.setColor 0x4062C00000000000#64) base) = some 0x4059000000000000#64 := by decide +kernel

/-- Section 2.5: `SET_BASS 50.0` gives 6 dB: the set of 2.6, in both channels, the high shelves untouched. -/
theorem test_setBass :
    let s := setBass refConfig 0x4049000000000000#64 base
    s.bass = 0x4049000000000000#64 ∧ s.leftLS.coef.b0 = 0x3FF027A8DF22E79D#64 ∧ s.rightLS = s.leftLS ∧
      s.leftHS = base.leftHS := by decide +kernel

/-- `SET_BASS` of a NaN. -/
theorem test_setBass_nan :
    after (fun s => (s.bass, s.status)) (exec (.setBass 0xFFF8000000000000#64) base) = some (0, 0x41) := by decide

/-- `SET_TREBLE -inf` gives -100.0 and the -12 dB set. -/
theorem test_setTreble :
    let s := setTreble refConfig 0xFFF0000000000000#64 base
    s.treble = 0xC059000000000000#64 ∧ s.rightHS.coef.a2 = 0x3FE58B4B3640F1E8#64 ∧ s.leftHS = s.rightHS ∧
      s.leftLS = base.leftLS := by decide +kernel

/-- R187, for the reference source: the state is the seed, and program P7's second block repeats the first draw. -/
theorem test_reseed :
    (reseedGen splitMix64 0xFFFFFFFFFFFFFFFF base).rng = 0xFFFFFFFFFFFFFFFF ∧
      (splitMix64.draw (reseedGen splitMix64 0 base).rng).1 = 0x3FE8882A0E5EC772#64 := by decide +kernel

/-- Section 2.8: `RENDER 2` in white from reset, the set-point 0: the signs of the draws reach the words. -/
theorem test_render_on :
    let s := render refConfig 2 { base with power := true, color := 0x4049000000000000#64 }
    answers s = [0, 0, 0x8000000000000000#64, 0x8000000000000000#64] ∧ s.masterVol = 0 := by decide +kernel

/-- Section 2.8: decay with the power off, from 1.0; and section 2.9: `RENDER 65537`. -/
theorem test_render_off :
    let s := render refConfig 1 { base with masterVol := 0x3FF0000000000000#64 }
    s.masterVol = 0x3FEFF7CED916872B#64 ∧ answers s = [0, 0] ∧ (render refConfig 65537 base).status = 0x31 := by
  decide +kernel

/-- Section 2.10: the getters after reset and after a setter. -/
theorem test_getters :
    after answers (exec .getColor base) = some [0x4039000000000000#64] ∧
      after answers (exec .getPower { base with power := true }) = some [1] ∧
      after answers (exec .getVolume { base with targetVol := 5, masterVol := 6 }) = some [5] ∧
      after answers (exec .getMasterVol { base with targetVol := 5, masterVol := 6 }) = some [6] ∧
      after answers (exec .getBass { base with bass := 7, treble := 8 }) = some [7] ∧
      after answers (exec .getTreble { base with bass := 7, treble := 8 }) = some [8] ∧
      after answers (exec .getStatus { base with status := 0x41 }) = some [0x41] := by decide +kernel

/-! ### Steps -/

/-- 95_test_vectors.md 2.9: illegal words through a whole step from reset, and the sticky first cause. -/
theorem test_step_illegal :
    after State.status (step (State.reset.withFetchWord 64 0x100)) = some 0x11 ∧
      after State.status (step (State.reset.withFetchWord 64 0x17)) = some 0x21 ∧
      after State.status (runCommand 0x08 { base with status := 0x41 }) = some 0x41 := by decide

/-- The first step after reset with a row's word placed is that row's command. -/
theorem test_step_from_reset :
    after answers (step (State.reset.withFetchWord 64 0x10)) = some [0] ∧
      after State.power (step (State.reset.withFetchWord 64 0x01)) = some false := by decide

/-- Program P8: after port 0's first command the reference arbiter turns to port 1. -/
theorem test_round_robin :
    let s := withPorts (queued [0x00000000000000010000000000000001#128, 0x3FF00000000000000000000000000002#128])
      (queued [0x00000000000000010000000000000007#128])
    roundRobin s = some 0 ∧ after (fun t => (t.power, t.rr, roundRobin t)) (step s) = some (true, 1, some 1) := by decide

/-- R53: fifteen bytes are no word; the sixteenth makes one. -/
theorem test_partial_word :
    ((commandBytes 0x16).foldl (fun p b => Port.receiveByte b p) Port.empty).cmdq = [0x16] ∧
      (((commandBytes 0x16).take 15).foldl (fun p b => Port.receiveByte b p) Port.empty).cmdq = [] := by decide

/-! ### Witnesses: states and operands that meet the hypotheses of the obligations -/

/-- A port that owes a word more than its response queue of depth 1 takes. -/
def full : Port := { Port.empty with rspq := [1, 2], rspDepth := some 1 }

/-- The word of `SET_POWER 1`. -/
def powerOnWord : CmdWord := 0x00000000000000010000000000000001#128

/-- A block whose port 1 has a command pending and whose arbiter is about to choose. -/
def granting : State := { withPorts Port.empty (queued [powerOnWord, 0x08]) with env := [.grant 1] }

/-- The first and the last line of the table of R81, and the first and the last getter. -/
theorem witness_WorkedEncodings_and_GettersEmitTheirRegister :
    (let table : List (Instr × CmdWord) :=
      [(.nop, 0x00000000000000000000000000000000#128),
        (.setPower 1, 0x00000000000000010000000000000001#128),
        (.setVolume 0x3FF0000000000000#64, 0x3FF00000000000000000000000000002#128),
        (.setVolume 0x7FF8000000000000#64, 0x7FF80000000000000000000000000002#128),
        (.setColor 0x4049000000000000#64, 0x40490000000000000000000000000003#128),
        (.setColor 0x4062C00000000000#64, 0x4062C000000000000000000000000003#128),
        (.setBass 0xC06F400000000000#64, 0xC06F4000000000000000000000000004#128),
        (.setTreble 0x4059000000000000#64, 0x40590000000000000000000000000005#128),
        (.reseed 0x0123456789ABCDEF#64, 0x0123456789ABCDEF0000000000000006#128),
        (.render 4000, 0x0000000000000FA00000000000000007#128),
        (.getStatus, 0x00000000000000000000000000000016#128)]
     (Instr.nop, 0x00#128) ∈ table ∧ (Instr.getStatus, 0x16#128) ∈ table) ∧
    (let getters : List (BitVec 8 × Instr) := [(0x10, .getPower), (0x11, .getVolume), (0x12, .getColor),
        (0x13, .getBass), (0x14, .getTreble), (0x15, .getMasterVol), (0x16, .getStatus)]
     (0x10, Instr.getPower) ∈ getters ∧ (0x16, Instr.getStatus) ∈ getters) := by decide

/-- A port of unbounded depth and one with room for a single word; none, or all but one, of the sixteen bytes. -/
theorem witness_BytesDeliverWholeWords :
    0 < 16 ∧ 15 < 16 ∧ Port.empty.rx = [] ∧ Port.empty.hasRoom = true ∧
      { Port.empty with cmdDepth := some 1 }.rx = [] ∧ { Port.empty with cmdDepth := some 1 }.hasRoom = true ∧
      { queued [1] with cmdDepth := some 1 }.rx = [] ∧ { queued [1] with cmdDepth := some 1 }.hasRoom = false := by decide

/-- The fifteenth and the sixteenth byte of a word, the latter at a port with room and at a full one. -/
theorem witness_HostsSendBytes :
    let partly (k : Nat) (ws : List CmdWord) : Port :=
      { queued ws with rx := (commandBytes powerOnWord).take k, cmdDepth := some 1 }
    let s := { withPorts (partly 14 []) (partly 15 []) with env := [.sendByte 1 0] }
    s.inReset = false ∧ s.ports[0]? = some (partly 14 []) ∧ (partly 14 []).rx.length < 15 ∧
      { s with env := [.sendByte 0 0] }.env = .sendByte 0 0 :: [] ∧
      s.ports[1]? = some (partly 15 []) ∧ s.env = .sendByte 1 0 :: [] ∧ (partly 15 []).rx.length = 15 ∧
      commandBytes powerOnWord = (partly 15 []).rx ++ [0] ∧ (partly 15 []).cmdq.length < 1 ∧
      (withPorts (partly 15 [1]) Port.empty).ports[0]? = some (partly 15 [1]) ∧
      commandBytes powerOnWord = (partly 15 [1]).rx ++ [0] ∧ 1 ≤ (partly 15 [1]).cmdq.length := by decide

theorem witness_StepRunsTheDecodedCommand :
    granting.env = .grant 1 :: [] ∧ granting.inReset = false ∧ stalled granting = false ∧
      granting.ports[1]? = some (queued [powerOnWord, 0x08]) ∧
      (queued [powerOnWord, 0x08]).cmdq = powerOnWord :: [0x08] ∧ decode powerOnWord = .ok (.setPower 1) := by decide

theorem witness_StepRefusesTheIllegalWord :
    let s : State := { withPorts (queued [0x08]) Port.empty with env := [.grant 0] }
    s.env = .grant 0 :: [] ∧ s.inReset = false ∧ stalled s = false ∧ s.ports[0]? = some (queued [0x08]) ∧
      (queued [0x08]).cmdq = 0x08 :: [] ∧ decode 0x08 = .error .unknownOpcode := by decide

/-- The second port from the pointer, and the pointer's own (`k` = 1 and 0). -/
theorem witness_StepFollowsRoundRobin :
    (let s := withPorts Port.empty (queued [powerOnWord])
     s.env = [] ∧ s.inReset = false ∧ stalled s = false ∧ 1 < s.ports.length ∧
      s.ports[(s.rr + 1) % s.ports.length]? = some (queued [powerOnWord]) ∧
      ∀ j, j < 1 → pending s ((s.rr + j) % s.ports.length) = false) ∧
    (let s := withPorts (queued [powerOnWord]) Port.empty
     s.env = [] ∧ stalled s = false ∧ 0 < s.ports.length ∧
      s.ports[(s.rr + 0) % s.ports.length]? = some (queued [powerOnWord])) := by decide

theorem witness_RoundRobinIsFair :
    let s := withPorts (queued [powerOnWord]) (queued [powerOnWord])
    s.rr < s.ports.length ∧ pending s 1 = true ∧ arbitrate s none = some 0 ∧ 0 ≠ 1 := by decide

theorem witness_IdleCoreChangesNothing :
    (∀ p, pending base p = false) ∧ base.env = [] ∧
      (∀ p, pending { base with env := [.grant 0] } p = false) := by
  have h : ∀ p, pending base p = false := fun
    | 0 => rfl
    | 1 => rfl
    | _ + 2 => rfl
  exact ⟨h, rfl, fun p => h p⟩

theorem witness_StalledCoreWaits :
    let s := withPorts full Port.empty
    stalled s = true ∧ s.env = [] ∧ s.ports[s.issuer]? = some full ∧ full.rspDepth = some 1 ∧
      1 < full.rspq.length ∧ stalled { s with env := [.grant 0] } = true := by decide

/-- A port with room for one more word, one at its depth, and one with a response to take. -/
theorem witness_HostsSendAndTake :
    let roomy : Port := { queued [1] with cmdDepth := some 2 }
    let tight : Port := { queued [1] with cmdDepth := some 1 }
    let s := withPorts roomy tight
    s.inReset = false ∧ s.ports[0]? = some roomy ∧ s.ports[1]? = some tight ∧ roomy.cmdq.length < 2 ∧
      1 ≤ tight.cmdq.length ∧ { s with env := [.send 0 powerOnWord] }.env = .send 0 powerOnWord :: [] ∧
      { withPorts full roomy with env := [.take 0] }.env = .take 0 :: [] := by decide

theorem witness_ResetFromAnyState :
    { base with power := true, env := [.assertReset, .releaseReset] }.env = .assertReset :: .releaseReset :: [] := rfl

theorem witness_AssertedResetBlocksThePorts :
    { base with inReset := true }.inReset = true ∧ { base with inReset := true }.env = [] ∧
      EnvEvent.grant 0 ≠ .assertReset ∧ EnvEvent.grant 0 ≠ .releaseReset ∧ EnvEvent.send 0 1 ≠ .releaseReset := by decide

/-- The reserved field at its smallest and at its largest value. -/
theorem witness_NopChangesNothing : (1 : BitVec 56) ≠ 0 ∧ (0xFFFFFFFFFFFFFF : BitVec 56) ≠ 0 := by decide

/-- The four kind-F setters: operands at the edges of what is no NaN, and the smallest NaN of each sign. -/
theorem witness_setters :
    isNaN 0x7FF0000000000000#64 = false ∧ isNaN 0xFFF0000000000000#64 = false ∧ isNaN 0#64 = false ∧
      isNaN 0x7FF0000000000001#64 = true ∧ isNaN 0xFFF0000000000001#64 = true := by decide

/-- A legal command and an illegal one both answer a next state. -/
theorem witness_ResponsesAndOutsideFrame :
    exec .getStatus base = .next (emit [base.status] base) ∧ Instr.getStatus.wellFormed ∧
      exec (.setColor 0x7FF8000000000000#64) base = .next (raiseIllegal .nanOperand base) ∧
      ¬ (Instr.setColor 0x7FF8000000000000#64).wellFormed := ⟨rfl, by decide, rfl, by decide⟩

theorem witness_HiddenStateIsNotReadable :
    (∀ n, Instr.getBass ≠ .render n) ∧ exec .getBass base = .next (emit [base.bass] base) ∧
      exec .getBass { base with rng := 9 } = .next (emit [base.bass] { base with rng := 9 }) :=
  ⟨by simp, rfl, rfl⟩

/-- `ILL` set and clear, a word with each cause of decoding, and an operand that fails its check. -/
theorem witness_IllegalCommandsOnlyRecordTheFirstCause :
    { base with status := 0x41 }.status.getLsbD 0 = true ∧ base.status.getLsbD 0 = false ∧
      decode 0x100 = .error .reservedBits ∧ decode 0xFF = .error .unknownOpcode ∧
      operandCause blockConfig (.setBass 0xFFF8000000000000#64) = some .nanOperand := by decide

theorem witness_FirstCauseIsSticky :
    { base with status := 0x41 }.status.getLsbD 0 = true ∧
      step { base with status := 0x41 } = .next { base with status := 0x41 } ∧
      ∀ rest, { base with status := 0x41 }.env ≠ .assertReset :: rest := ⟨by decide, rfl, fun _ => by simp [base, State.resetWith]⟩

/-- One count beyond `MAX_BLOCK`. -/
theorem witness_RenderRefusesLongBlocks :
    ConfigLegal (legalise refConfig) ∧ (legalise refConfig).maxBlock < (65537 : Word).toNat :=
  ⟨legalise_legal refConfig, by decide⟩

theorem one_le_maxBlock : (1 : Word).toNat ≤ blockConfig.maxBlock := blockConfig_legal.maxBlock

theorem zero_le_maxBlock : (0 : Word).toNat ≤ blockConfig.maxBlock := Nat.zero_le _

theorem witness_RenderOffDecaysAndEmitsSilence :
    base.power = false ∧ (1 : Word).toNat ≤ blockConfig.maxBlock ∧ (0 : Word).toNat ≤ blockConfig.maxBlock :=
  ⟨rfl, one_le_maxBlock, zero_le_maxBlock⟩

theorem witness_RenderOnFollowsThePipeline :
    { base with power := true }.power = true ∧ (1 : Word).toNat ≤ blockConfig.maxBlock ∧
      0 < (1 : Word).toNat := ⟨rfl, one_le_maxBlock, by decide⟩

/-- Power off, and power on with the pure colour that reset selects; one block empty. -/
theorem witness_PureBlocksConcatenate :
    ((1 : Word) + 0).toNat = (1 : Word).toNat + (0 : Word).toNat ∧ ((1 : Word) + 0).toNat ≤ blockConfig.maxBlock ∧
      base.power = false ∧ { base with power := true }.power = true ∧
      ∃ c, select { base with power := true }.color = .pure c :=
  ⟨by decide, one_le_maxBlock, rfl, rfl, .pink, by decide +kernel⟩

theorem witness_LeftAndRightWordsAreEqual :
    ChannelsEqual { base with power := true } ∧ { base with power := true }.power = true ∧
      (1 : Word).toNat ≤ blockConfig.maxBlock := ⟨⟨rfl, rfl⟩, rfl, one_le_maxBlock⟩

theorem isNaN_nanResult (op : FpOp) (a b : B64) : isNaN (nanResult op a b) = true := by
  have h (y : B64) : isNaN (0x7FF8000000000000#64 ||| y) = true := by
    have e : magBits (0x7FF8000000000000#64 ||| y) = 0x7FF8000000000000 ||| y.toNat % 2 ^ 63 := by
      unfold magBits
      rw [BitVec.toNat_or, Nat.or_mod_two_pow]
      rfl
    have := Nat.left_le_or (n := 0x7FF8000000000000) (m := y.toNat % 2 ^ 63)
    simp only [isNaN, e, infMag, decide_eq_true_eq]
    omega
  exact h _

/-- A product at the bound, one beyond it, and infinity times zero. -/
theorem witness_OutputWordsAreClamped :
    isNaN (fmul 0x3FF0000000000000#64 0x3FF0000000000000#64) = false ∧
      isNaN (fmul 0xC010000000000000#64 0x3FF0000000000000#64) = false ∧
      isNaN (fmul 0x7FF0000000000000#64 0) = true :=
  ⟨by decide +kernel, by decide +kernel, by
    unfold fmul
    rw [if_neg (by decide), if_pos (by decide), if_pos (by decide)]
    exact isNaN_nanResult _ _ _⟩

/-- For each register a command of its own answers a next state in which it has changed (`SET_POWER`, `RENDER`). -/
theorem witness_RegistersAreWrittenOnlyByTheirCommands :
    exec (.setPower 1) base = .next { base with power := true } ∧ true ≠ base.power ∧
      (let s : State := { base with rng := blockConfig.white.seed 1 + 1 }
       exec (.reseed 1) s = .next { s with rng := blockConfig.white.seed 1 } ∧ blockConfig.white.seed 1 ≠ s.rng) :=
  ⟨rfl, by decide, rfl, Nat.ne_of_lt (Nat.lt_succ_self _)⟩

/-- The edges of the table, the infinities and both zeros: no value is a NaN. -/
theorem witness_SelectionFollowsTheTable :
    [0#64, 0x8000000000000000#64, 0x3F9999999999999A#64, 0x4038F99999999999#64, 0x4039066666666666#64,
      0x4048FCCCCCCCCCCC#64, 0x4049033333333333#64, 0x4052BE6666666666#64, 0x4052C19999999999#64,
      0x4058FE6666666666#64, 0x4059000000000000#64, 0x7FF0000000000000#64, 0xFFF0000000000000#64].all (fun s => isNaN s == false) = true := by decide

/-- A pure selection and a blended one: the hypotheses of BlocksWriteOnlySelectedRegisters and BlocksTakeTheirDraws. -/
theorem witness_blocks :
    select 0x4039000000000000#64 = .pure .pink ∧
      select 0x4029000000000000#64 = .blend .brown .pink 0x3FE0000000000000#64 := by decide +kernel

/-- White, the blue register and both violet registers at the ends of their ranges. -/
theorem witness_DifferenceColoursStayInRange :
    let sl : Slot := { Slot.zero with blueW := 0x3FF0000000000000#64, violW := 0x3FF0000000000000#64, violB := 0x4000000000000000#64 }
    inRange 0xBFF0000000000000#64 0x3FF0000000000000#64 0xBFF0000000000000#64 = true ∧
      inRange 0xBFF0000000000000#64 0x3FF0000000000000#64 sl.blueW = true ∧
      inRange 0xBFF0000000000000#64 0x3FF0000000000000#64 sl.violW = true ∧
      inRange 0xC000000000000000#64 0x4000000000000000#64 sl.violB = true := by decide

theorem witness_ZeroDecibelNumeratorIsDenominator :
    ConfigLegal blockConfig ∧ isZero 0#64 = true ∧ isZero 0x8000000000000000#64 = true :=
  ⟨blockConfig_legal, by decide, by decide⟩

theorem witness_GainStaysWithinTwelveDecibels :
    inRange 0xC059000000000000#64 0x4059000000000000#64 0x4059000000000000#64 = true ∧
      inRange 0xC059000000000000#64 0x4059000000000000#64 0xC059000000000000#64 = true := by decide

theorem witness_StepKeepsTheVolumeInRange :
    ParametersInRange base ∧ MasterVolInRange base ∧ step base = .next base := ⟨by decide +kernel, by decide +kernel, rfl⟩

theorem reset_coefficients : gainOf 0 = 0 := by decide +kernel

theorem witness_StepKeepsTheInvariant :
    let s : State := { State.reset with ports := [queued [powerOnWord], { full with rspDepth := some 2 }] }
    Invariant s ∧ step s = exec (.setPower 1) (beginCommand 0 s) := by
  refine ⟨⟨by decide +kernel, by decide, ⟨rfl, rfl⟩, ?_, rfl, by decide +kernel, ?_, ?_⟩, ?_⟩
  · simp only [CoefficientsFollowSliders, State.reset, State.resetWith, Biquad.atReset, reset_coefficients, and_self]
  · intro port hp
    simp only [List.mem_cons, List.not_mem_nil, or_false] at hp
    obtain rfl | rfl := hp <;> exact ⟨by decide, fun d h => by cases h⟩
  · intro p port hp hne
    match p, hp with
    | 0, _ => exact absurd rfl hne
    | 1, hp => cases hp; rfl
    | _ + 2, hp => cases hp
  · rfl

/-- The set-point above the volume with the power on, and the volume above 0.0 with it off. -/
theorem witness_RenderNeverOvershoots :
    let on : State := { base with power := true, targetVol := 0x3FF0000000000000#64 }
    let off : State := { base with masterVol := 0x3FF0000000000000#64 }
    ParametersInRange on ∧ MasterVolInRange on ∧ ParametersInRange off ∧ MasterVolInRange off ∧
      (1 : Word).toNat ≤ blockConfig.maxBlock ∧
      exec (.render 1) on = .next (render blockConfig 1 on) ∧ exec (.render 1) off = .next (render blockConfig 1 off) ∧
      fle on.masterVol on.targetVol = true ∧ fle 0 off.masterVol = true :=
  ⟨by decide +kernel, by decide +kernel, by decide +kernel, by decide +kernel, one_le_maxBlock, rfl, rfl, by decide,
    by decide⟩

/-- One and three; a sum and a difference of zero; the largest value, whose sum with itself lies beyond the threshold;
the two zeros, whose root is taken. -/
theorem witness_OperationsRoundToNearestEven :
    let a := 0x3FF0000000000000#64
    let b := 0x4008000000000000#64
    let big := 0x7FEFFFFFFFFFFFFF#64
    isFinite a = true ∧ isFinite b = true ∧ isZero b = false ∧ signBit b = false ∧
      scaledInt a + scaledInt (fneg a) = 0 ∧ scaledInt a - scaledInt a = 0 ∧ isFinite big = true ∧
      (overflowUnits : Int) ≤ scaledInt big + scaledInt big ∧ scaledInt big < overflowUnits ∧
      isZero 0x8000000000000000#64 = true := by decide +kernel

/-- A NaN, both infinities, both zeros and a negative value. -/
theorem witness_OperationsOnInfinitiesAndNaNs :
    isNaN 0x7FF0000000000001#64 = true ∧ isInf 0x7FF0000000000000#64 = true ∧ isInf 0xFFF0000000000000#64 = true ∧
      signBit 0xFFF0000000000000#64 = true ∧ signBit 0x7FF0000000000000#64 = false ∧ isFinite 0#64 = true ∧
      isZero 0x8000000000000000#64 = true ∧ isZero 1#64 = false ∧ signBit 0xBFF0000000000000#64 = true := by decide

theorem witness_ClampStaysInRange :
    isFinite 0x0#64 = true ∧ isFinite 0x3FF0000000000000#64 = true ∧ fle 0x0#64 0x3FF0000000000000#64 = true ∧
      isNaN 0x8000000000000000#64 = false ∧ inRange 0x0#64 0x3FF0000000000000#64 0x8000000000000000#64 = true ∧
      isNaN 0x7FF8000000000000#64 = true := by decide

end Sys2Proof.Tests
end

section
/-!
SUPPORT. The clamp of 00_scope.md R11 and the integer root under `Sqrt` of R9.
-/

namespace Sys2Proof.Machine

/-! ### The clamp (R11) -/

/-- A NaN compares with nothing, so the clamp passes it through. -/
theorem clamp_of_isNaN {v : B64} (h : isNaN v = true) (lo hi : B64) : clamp v lo hi = v := by
  simp [clamp, flt, h]

/-- A value below the lower bound, the negative infinity among them, goes to it. -/
theorem clamp_of_flt_lo {v lo : B64} (h : flt v lo = true) (hi : B64) : clamp v lo hi = lo := if_pos h

/-- A value above the upper bound, the positive infinity among them, goes to it. -/
theorem clamp_of_flt_hi {v lo hi : B64} (h : fle lo hi = true) (hv : flt hi v = true) : clamp v lo hi = hi := by
  rw [fle_iff] at h
  have h' : ¬ flt v lo = true := by rw [flt_iff] at hv ⊢; omega
  rw [clamp, if_neg h', if_pos hv]

theorem isFinite_flt_posInf {x : B64} (h : isFinite x = true) : flt x 0x7FF0000000000000#64 = true := by
  have hk : orderKey 0x7FF0000000000000#64 = infMag := by decide
  rw [flt_iff, hk]
  exact ⟨isNaN_of_isFinite h, by decide, by rw [isFinite_iff] at h; omega⟩

theorem negInf_flt_isFinite {x : B64} (h : isFinite x = true) : flt 0xFFF0000000000000#64 x = true := by
  have hk : orderKey 0xFFF0000000000000#64 = -infMag := by decide
  rw [flt_iff, hk]
  exact ⟨by decide, isNaN_of_isFinite h, by rw [isFinite_iff] at h; omega⟩

/-- Settles O57: the clamp's three branches, and the order of the infinities and finite bounds. -/
theorem clampStaysInRange : Obligations.ClampStaysInRange := by
  intro v lo hi hlo hhi hle
  have hkeys := (fle_iff.1 hle).2.2
  exact ⟨fun hv => clamp_inRange hv (isNaN_of_isFinite hlo) (isNaN_of_isFinite hhi) hkeys, clamp_of_inRange,
    fun hv => clamp_of_isNaN hv lo hi, clamp_of_flt_hi hle (isFinite_flt_posInf hhi),
    clamp_of_flt_lo (negInf_flt_isFinite hlo) hi⟩

/-! ### The integer root (R9) -/

/-- A Newton step from above does not fall below the root: the mean of `x` and `m / x` is at least the geometric one. -/
theorem sqrt_le_newton {m x : Nat} (h : Nat.sqrt m < x) : Nat.sqrt m ≤ (x + m / x) / 2 := by
  obtain ⟨e, rfl⟩ := Nat.exists_eq_add_of_le h.le
  have hprod : (Nat.sqrt m - e) * (Nat.sqrt m + e) ≤ m := by
    rw [Nat.mul_comm, ← Nat.mul_self_sub_mul_self_eq]
    exact (Nat.sub_le _ _).trans (Nat.sqrt_le m)
  have := (Nat.le_div_iff_mul_le (by omega)).2 hprod
  omega

/-- Above the root, the quotient lies on its other side. -/
theorem div_le_sqrt {m x : Nat} (h : Nat.sqrt m < x) : m / x ≤ Nat.sqrt m := by
  have : m < x * (Nat.sqrt m + 1) := (Nat.lt_succ_sqrt m).trans_le (Nat.mul_le_mul_right _ h)
  exact Nat.le_of_lt_succ (Nat.div_lt_of_lt_mul this)

/-- At the root the iteration does not fall. -/
theorem sqrt_le_div_sqrt (m : Nat) : Nat.sqrt m ≤ m / Nat.sqrt m := by
  rcases Nat.eq_zero_or_pos (Nat.sqrt m) with h | h
  · simp [h]
  · exact (Nat.le_div_iff_mul_le h).2 (Nat.sqrt_le m)

/-- A Newton step at least halves the distance from the root, so from an estimate above it, less than `2 ^ fuel` away,
`fuel` steps reach it. -/
theorem isqrtLoop_eq_sqrt (m : Nat) :
    ∀ fuel x : Nat, Nat.sqrt m ≤ x → x < Nat.sqrt m + 2 ^ fuel → isqrtLoop m fuel x = Nat.sqrt m
  | 0, x, hle, hlt => by rw [pow_zero] at hlt; rw [isqrtLoop]; omega
  | fuel + 1, x, hle, hlt => by
    rw [isqrtLoop]
    rcases Nat.eq_or_lt_of_le hle with rfl | habove
    · have := sqrt_le_div_sqrt m
      exact if_neg (by omega)
    · have hquot := div_le_sqrt habove
      rw [if_pos (by omega)]
      exact isqrtLoop_eq_sqrt m fuel _ (sqrt_le_newton habove) (by rw [pow_succ] at hlt; omega)

/-- The power of two that the iteration starts from lies above the root. -/
theorem sqrt_lt_two_pow_half_log2 (m : Nat) : Nat.sqrt m < 2 ^ (m.log2 / 2 + 1) := by
  rw [Nat.sqrt_lt, ← pow_add]
  exact Nat.lt_log2_self.trans_le (Nat.pow_le_pow_right two_pos (by omega))

theorem isqrt_eq_sqrt (m : Nat) : isqrt m = Nat.sqrt m := by
  have hstart : 2 ^ (m.log2 / 2 + 1) < 2 ^ (m.log2 + 2) := Nat.pow_lt_pow_right (by norm_num) (by omega)
  exact isqrtLoop_eq_sqrt m _ _ (sqrt_lt_two_pow_half_log2 m).le (by omega)

/-- Settles O56: the fuel suffices for the iteration to reach Mathlib's integer root. -/
theorem integerRootIsTheFloor : Obligations.IntegerRootIsTheFloor := by
  intro m
  rw [isqrt_eq_sqrt]
  exact ⟨Nat.sqrt_le m, Nat.lt_succ_sqrt m⟩

end Sys2Proof.Machine
end

section
/-!
SUPPORT. The five operations outside the finite operands: the default results of IEEE 754 (00_scope.md R9,
60_exceptions.md R240), one lemma per branch of each operation.
-/

namespace Sys2Proof.Machine

open Tests (isNaN_nanResult)

/-! ### Classes of values -/

theorem isNaN_of_isInf {x : B64} (h : isInf x = true) : isNaN x = false := by
  simp [isInf, isNaN] at *; omega

theorem isZero_of_isInf {x : B64} (h : isInf x = true) : isZero x = false := by
  have : infMag ≠ 0 := by decide
  simp [isInf, isZero] at *; omega

theorem isFinite_of_isZero {x : B64} (h : isZero x = true) : isFinite x = true := by
  have : 0 < infMag := by decide
  simp [isFinite, isZero] at *; omega

/-- An infinity is given by its sign. -/
theorem pack_infMag_of_isInf {x : B64} (h : isInf x = true) : pack (signBit x) infMag = x := by
  have hm : magBits x = infMag := by simpa [isInf] using h
  rw [← hm, pack_signBit_magBits]

theorem fneg_of_isInf {x : B64} (h : isInf x = true) : fneg x = pack (!signBit x) infMag := by
  have hm : magBits x = infMag := by simpa [isInf] using h
  rw [fneg, hm]

/-- The infinity of a sign, as a pattern. -/
theorem pack_infMag (neg : Bool) : pack neg infMag = if neg then 0xFFF0000000000000#64 else 0x7FF0000000000000#64 := by
  cases neg <;> decide

/-- The zero of a sign, as a pattern. -/
theorem pack_zero (neg : Bool) : pack neg 0 = if neg then 0x8000000000000000#64 else 0#64 := by
  cases neg <;> decide

/-! ### Sums and differences -/

section
variable (op : FpOp) {a b : B64} (b' : B64)

theorem isNaN_addAs_of_isNaN (h : isNaN a = true ∨ isNaN b = true) : isNaN (addAs op a b b') = true := by
  rw [addAs, if_pos (by simpa using h), isNaN_nanResult]

theorem addAs_inf_finite (ha : isInf a = true) (hb : isFinite b = true) : addAs op a b b' = a := by
  simp [addAs, ha, isNaN_of_isInf ha, isNaN_of_isFinite hb, isInf_of_isFinite hb]

theorem addAs_finite_inf (ha : isFinite a = true) (hb : isInf b = true) : addAs op a b b' = b' := by
  simp [addAs, hb, isNaN_of_isInf hb, isNaN_of_isFinite ha, isInf_of_isFinite ha]

theorem addAs_inf_inf (ha : isInf a = true) (hb : isInf b = true) :
    addAs op a b b' = if signBit a != signBit b' then nanResult op a b else a := by
  simp [addAs, ha, hb, isNaN_of_isInf]

end

/-! ### Products, quotients and roots -/

section
variable {a b : B64}

theorem isNaN_fmul_of_isNaN (h : isNaN a = true ∨ isNaN b = true) : isNaN (fmul a b) = true := by
  rw [fmul, if_pos (by simpa using h), isNaN_nanResult]

/-- A product with an infinite factor: invalid when the other is a zero. -/
theorem fmul_inf (h : isInf a = true ∨ isInf b = true) (ha : isNaN a = false) (hb : isNaN b = false) :
    fmul a b = if isZero a || isZero b then nanResult .mul a b else pack (signBit a != signBit b) infMag := by
  rw [fmul, if_neg (by simp [ha, hb]), if_pos (by simpa using h)]

theorem isNaN_fdiv_of_isNaN (h : isNaN a = true ∨ isNaN b = true) : isNaN (fdiv a b) = true := by
  rw [fdiv, if_pos (by simpa using h), isNaN_nanResult]

theorem fdiv_inf_finite (ha : isInf a = true) (hb : isFinite b = true) :
    fdiv a b = pack (signBit a != signBit b) infMag := by
  simp [fdiv, ha, isNaN_of_isInf ha, isNaN_of_isFinite hb, isInf_of_isFinite hb]

theorem fdiv_finite_inf (ha : isFinite a = true) (hb : isInf b = true) :
    fdiv a b = pack (signBit a != signBit b) 0 := by
  simp [fdiv, hb, isNaN_of_isInf hb, isNaN_of_isFinite ha, isInf_of_isFinite ha]

theorem isNaN_fdiv_inf_inf (ha : isInf a = true) (hb : isInf b = true) : isNaN (fdiv a b) = true := by
  simp [fdiv, ha, hb, isNaN_of_isInf, isNaN_nanResult]

/-- A finite value divided by a zero: invalid when it is a zero itself. -/
theorem fdiv_finite_zero (ha : isFinite a = true) (hb : isZero b = true) :
    fdiv a b = if isZero a then nanResult .div a b else pack (signBit a != signBit b) infMag := by
  have hb' := isFinite_of_isZero hb
  simp [fdiv, hb, isNaN_of_isFinite, isInf_of_isFinite, ha, hb']

theorem isNaN_fsqrt_of_isNaN (h : isNaN a = true) : isNaN (fsqrt a) = true := by
  rw [fsqrt, if_pos h, isNaN_nanResult]

theorem isNaN_fsqrt_of_negative (hn : isNaN a = false) (h0 : isZero a = false) (hs : signBit a = true) :
    isNaN (fsqrt a) = true := by
  simp [fsqrt, hn, h0, hs, isNaN_nanResult]

theorem fsqrt_posInf (h : isInf a = true) (hs : signBit a = false) : fsqrt a = a := by
  simp [fsqrt, h, hs, isNaN_of_isInf h]

end

/-- Settles O55: the branches of the five operations, one for each class of their operands. -/
theorem operationsOnInfinitiesAndNaNs : Obligations.OperationsOnInfinitiesAndNaNs := by
  intro a b
  simp only [← pack_infMag, ← pack_zero]
  refine ⟨fun h => ⟨isNaN_addAs_of_isNaN _ _ h, isNaN_addAs_of_isNaN _ _ h, isNaN_fmul_of_isNaN h,
      isNaN_fdiv_of_isNaN h⟩,
    fun ha hb => ⟨addAs_inf_finite _ _ ha hb, addAs_inf_finite _ _ ha hb, fdiv_inf_finite ha hb⟩,
    fun ha hb => ⟨addAs_finite_inf _ _ ha hb, (addAs_finite_inf _ _ ha hb).trans (fneg_of_isInf hb),
      fdiv_finite_inf ha hb⟩,
    fun ha hb => ⟨isNaN_fdiv_inf_inf ha hb, ?same, ?opposite⟩,
    fun h ha hb => ⟨?mulZero, ?mulInf⟩, fun ha hb => ⟨?divZeroZero, ?divZero⟩,
    isNaN_fsqrt_of_isNaN, isNaN_fsqrt_of_negative, fsqrt_posInf⟩
  case same =>
    intro hs
    have hs' : signBit a = signBit b := by simpa using hs
    simp [fadd, fsub, addAs_inf_inf _ _ ha hb, signBit_fneg, hs', isNaN_nanResult]
  case opposite =>
    intro hs
    have hs' : signBit a = !signBit b := by simpa [Bool.eq_not] using hs
    simp [fadd, fsub, addAs_inf_inf _ _ ha hb, signBit_fneg, hs', isNaN_nanResult]
  case mulZero => intro h0; rw [fmul_inf h ha hb, if_pos (by simpa using h0), isNaN_nanResult]
  case mulInf => intro ha0 hb0; rw [fmul_inf h ha hb, if_neg (by simp [ha0, hb0])]
  case divZeroZero => intro h0; rw [fdiv_finite_zero ha hb, if_pos h0, isNaN_nanResult]
  case divZero => intro h0; rw [fdiv_finite_zero ha hb, if_neg (by simp [h0])]

end Sys2Proof.Machine
end

section
/-!
SUPPORT. Correct rounding against real arithmetic (00_scope.md R9). Between two neighbouring order keys lies the boundary
half-way between their values; a key rounds a real number when the number lies between the key's two boundaries, and on
one of them only when the key is even. The magnitude that the model computes does so before the overflow to infinity.
-/

namespace Sys2Proof.Machine

/-! ### The boundaries between neighbouring values -/

/-- Twice the boundary between an order key and the next one, in units: the sum of their values. -/
def boundarySum (k : Int) : Int := scaledKey k + scaledKey (k + 1)

/-- The value of order key `k` is the nearest to `x` units, ties to the even key, with no bound on the exponent. -/
structure KeyRounds (k : Int) (x : ℝ) : Prop where
  below : (boundarySum (k - 1) : ℝ) ≤ 2 * x
  above : 2 * x ≤ boundarySum k
  even_of_tie : (boundarySum (k - 1) : ℝ) = 2 * x ∨ 2 * x = boundarySum k → k % 2 = 0

theorem boundarySum_strictMono : StrictMono boundarySum := fun _ _ h =>
  add_lt_add (scaledKey_strictMono h) (scaledKey_strictMono (by omega))

theorem boundarySum_pred (k : Int) : boundarySum (k - 1) = scaledKey (k - 1) + scaledKey k := by
  rw [boundarySum, sub_add_cancel]

theorem boundarySum_neg (k : Int) : boundarySum (-k) = -boundarySum (k - 1) := by
  rw [boundarySum_pred, boundarySum, show -k + 1 = -(k - 1) by ring, scaledKey_neg, scaledKey_neg]
  ring

theorem KeyRounds.neg {k : Int} {x : ℝ} (h : KeyRounds k x) : KeyRounds (-k) (-x) := by
  obtain ⟨hb, ha, ht⟩ := h
  have hsum : (boundarySum (-k) : ℝ) = -boundarySum (k - 1) := by rw [boundarySum_neg, Int.cast_neg]
  have hpred : (boundarySum (-k - 1) : ℝ) = -boundarySum k := by
    rw [show -k - 1 = -(k + 1) by ring, boundarySum_neg, add_sub_cancel_right, Int.cast_neg]
  refine ⟨by linarith, by linarith, fun htie => ?_⟩
  have := ht (htie.symm.imp (fun _ => by linarith) (fun _ => by linarith))
  omega

/-- From the middle of two values up, the greater is at least as near, and as near only at the middle. -/
theorem abs_sub_le_of_middle_le {a b x : ℝ} (hab : a < b) (h : a + b ≤ 2 * x) :
    |b - x| ≤ |a - x| ∧ (|b - x| = |a - x| → a + b = 2 * x) := by
  rw [abs_of_nonpos (a := a - x) (by linarith)]
  rcases abs_cases (b - x) with ⟨he, -⟩ | ⟨he, -⟩ <;> rw [he] <;> constructor <;> intros <;> linarith

/-- The value of a smaller key is no nearer, and as near only when `k` is even: at the lower boundary of `k`. -/
theorem KeyRounds.nearest_of_lt {k j : Int} {x : ℝ} (h : KeyRounds k x) (hj : j < k) :
    |(scaledKey k : ℝ) - x| ≤ |(scaledKey j : ℝ) - x| ∧
      (|(scaledKey k : ℝ) - x| = |(scaledKey j : ℝ) - x| → k % 2 = 0) := by
  have hlt : (scaledKey j : ℝ) < scaledKey k := by exact_mod_cast scaledKey_strictMono hj
  have hpred : (scaledKey j : ℝ) + scaledKey k ≤ boundarySum (k - 1) := by
    rw [boundarySum_pred]
    exact_mod_cast add_le_add_left (scaledKey_le_iff.2 (by omega)) _
  have hb := h.below
  obtain ⟨hle, htie⟩ := abs_sub_le_of_middle_le hlt (hpred.trans hb)
  exact ⟨hle, fun he => h.even_of_tie (.inl (le_antisymm hb (htie he ▸ hpred)))⟩

theorem KeyRounds.nearest_of_ne {k j : Int} {x : ℝ} (h : KeyRounds k x) (hj : j ≠ k) :
    |(scaledKey k : ℝ) - x| ≤ |(scaledKey j : ℝ) - x| ∧
      (|(scaledKey k : ℝ) - x| = |(scaledKey j : ℝ) - x| → k % 2 = 0) := by
  rcases lt_or_gt_of_ne hj with hlt | hgt
  · exact h.nearest_of_lt hlt
  · have hneg (i : Int) : |(scaledKey (-i) : ℝ) - -x| = |(scaledKey i : ℝ) - x| := by
      rw [scaledKey_neg, ← abs_neg]; congr 1; push_cast; ring
    have := h.neg.nearest_of_lt (j := -j) (by omega)
    rw [hneg, hneg] at this
    exact ⟨this.1, fun he => by have := this.2 he; omega⟩

theorem nearest_of_keyRounds {r : B64} {x : ℝ} (h : KeyRounds (orderKey r) x) : Nearest r x := by
  intro c _
  rw [scaledInt_eq, scaledInt_eq]
  by_cases hc : orderKey c = orderKey r
  · rw [hc]
    exact ⟨le_rfl, fun _ hne => absurd rfl hne⟩
  · obtain ⟨hle, heven⟩ := h.nearest_of_ne hc
    refine ⟨hle, fun he _ => ?_⟩
    have := orderKey_natAbs r
    have := heven he
    omega

/-! ### The overflow to infinity -/

/-- The overflow threshold is the boundary below infinity. -/
theorem boundarySum_infMag : boundarySum (infMag - 1) = 2 * overflowUnits := by decide +kernel

/-- Below the overflow threshold the magnitude is finite, and from there on it is not: the threshold is a tie, and the
largest finite magnitude is odd. -/
theorem KeyRounds.lt_infMag_iff {c : Nat} {x : ℝ} (h : KeyRounds c x) : c < infMag ↔ x < overflowUnits := by
  have hsum : (boundarySum (infMag - 1) : ℝ) = 2 * overflowUnits := by exact_mod_cast boundarySum_infMag
  constructor
  · intro hc
    have hmono : (boundarySum c : ℝ) ≤ boundarySum (infMag - 1) :=
      Int.cast_le.2 (boundarySum_strictMono.monotone (by omega))
    have ha := h.above
    refine lt_of_le_of_ne (by linarith) fun hx => ?_
    have heven := h.even_of_tie (.inr (by linarith))
    have hlast : (c : Int) = infMag - 1 :=
      boundarySum_strictMono.injective (Int.cast_injective (α := ℝ) (by linarith))
    have hodd : ((infMag : Int) - 1) % 2 ≠ 0 := by decide
    exact hodd (hlast ▸ heven)
  · intro hx
    by_contra hc
    have hmono : (boundarySum (infMag - 1) : ℝ) ≤ boundarySum (c - 1) :=
      Int.cast_le.2 (boundarySum_strictMono.monotone (by omega))
    linarith [h.below]

theorem overflowUnits_pos : (0 : ℝ) < overflowUnits := by
  unfold overflowUnits; positivity

/-- The saturated magnitude, with the sign of the exact result, is its rounding. -/
theorem roundsTo_pack {c : Nat} {x : ℝ} (neg : Bool) (hx : 0 ≤ x) (h : KeyRounds c x) :
    RoundsTo (pack neg (min c infMag)) (if neg then -x else x) := by
  have hov := overflowUnits_pos
  have habs : |if neg then -x else x| = x := by cases neg <;> simp [abs_of_nonneg hx]
  have hinf (hge : (overflowUnits : ℝ) ≤ x) : min c infMag = infMag :=
    min_eq_right (not_lt.1 (h.lt_infMag_iff.not.2 hge.not_gt))
  refine ⟨fun hlt => ?_, fun hge => ?_, fun hle => ?_⟩
  · have hc := h.lt_infMag_iff.2 (habs ▸ hlt)
    have hbits := hc.trans infMag_lt
    rw [min_eq_left hc.le]
    refine ⟨by simpa [isFinite, magBits_pack neg hbits] using hc, nearest_of_keyRounds ?_⟩
    rw [orderKey_pack neg hbits]
    cases neg
    · exact h
    · exact h.neg
  · cases neg <;> simp only [Bool.false_eq_true, if_false, if_true] at hge
    · rw [hinf hge, pack_infMag]; rfl
    · linarith
  · cases neg <;> simp only [Bool.false_eq_true, if_false, if_true] at hle
    · linarith
    · rw [hinf (by linarith), pack_infMag]; rfl

/-! ### The computed magnitude -/

/-- From a value up to the boundary above it, its key rounds. -/
theorem keyRounds_of_le_boundary {k : Int} {x : ℝ} (hx : (scaledKey k : ℝ) ≤ x) (ha : 2 * x ≤ boundarySum k)
    (ht : 2 * x = boundarySum k → k % 2 = 0) : KeyRounds k x := by
  have hlt : (boundarySum (k - 1) : ℝ) < 2 * scaledKey k := by
    have := scaledKey_strictMono (sub_one_lt k)
    exact_mod_cast (show boundarySum (k - 1) < 2 * scaledKey k by rw [boundarySum_pred]; omega)
  exact ⟨by linarith, ha, fun h => ht (h.resolve_left (by linarith))⟩

/-- From a boundary up to the value above it, that value's key rounds: the mirror image. -/
theorem keyRounds_of_boundary_le {k : Int} {x : ℝ} (hx : x ≤ scaledKey (k + 1)) (hb : (boundarySum k : ℝ) ≤ 2 * x)
    (ht : 2 * x = boundarySum k → (k + 1) % 2 = 0) : KeyRounds (k + 1) x := by
  have hsum : (boundarySum (-(k + 1)) : ℝ) = -boundarySum k := by
    rw [boundarySum_neg, add_sub_cancel_right, Int.cast_neg]
  rw [← neg_neg (k + 1), ← neg_neg x]
  refine (keyRounds_of_le_boundary ?_ (by linarith) fun h => ?_).neg
  · rw [scaledKey_neg, Int.cast_neg]; linarith
  · have := ht (by linarith)
    omega

/-- A number `r / u` of the way from one value to a greater one lies between them, and on the same side of their middle
as `r` of half of `u`. -/
theorem interpolation_side {lo hi r u x : ℝ} (hlt : lo < hi) (hr0 : 0 ≤ r) (hr : r < u)
    (hx : x * u = lo * (u - r) + hi * r) :
    lo ≤ x ∧ x ≤ hi ∧ (2 * r < u → 2 * x < lo + hi) ∧ (2 * r = u → 2 * x = lo + hi) ∧ (u < 2 * r → lo + hi < 2 * x) := by
  have hu : 0 < u := hr0.trans_lt hr
  have hgap : 0 < hi - lo := sub_pos.2 hlt
  have hside : (2 * x - (lo + hi)) * u = (hi - lo) * (2 * r - u) := by linear_combination 2 * hx
  refine ⟨?_, ?_, fun h => ?_, fun h => ?_, fun h => ?_⟩
  · nlinarith [mul_nonneg hgap.le hr0]
  · nlinarith [mul_pos hgap (sub_pos.2 hr)]
  · nlinarith [mul_pos hgap (sub_pos.2 h)]
  · rw [h, sub_self, mul_zero] at hside
    linarith [(mul_eq_zero.1 hside).resolve_right hu.ne']
  · nlinarith [mul_pos hgap (sub_pos.2 h)]

/-- Rounding to nearest, ties to even, of a number that lies `r / u` of the way from a value to the next. -/
theorem keyRounds_roundTie {c r u : Nat} {x : ℝ} (hr : r < u)
    (hx : x * u = scaledMag c * (u - r) + scaledMag (c + 1) * r) : KeyRounds (roundTie c r u) x := by
  have hc : scaledKey c = scaledMag c := scaledKey_of_nonneg (by omega)
  have hc1 : scaledKey (c + 1) = scaledMag (c + 1) := scaledKey_of_nonneg (by omega)
  have hsum : (boundarySum c : ℝ) = scaledMag c + scaledMag (c + 1) := by
    rw [boundarySum, hc, hc1]; push_cast; rfl
  have hgap : (scaledMag c : ℝ) < scaledMag (c + 1) := by exact_mod_cast scaledMag_strictMono (Nat.lt_succ_self c)
  obtain ⟨hlo, hhi, hless, htie, hmore⟩ :=
    interpolation_side hgap (Nat.cast_nonneg r) (by exact_mod_cast hr) hx
  rw [← hsum] at hless htie hmore
  rw [← Int.cast_natCast, ← hc] at hlo
  rw [← Int.cast_natCast, ← hc1] at hhi
  unfold roundTie
  rcases lt_trichotomy (2 * r) u with h | h | h
  · have hlt := hless (by exact_mod_cast h)
    rw [if_pos h]
    exact keyRounds_of_le_boundary hlo hlt.le fun he => absurd he hlt.ne
  · have heq := htie (by exact_mod_cast h)
    rw [if_neg (by omega), if_neg (by omega)]
    rcases Nat.mod_two_eq_zero_or_one c with he | ho
    · rw [he]
      exact keyRounds_of_le_boundary hlo heq.le fun _ => by omega
    · rw [ho]
      exact keyRounds_of_boundary_le hhi heq.ge fun _ => by omega
  · have hgt := hmore (by exact_mod_cast h)
    rw [if_neg (by omega), if_pos h]
    exact keyRounds_of_boundary_le hhi hgt.le fun he => absurd he hgt.ne'

/-- The magnitude bits that hold a significand `t` and `k` dropped low bits stand for `t * 2 ^ k` units. -/
theorem scaledMag_code {k t : Nat} (ht : t ≤ 2 ^ 53) (hk : k = 0 ∨ 2 ^ 52 ≤ t) :
    scaledMag (k * 2 ^ 52 + t) = t * 2 ^ k := by
  unfold scaledMag
  rcases Nat.lt_or_ge t (2 ^ 52) with h1 | h1
  · obtain rfl : k = 0 := by omega
    rw [if_pos (by omega)]
    omega
  rcases Nat.lt_or_ge t (2 ^ 53) with h2 | h2
  · have hdiv : (k * 2 ^ 52 + t) / 2 ^ 52 = k + 1 := by omega
    have hmod : 2 ^ 52 + (k * 2 ^ 52 + t) % 2 ^ 52 = t := by omega
    rw [hdiv, hmod, if_neg (by omega), Nat.add_sub_cancel]
  · obtain rfl : t = 2 ^ 53 := by omega
    have hdiv : (k * 2 ^ 52 + 2 ^ 53) / 2 ^ 52 = k + 2 := by omega
    have hmod : (k * 2 ^ 52 + 2 ^ 53) % 2 ^ 52 = 0 := by omega
    rw [hdiv, hmod, if_neg (by omega), Nat.add_sub_assoc (by norm_num)]
    ring

theorem roundTie_add {a : Nat} (ha : a % 2 = 0) (m r u : Nat) : a + roundTie m r u = roundTie (a + m) r u := by
  unfold roundTie; split_ifs <;> omega

/-- The computed magnitude rounds the exact quotient: its significand is the quotient without the low bits that do not
fit, and `roundTie` weighs those against half a unit. -/
theorem keyRounds_roundCode (n : Nat) {d : Nat} (hd : 0 < d) : KeyRounds (roundCode n d) ((n : ℝ) / d) := by
  set k := excess n d with hk
  set u := d * 2 ^ k with hu
  have hu0 : 0 < u := by positivity
  have hquot : n / u = n / d / 2 ^ k := by rw [hu, Nat.div_div_eq_div_mul]
  have hlt : n / u < 2 ^ 53 := by
    rw [hquot, Nat.div_lt_iff_lt_mul (by positivity), ← pow_add, Nat.add_comm 53]
    exact quotient_lt n d
  have hge : k = 0 ∨ 2 ^ 52 ≤ n / u := by
    refine (Nat.eq_zero_or_pos k).imp_right fun hpos => ?_
    rw [hquot, Nat.le_div_iff_mul_le (by positivity), ← pow_add, Nat.add_comm 52]
    exact le_quotient hpos
  have hlo := scaledMag_code hlt.le hge
  have hhi := scaledMag_code (t := n / u + 1) hlt (hge.imp_right (by omega))
  have hn : (n : ℝ) = u * (n / u : Nat) + (n % u : Nat) := by exact_mod_cast (Nat.div_add_mod n u).symm
  rw [roundCode, ← hk, ← hu, roundTie_add (by omega)]
  refine keyRounds_roundTie (Nat.mod_lt n hu0) ?_
  rw [Nat.add_assoc, hlo, hhi]
  generalize n / u = q at *
  generalize n % u = r at *
  have hd' : (d : ℝ) ≠ 0 := by positivity
  rw [hn, hu]
  field_simp
  push_cast
  ring

end Sys2Proof.Machine
end

section
/-!
SUPPORT. The five operations on finite operands are the exact results of real arithmetic rounded once (00_scope.md R9).
-/

namespace Sys2Proof.Machine

/-! ### Signed results -/

theorem roundsTo_pack_roundMag (neg : Bool) (n : Nat) {d : Nat} (hd : 0 < d) :
    RoundsTo (pack neg (roundMag n d)) (if neg then -((n : ℝ) / d) else (n : ℝ) / d) :=
  roundsTo_pack neg (by positivity) (keyRounds_roundCode n hd)

/-- Either zero is the rounding of 0. -/
theorem roundsTo_pack_zero (neg : Bool) : RoundsTo (pack neg 0) 0 := by
  have h := roundsTo_pack_roundMag neg 0 one_pos
  rw [roundMag_zero one_pos] at h
  simpa using h

theorem cast_scaledInt (x : B64) : (scaledInt x : ℝ) = if signBit x then -(scaled x : ℝ) else scaled x := by
  unfold scaledInt; split_ifs <;> simp

theorem cast_unitsPerOne : (unitsPerOne : ℝ) = 2 ^ 1074 := by
  rw [unitsPerOne, Nat.cast_pow, Nat.cast_ofNat]

/-! ### Sums and differences -/

theorem roundsTo_addFinite (a b : B64) : RoundsTo (addFinite a b) ((scaledInt a : ℝ) + scaledInt b) := by
  rw [← Int.cast_add]
  unfold addFinite
  generalize scaledInt a + scaledInt b = z
  by_cases hz : z = 0
  · rw [if_pos hz, hz, Int.cast_zero]
    exact roundsTo_pack_zero _
  · have h := roundsTo_pack_roundMag (decide (z < 0)) z.natAbs one_pos
    have habs : (z.natAbs : ℝ) = |(z : ℝ)| := by rw [Nat.cast_natAbs, Int.cast_abs]
    have hval : (if decide (z < 0) = true then -((z.natAbs : ℝ) / (1 : Nat)) else (z.natAbs : ℝ) / (1 : Nat)) = z := by
      rw [Nat.cast_one, div_one, habs]
      by_cases hneg : z < 0
      · rw [if_pos (by simpa using hneg), abs_of_neg (by exact_mod_cast hneg), neg_neg]
      · rw [if_neg (by simpa using hneg), abs_of_nonneg (by exact_mod_cast not_lt.1 hneg)]
    rw [if_neg hz]
    exact hval ▸ h

theorem signBit_addFinite_of_sum_zero {a b : B64} (h : scaledInt a + scaledInt b = 0) :
    signBit (addFinite a b) = (signBit a && signBit b) := by
  rw [addFinite, if_pos h, signBit_pack _ (by norm_num)]

/-! ### Products and quotients -/

section
variable {a b : B64} (ha : isFinite a = true) (hb : isFinite b = true)
include ha hb

theorem roundsTo_fmul : RoundsTo (fmul a b) ((scaledInt a : ℝ) * scaledInt b / 2 ^ 1074) := by
  have h := roundsTo_pack_roundMag (signBit a != signBit b) (scaled a * scaled b) unitsPerOne_pos
  rw [fmul_of_finite ha hb, cast_scaledInt, cast_scaledInt, ← cast_unitsPerOne]
  generalize unitsPerOne = units at h ⊢
  convert h using 1
  cases signBit a <;> cases signBit b <;> simp [neg_div]

theorem roundsTo_fdiv (h0 : isZero b = false) : RoundsTo (fdiv a b) ((scaledInt a : ℝ) * 2 ^ 1074 / scaledInt b) := by
  have h := roundsTo_pack_roundMag (signBit a != signBit b) (scaled a * unitsPerOne) (scaled_pos h0)
  rw [fdiv_of_finite ha hb h0, cast_scaledInt, cast_scaledInt, ← cast_unitsPerOne]
  generalize unitsPerOne = units at h ⊢
  convert h using 1
  cases signBit a <;> cases signBit b <;> simp [neg_div, div_neg]

theorem signBit_fmul : signBit (fmul a b) = (signBit a != signBit b) := by
  rw [fmul_of_finite ha hb, signBit_pack _ (roundMag_lt _ _)]

theorem signBit_fdiv (h0 : isZero b = false) : signBit (fdiv a b) = (signBit a != signBit b) := by
  rw [fdiv_of_finite ha hb h0, signBit_pack _ (roundMag_lt _ _)]

end

/-! ### Roots -/

/-- Values with a unit of 2 or more are even. -/
theorem even_scaledMag {m : Nat} (h : 2 ^ 53 ≤ m) : 2 ∣ scaledMag m :=
  ⟨_, (scaledMag_half h).symm⟩

/-- Boundaries between such values are whole numbers. -/
theorem even_boundarySum {k : Int} (h : 2 ^ 53 ≤ k) : 2 ∣ boundarySum k := by
  have heven {j : Int} (hj : 2 ^ 53 ≤ j) : 2 ∣ scaledKey j := by
    rw [scaledKey_of_nonneg (by omega)]
    exact_mod_cast even_scaledMag (by omega)
  exact dvd_add (heven h) (heven (by omega))

/-- A key whose boundaries are whole numbers rounds either all or none of the numbers strictly between two whole ones. -/
theorem KeyRounds.of_same_unit {k i : Int} {x y : ℝ} (h : KeyRounds k y) (hb : 2 ∣ boundarySum (k - 1))
    (ha : 2 ∣ boundarySum k) (hy : i < y ∧ y < i + 1) (hx : i < x ∧ x < i + 1) : KeyRounds k x := by
  obtain ⟨⟨B, hB⟩, ⟨A, hA⟩⟩ := And.intro hb ha
  have hB' : (boundarySum (k - 1) : ℝ) = 2 * B := by exact_mod_cast hB
  have hA' : (boundarySum k : ℝ) = 2 * A := by exact_mod_cast hA
  have hBi : B < i + 1 := by
    have : (B : ℝ) < i + 1 := by linarith [h.below]
    exact_mod_cast this
  have hiA : i < A := by
    have : (i : ℝ) < A := by linarith [h.above]
    exact_mod_cast this
  have hBi' : (B : ℝ) ≤ i := by exact_mod_cast Int.lt_add_one_iff.1 hBi
  have hiA' : (i : ℝ) + 1 ≤ A := by exact_mod_cast hiA
  refine ⟨by linarith, by linarith, ?_⟩
  rintro (ht | ht) <;> linarith

/-- A root that is no whole number lies strictly between the integer root and the next number. -/
theorem sqrt_between {m : Nat} (h : Nat.sqrt m * Nat.sqrt m ≠ m) :
    (Nat.sqrt m : ℝ) < √m ∧ √m < Nat.sqrt m + 1 := by
  refine ⟨lt_of_le_of_ne Real.nat_sqrt_le_real_sqrt fun he => h ?_, Real.real_sqrt_lt_nat_sqrt_succ⟩
  have hsq := Real.mul_self_sqrt (Nat.cast_nonneg (α := ℝ) m)
  rw [← he] at hsq
  exact_mod_cast hsq

/-- The number that `Sqrt` rounds in place of the root of `m`, in half units: the integer root, and half a unit more
where that is not the root itself. -/
def rootHalves (m : Nat) : Nat := 2 * isqrt m + if isqrt m * isqrt m = m then 0 else 1

/-- Rounding the stand-in rounds the root of a large number: the stand-in is the root, or lies strictly between the same
two whole numbers, and all boundaries near it are whole numbers. -/
theorem keyRounds_rootHalves {m : Nat} (hm : 2 ^ 54 * 2 ^ 54 ≤ m) : KeyRounds (roundCode (rootHalves m) 2) √m := by
  have h := keyRounds_roundCode (rootHalves m) two_pos
  have hroot : 2 ^ 54 ≤ Nat.sqrt m := Nat.le_sqrt.2 hm
  rw [rootHalves, isqrt_eq_sqrt] at h ⊢
  by_cases hsq : Nat.sqrt m * Nat.sqrt m = m
  · rw [if_pos hsq] at h ⊢
    have hval : √(m : ℝ) = ((2 * Nat.sqrt m + 0 : Nat) : ℝ) / (2 : Nat) := by
      rw [← hsq, Nat.sqrt_eq, Nat.cast_mul, Real.sqrt_mul_self (Nat.cast_nonneg _)]
      push_cast
      ring
    rwa [hval]
  · rw [if_neg hsq] at h ⊢
    have hlarge : 2 ^ 53 + 1 ≤ roundCode (2 * Nat.sqrt m + 1) 2 := by
      have hbits : scaledMag (2 ^ 53 + 1) = 2 ^ 53 + 2 := by decide
      have := le_roundMag_of_le (n := 2 * Nat.sqrt m + 1) two_pos (m := 2 ^ 53 + 1) (by decide) (by omega)
      exact this.trans (min_le_left _ _)
    refine h.of_same_unit (i := Nat.sqrt m) (even_boundarySum (by omega)) (even_boundarySum (by omega)) ?_
      (by exact_mod_cast sqrt_between hsq)
    push_cast
    constructor <;> linarith

theorem fsqrt_of_pos {a : B64} (ha : isFinite a = true) (h0 : isZero a = false) (hs : signBit a = false) :
    fsqrt a = pack false (roundMag (rootHalves (scaled a * unitsPerOne)) 2) := by
  simp only [fsqrt, isNaN_of_isFinite ha, h0, hs, isInf_of_isFinite ha, Bool.false_eq_true, if_false]
  rfl

theorem roundsTo_fsqrt_of_pos {a : B64} (ha : isFinite a = true) (h0 : isZero a = false) (hs : signBit a = false) :
    RoundsTo (fsqrt a) √((scaledInt a : ℝ) * 2 ^ 1074) := by
  have hunits : 2 ^ 54 * 2 ^ 54 ≤ unitsPerOne := by decide +kernel
  have hm := hunits.trans (Nat.le_mul_of_pos_left unitsPerOne (scaled_pos h0))
  have hval : (scaledInt a : ℝ) * 2 ^ 1074 = (scaled a * unitsPerOne : Nat) := by
    rw [cast_scaledInt, hs, if_neg Bool.false_ne_true, Nat.cast_mul, cast_unitsPerOne]
  rw [fsqrt_of_pos ha h0 hs, hval]
  exact roundsTo_pack false (Real.sqrt_nonneg _) (keyRounds_rootHalves hm)

theorem fsqrt_of_zero {a : B64} (h0 : isZero a = true) : fsqrt a = a := by
  rw [fsqrt, if_neg (by simp [isNaN_of_isFinite (isFinite_of_isZero h0)]), if_pos h0]

theorem roundsTo_fsqrt_of_zero {a : B64} (h0 : isZero a = true) :
    RoundsTo (fsqrt a) √((scaledInt a : ℝ) * 2 ^ 1074) := by
  have hbits : magBits a = 0 := by simpa [isZero] using h0
  have hval : scaledInt a = 0 := by rw [scaledInt_eq, isZero_iff.1 h0]; rfl
  rw [fsqrt_of_zero h0, hval, Int.cast_zero, zero_mul, Real.sqrt_zero, ← pack_signBit_magBits a, hbits]
  exact roundsTo_pack_zero _

/-- Settles O54: each operation packs the sign of its exact result with a magnitude that rounds it. -/
theorem operationsRoundToNearestEven : Obligations.OperationsRoundToNearestEven := by
  intro a b ha hb
  refine ⟨?add, fun h => ?addSign, ?sub, fun h => ?subSign, roundsTo_fmul ha hb, signBit_fmul ha hb,
    fun h0 => ⟨roundsTo_fdiv ha hb h0, signBit_fdiv ha hb h0⟩, fun h => ?root⟩
  case add => rw [fadd_of_finite ha hb]; exact roundsTo_addFinite a b
  case addSign => rw [fadd_of_finite ha hb, signBit_addFinite_of_sum_zero h]
  case sub =>
    have h := roundsTo_addFinite a (fneg b)
    rwa [scaledInt_fneg, Int.cast_neg, ← sub_eq_add_neg, ← fsub_of_finite ha hb] at h
  case subSign =>
    rw [sub_eq_add_neg, ← scaledInt_fneg] at h
    rw [fsub_of_finite ha hb, signBit_addFinite_of_sum_zero h, signBit_fneg]
  case root =>
    cases h0 : isZero a
    · have hs : signBit a = false := h.resolve_right (by simp [h0])
      refine ⟨roundsTo_fsqrt_of_pos ha h0 hs, ?_⟩
      rw [fsqrt_of_pos ha h0 hs, signBit_pack _ (roundMag_lt _ _), hs]
    · exact ⟨roundsTo_fsqrt_of_zero h0, by rw [fsqrt_of_zero h0]⟩

end Sys2Proof.Machine
end

section
/-!
SUPPORT. What one step can do, as one case per kind of effect, and what a command's effect does to each register and to
the ports.
-/

namespace Sys2Proof.Machine

/-! ### The host's moves at a port (20_memory.md R51 to R53) -/

/-- What a host does to its port: it offers a word or a byte, or takes a response. -/
inductive HostMove : (Port → Port) → Prop
  | send (w : CmdWord) : HostMove (Port.receive w)
  | sendByte (b : Byte) : HostMove (Port.receiveByte b)
  | take : HostMove fun port => { port with rspq := port.rspq.tail }

/-! ### One step -/

/-- The state with its next event spent. -/
def State.spent (s : State) : State := { s with env := s.env.tail }

/-- What one step leaves: the state as it was but for the event spent, or the effect of one host's move, of the reset
input, or of one command taken from a port where one was pending. -/
inductive StepEffect (s : State) : State → Prop
  | idle : StepEffect s s.spent
  | host (p : Nat) (f : Port → Port) (hf : HostMove f) :
      StepEffect s { s.spent with ports := s.ports.modify p f }
  | reset (rest : List EnvEvent) (he : s.env = .assertReset :: rest) : StepEffect s (assertReset blockConfig s.spent)
  | release : StepEffect s (releaseReset s.spent)
  | illegal (p : Nat) (c : Cause) (hstalled : stalled s = false) (hp : pending s p = true) :
      StepEffect s (raiseIllegal c (beginCommand p s.spent))
  | legal (p : Nat) (i : Instr) (hstalled : stalled s = false) (hp : pending s p = true)
      (hi : operandCause blockConfig i = none) : StepEffect s (legalEffect i (beginCommand p s.spent))

/-- A command word taken from port `p` has the illegal-command outcome or the effect of a legal command. -/
theorem stepEffect_of_runCommand {s t : State} {p : Nat} {w : CmdWord} (hstalled : stalled s = false)
    (hp : pending s p = true) (h : runCommand w (beginCommand p s.spent) = .next t) : StepEffect s t := by
  obtain ⟨c, -, rfl⟩ | ⟨i, -, hexec⟩ := runCommand_cases h
  · exact .illegal p c hstalled hp
  · obtain ⟨c, -, rfl⟩ | ⟨hi, rfl⟩ := exec_cases hexec
    · exact .illegal p c hstalled hp
    · exact .legal p i hstalled hp hi

theorem stepEffect_of_coreTurn {s t : State} {choice : Option Nat} (h : coreTurn choice s.spent = .next t) :
    StepEffect s t := by
  obtain rfl | ⟨-, hstalled, p, w, hnext, hrun⟩ := coreTurn_cases h
  · exact .idle
  · exact stepEffect_of_runCommand hstalled (arbitrate_pending (nextCommand_spec hnext).1) hrun

/-- A host's move does nothing during reset, and moves its port otherwise. -/
theorem stepEffect_of_hostMove {s t : State} {p : Nat} {f : Port → Port} (hf : HostMove f)
    (h : t = if s.inReset then s.spent else { s.spent with ports := s.ports.modify p f }) : StepEffect s t := by
  subst h
  split
  · exact .idle
  · exact .host p f hf

theorem stepEffect_of_step {s t : State} (h : step s = .next t) : StepEffect s t := by
  have hspent {e : EnvEvent} {rest : List EnvEvent} (he : s.env = e :: rest) : { s with env := rest } = s.spent := by
    rw [State.spent, he, List.tail_cons]
  obtain ⟨choice, rest, hchoice, hturn⟩ | ⟨p, w, rest, he, rfl⟩ | ⟨p, b, rest, he, rfl⟩ | ⟨p, rest, he, rfl⟩ |
    ⟨rest, he, rfl⟩ | ⟨rest, he, rfl⟩ := step_cases h
  · have hrest : rest = s.env.tail := by
      obtain ⟨he, rfl, -⟩ | ⟨p, he, -⟩ := hchoice <;> rw [he] <;> rfl
    subst hrest
    exact stepEffect_of_coreTurn hturn
  · rw [hspent he]; exact stepEffect_of_hostMove (.send w) rfl
  · rw [hspent he]; exact stepEffect_of_hostMove (.sendByte b) rfl
  · rw [hspent he]; exact stepEffect_of_hostMove .take rfl
  · rw [hspent he]; exact .reset rest he
  · rw [hspent he]; exact .release

/-! ### What a legal RENDER leaves (42_mixer_commands.md R188 to R190) -/

/-- The target of the volume: the set-point with the power on, silence with it off. -/
def volumeTarget (s : State) : B64 := if s.power then s.targetVol else 0

section
variable (src : WhiteSource) (n : Nat) (s : State)

theorem renderPath_on {s : State} (h : s.power = true) : renderPath src n s = renderOn src n s := if_pos h

theorem renderPath_off {s : State} (h : s.power = false) : renderPath src n s = renderOff n s := by
  simp [renderPath, h]

@[simp] theorem renderPath_power : (renderPath src n s).power = s.power := by unfold renderPath; split <;> rfl
@[simp] theorem renderPath_targetVol : (renderPath src n s).targetVol = s.targetVol := by
  unfold renderPath; split <;> rfl
@[simp] theorem renderPath_color : (renderPath src n s).color = s.color := by unfold renderPath; split <;> rfl
@[simp] theorem renderPath_bass : (renderPath src n s).bass = s.bass := by unfold renderPath; split <;> rfl
@[simp] theorem renderPath_treble : (renderPath src n s).treble = s.treble := by unfold renderPath; split <;> rfl
@[simp] theorem renderPath_status : (renderPath src n s).status = s.status := by unfold renderPath; split <;> rfl
@[simp] theorem renderPath_rr : (renderPath src n s).rr = s.rr := by unfold renderPath; split <;> rfl
@[simp] theorem renderPath_issuer : (renderPath src n s).issuer = s.issuer := by unfold renderPath; split <;> rfl

/-- The volume moves toward its target, sample by sample (R189, R191). -/
@[simp] theorem renderPath_masterVol :
    (renderPath src n s).masterVol = smoothN (volumeTarget s) n s.masterVol := by
  unfold renderPath volumeTarget; split <;> rfl

@[simp] theorem processChannel_low_coef (ls hs : Biquad) (xs : List B64) :
    (processChannel ls hs xs).2.1.coef = ls.coef := process_coef ls xs

@[simp] theorem processChannel_high_coef (ls hs : Biquad) (xs : List B64) :
    (processChannel ls hs xs).2.2.coef = hs.coef := process_coef hs _

@[simp] theorem renderPath_leftLS_coef : (renderPath src n s).leftLS.coef = s.leftLS.coef := by
  unfold renderPath; split
  · exact processChannel_low_coef _ s.leftHS _
  · rfl

@[simp] theorem renderPath_leftHS_coef : (renderPath src n s).leftHS.coef = s.leftHS.coef := by
  unfold renderPath; split
  · exact processChannel_high_coef ..
  · rfl

@[simp] theorem renderPath_rightLS_coef : (renderPath src n s).rightLS.coef = s.rightLS.coef := by
  unfold renderPath; split
  · exact processChannel_low_coef _ s.rightHS _
  · rfl

@[simp] theorem renderPath_rightHS_coef : (renderPath src n s).rightHS.coef = s.rightHS.coef := by
  unfold renderPath; split
  · exact processChannel_high_coef ..
  · rfl

/-- A `RENDER` changes its port as the emission of some words does. -/
theorem renderPath_ports : ∃ ws, (renderPath src n s).ports = (emit ws s).ports := by
  unfold renderPath; split <;> exact ⟨_, rfl⟩

end

/-! ### What a legal command leaves -/

theorem legalEffect_render_on {s : State} (h : s.power = true) (n : Word) :
    legalEffect (.render n) s = renderOn blockConfig.white n.toNat s := renderPath_on _ _ h

theorem legalEffect_render_off {s : State} (h : s.power = false) (n : Word) :
    legalEffect (.render n) s = renderOff n.toNat s := renderPath_off _ _ h

section
variable (i : Instr) (s : State)

@[simp] theorem legalEffect_status : (legalEffect i s).status = s.status := by
  cases i with
  | render n => exact renderPath_status ..
  | _ => rfl

@[simp] theorem legalEffect_rr : (legalEffect i s).rr = s.rr := by
  cases i with
  | render n => exact renderPath_rr ..
  | _ => rfl

@[simp] theorem legalEffect_issuer : (legalEffect i s).issuer = s.issuer := by
  cases i with
  | render n => exact renderPath_issuer ..
  | _ => rfl

/-- Commands touch the ports by emitting words only, none or more (20_memory.md R57). -/
theorem legalEffect_ports : ∃ ws, (legalEffect i s).ports = (emit ws s).ports := by
  cases i with
  | nop | setPower _ | setVolume _ | setColor _ | setBass _ | setTreble _ | reseed _ =>
    exact ⟨[], by rw [emit_nil]; rfl⟩
  | render n => exact renderPath_ports ..
  | getPower | getVolume | getColor | getBass | getTreble | getMasterVol | getStatus => exact ⟨_, rfl⟩

end

end Sys2Proof.Machine
end

section
/-!
SUPPORT. The invariant of the block (10_state.md R26, R28, R31, R34, R35; 70_reset_and_hazards.md R277): each of its
parts holds at reset and is kept by every effect of a step.
-/

namespace Sys2Proof.Machine

/-! ### The sliders and the set-point (R22, R24, R25) -/

theorem isNaN_zero : isNaN 0 = false := by decide

theorem unit_ordered : orderKey 0 ≤ orderKey (whole 1) := by decide +kernel

theorem percent_ordered : orderKey 0 ≤ orderKey (whole 100) := by decide +kernel

theorem slider_ordered : orderKey (fneg (whole 100)) ≤ orderKey (whole 100) := by decide +kernel

theorem isNaN_whole (n : Nat) : isNaN (whole n) = false := isNaN_literal n 1

theorem clampSlider_inRange {v : B64} (hv : isNaN v = false) :
    inRange (fneg (whole 100)) (whole 100) (clampSlider v) = true :=
  clamp_inRange hv (by rw [isNaN_fneg, isNaN_whole]) (isNaN_whole 100) slider_ordered

/-- A setter of kind F is legal only on an operand that is no NaN (R74). -/
theorem isNaN_of_check_none {v : B64} (h : (if isNaN v then some Cause.nanOperand else none) = none) :
    isNaN v = false := by
  simpa using h

theorem legalEffect_parametersInRange {i : Instr} {s : State} (hi : operandCause blockConfig i = none)
    (h : ParametersInRange s) : ParametersInRange (legalEffect i s) := by
  have ⟨hvolume, hcolor, hbass, htreble⟩ := h
  cases i with
  | setVolume v =>
    exact ⟨clamp_inRange (isNaN_of_check_none hi) isNaN_zero (isNaN_whole 1) unit_ordered, hcolor, hbass, htreble⟩
  | setColor v =>
    exact ⟨hvolume, clamp_inRange (isNaN_of_check_none hi) isNaN_zero (isNaN_whole 100) percent_ordered, hbass,
      htreble⟩
  | setBass v => exact ⟨hvolume, hcolor, clampSlider_inRange (isNaN_of_check_none hi), htreble⟩
  | setTreble v => exact ⟨hvolume, hcolor, hbass, clampSlider_inRange (isNaN_of_check_none hi)⟩
  | render n => simpa [ParametersInRange, legalEffect] using h
  | _ => exact h

theorem parametersInRange_reset (cfg : Config) : ParametersInRange (State.resetWith cfg) := by
  show inRange 0 (whole 1) 0 = true ∧ inRange 0 (whole 100) (whole 25) = true ∧
    inRange (fneg (whole 100)) (whole 100) 0 = true ∧ inRange (fneg (whole 100)) (whole 100) 0 = true
  decide +kernel

theorem StepEffect.parametersInRange {s t : State} (h : StepEffect s t) (hs : ParametersInRange s) :
    ParametersInRange t := by
  cases h with
  | reset => exact parametersInRange_reset blockConfig
  | legal p i _ _ hi => exact legalEffect_parametersInRange hi hs
  | idle | host | release | illegal => exact hs

/-! ### STATUS (R26) -/

/-- An illegal command keeps a value of the layout: the first one makes 0 into a cause with `ILL`, and a later one
leaves `STATUS` as it is. -/
theorem recordIllegal_legal {st : Word} (c : Cause) (h : statusLegal st = true) :
    statusLegal (recordIllegal st c) = true := by
  simp only [statusLegal, Bool.or_eq_true, beq_iff_eq] at h
  obtain (((rfl | rfl) | rfl) | rfl) | rfl := h <;> cases c <;> decide

theorem StepEffect.statusInLayout {s t : State} (h : StepEffect s t) (hs : StatusInLayout s) : StatusInLayout t := by
  cases h with
  | reset => exact (by decide : statusLegal 0 = true)
  | illegal p c => exact recordIllegal_legal c hs
  | legal p i => rw [StatusInLayout, legalEffect_status]; exact hs
  | idle | host | release => exact hs

/-! ### The channels (R35) -/

theorem renderOn_channelsEqual (src : WhiteSource) (n : Nat) {s : State} (h : ChannelsEqual s) :
    ChannelsEqual (renderOn src n s) := by
  obtain ⟨hlow, hhigh⟩ := h
  simp [ChannelsEqual, renderOn, hlow, hhigh]

theorem legalEffect_channelsEqual (i : Instr) {s : State} (h : ChannelsEqual s) :
    ChannelsEqual (legalEffect i s) := by
  cases i with
  | setBass v => exact ⟨congrArg (Biquad.updateGain blockConfig .low (gainOf (clampSlider v))) h.1, h.2⟩
  | setTreble v => exact ⟨h.1, congrArg (Biquad.updateGain blockConfig .high (gainOf (clampSlider v))) h.2⟩
  | render n =>
    cases hpower : s.power
    · rw [legalEffect_render_off hpower]; exact h
    · rw [legalEffect_render_on hpower]; exact renderOn_channelsEqual _ _ h
  | _ => exact h

theorem StepEffect.channelsEqual {s t : State} (h : StepEffect s t) (hs : ChannelsEqual s) : ChannelsEqual t := by
  cases h with
  | reset => exact ⟨rfl, rfl⟩
  | legal p i => exact legalEffect_channelsEqual i hs
  | idle | host | release | illegal => exact hs

/-! ### The coefficients (R31) -/

theorem legalEffect_coefficients (i : Instr) {s : State} (h : CoefficientsFollowSliders s) :
    CoefficientsFollowSliders (legalEffect i s) := by
  have ⟨hleftLow, hrightLow, hleftHigh, hrightHigh⟩ := h
  cases i with
  | setBass v => exact ⟨rfl, rfl, hleftHigh, hrightHigh⟩
  | setTreble v => exact ⟨hleftLow, hrightLow, rfl, rfl⟩
  | render n => simpa [CoefficientsFollowSliders, legalEffect] using h
  | _ => exact h

/-- Reset stores the coefficients of 0.0 dB, which is the gain of its sliders (R38). -/
theorem coefficients_reset : CoefficientsFollowSliders (State.resetWith blockConfig) := by
  have hgain (shelf : Shelf) : coefficients blockConfig shelf 0 = coefficients blockConfig shelf (gainOf 0) := by
    rw [Tests.reset_coefficients]
  exact ⟨hgain .low, hgain .low, hgain .high, hgain .high⟩

theorem StepEffect.coefficientsFollowSliders {s t : State} (h : StepEffect s t) (hs : CoefficientsFollowSliders s) :
    CoefficientsFollowSliders t := by
  cases h with
  | reset => exact coefficients_reset
  | legal p i => exact legalEffect_coefficients i hs
  | idle | host | release | illegal => exact hs

/-! ### The secondary slot of brown (R28) -/

/-- Only brown steps the brown register (R105). -/
theorem generatePure_brown {c : Color} (hc : c ≠ .brown) (src : WhiteSource) (v : B64) (n : Nat) (sl : Slot) (S : Nat) :
    (generatePure src c v n sl S).slot.brown = sl.brown := by
  induction n generalizing sl S with
  | zero => rfl
  | succ n ih =>
    rw [generatePure_succ, ih]
    cases c with
    | brown => exact absurd rfl hc
    | _ => rfl

/-- Brown is the lowest colour: no pair of anchors has it on its upper side (R111). -/
theorem bracketing_hi_ne_brown (s : B64) : (bracketing s).hi ≠ .brown := by
  have hpairs : ∀ p ∈ lastPair :: lowerPairs, p.hi ≠ .brown := by
    simp [lowerPairs, lastPair]
  refine hpairs _ ?_
  unfold bracketing
  cases hfind : lowerPairs.find? fun p => fle p.loPos s && fle s p.hiPos with
  | none => exact List.mem_cons_self
  | some p => exact List.mem_cons_of_mem _ (List.mem_of_find?_eq_some hfind)

theorem eq_of_ite_eq {α : Type} {c : Prop} [Decidable c] {a b d : α} (h : (if c then a else b) = d) (ha : a ≠ d) :
    b = d := by
  split at h
  · exact absurd h ha
  · exact h

/-- A blend is the last branch of the selection, on the anchors that bracket the slider (R112). -/
theorem select_blend_hi {s t : B64} {lo hi : Color} (h : select s = .blend lo hi t) : (bracketing s).hi = hi := by
  unfold select at h
  have hlast := eq_of_ite_eq (eq_of_ite_eq (eq_of_ite_eq (eq_of_ite_eq h nofun) nofun) nofun) nofun
  exact (Selection.blend.inj hlast).2.1

/-- A mono block uses the secondary slot for the upper colour of a blend only (R113). -/
theorem generateBlended_secondary_brown (src : WhiteSource) (slider : B64) (n : Nat) (v : B64) (p q : Slot) (S : Nat) :
    (generateBlended src slider n v p q S).secondary.brown = q.brown := by
  unfold generateBlended
  split
  · rfl
  · next hselect => exact generatePure_brown (select_blend_hi hselect ▸ bracketing_hi_ne_brown slider) ..

theorem legalEffect_secondary_brown (i : Instr) (s : State) :
    (legalEffect i s).secondary.brown = s.secondary.brown := by
  cases i with
  | render n =>
    cases hpower : s.power
    · rw [legalEffect_render_off hpower]; rfl
    · rw [legalEffect_render_on hpower]; exact generateBlended_secondary_brown ..
  | _ => rfl

theorem StepEffect.brownSecondaryUnused {s t : State} (h : StepEffect s t) (hs : BrownSecondaryUnused s) :
    BrownSecondaryUnused t := by
  cases h with
  | reset => rfl
  | legal p i => exact (legalEffect_secondary_brown i _).trans hs
  | idle | host | release | illegal => exact hs

/-! ### The pointers (60_exceptions.md R250) -/

theorem beginCommand_pointersInRange {s : State} {p : Nat} (hp : p < s.ports.length) :
    PointersInRange (beginCommand p s) := by
  rw [PointersInRange, beginCommand_ports_length]
  exact ⟨Nat.mod_lt _ (by omega), hp⟩

theorem legalEffect_ports_length (i : Instr) (s : State) : (legalEffect i s).ports.length = s.ports.length := by
  obtain ⟨ws, hports⟩ := legalEffect_ports i s
  rw [hports, emit_ports_length]

theorem StepEffect.pointersInRange {s t : State} (h : StepEffect s t) (hs : PointersInRange s) :
    PointersInRange t := by
  cases h with
  | host p f => rw [PointersInRange, List.length_modify]; exact hs
  | reset =>
    have hpos : 0 < (s.ports.map Port.cleared).length := by
      rw [List.length_map]; exact Nat.zero_lt_of_lt hs.2
    exact ⟨hpos, hpos⟩
  | illegal p c _ hp => exact beginCommand_pointersInRange (pending_lt hp)
  | legal p i _ hp =>
    rw [PointersInRange, legalEffect_rr, legalEffect_issuer, legalEffect_ports_length]
    exact beginCommand_pointersInRange (pending_lt hp)
  | idle | release => exact hs

/-! ### The queues (20_memory.md R53, 70_reset_and_hazards.md R277) -/

/-- What `QueuesInBounds` says of one port. -/
def Port.InBounds (port : Port) : Prop :=
  port.rx.length < 16 ∧ ∀ d, port.cmdDepth = some d → port.cmdq.length ≤ d

theorem Port.InBounds.append {port : Port} (h : port.InBounds) (hroom : port.hasRoom = true) (w : CmdWord) :
    { port with cmdq := port.cmdq ++ [w] }.InBounds := by
  refine ⟨h.1, fun d (hd : port.cmdDepth = some d) => ?_⟩
  have : port.cmdq.length < d := by simpa [Port.hasRoom, hd] using hroom
  simpa using this

theorem Port.InBounds.receiveByte {port : Port} (h : port.InBounds) (b : Byte) : (port.receiveByte b).InBounds := by
  have hlen : (port.rx ++ [b]).length = port.rx.length + 1 := by simp
  obtain ⟨hrx, hdepth⟩ := h
  unfold Port.receiveByte
  split
  · next hpartial =>
    refine ⟨?_, hdepth⟩
    have : (port.rx ++ [b]).length ≠ 16 := by
      intro h16
      simp [commandOfBytes, h16] at hpartial
    show (port.rx ++ [b]).length < 16
    omega
  · split
    · next w _ hroom => exact ⟨Nat.zero_lt_succ 15, (Port.InBounds.append ⟨hrx, hdepth⟩ hroom w).2⟩
    · exact ⟨hrx, hdepth⟩

theorem HostMove.inBounds {f : Port → Port} (hf : HostMove f) {port : Port} (h : port.InBounds) :
    (f port).InBounds := by
  cases hf with
  | send w =>
    unfold Port.receive
    split
    · next hroom => exact h.append hroom w
    · exact h
  | sendByte b => exact h.receiveByte b
  | take => exact h

/-- An element of an updated list is an element of the list, updated or not. -/
theorem exists_of_getElem?_modify {α : Type} {l : List α} {f : α → α} {i j : Nat} {b : α}
    (h : (l.modify i f)[j]? = some b) : ∃ a, l[j]? = some a ∧ (b = f a ∨ b = a) := by
  rw [List.getElem?_modify] at h
  obtain ⟨a, ha, rfl⟩ := Option.map_eq_some_iff.1 h
  refine ⟨a, ha, ?_⟩
  split
  · exact .inl rfl
  · exact .inr rfl

/-- What holds of every port holds still when one port is updated by what keeps it. -/
theorem forall_mem_modify {α : Type} {P : α → Prop} {l : List α} {f : α → α} (hf : ∀ a, P a → P (f a)) (i : Nat)
    (h : ∀ a ∈ l, P a) : ∀ a ∈ l.modify i f, P a := by
  intro a ha
  obtain ⟨j, hj⟩ := List.mem_iff_getElem?.1 ha
  obtain ⟨b, hb, rfl | rfl⟩ := exists_of_getElem?_modify hj
  · exact hf b (h b (List.mem_of_getElem? hb))
  · exact h a (List.mem_of_getElem? hb)

theorem emit_queuesInBounds (ws : List Word) {s : State} (h : QueuesInBounds s) : QueuesInBounds (emit ws s) :=
  forall_mem_modify (P := Port.InBounds) (f := fun port => { port with rspq := port.rspq ++ ws }) (fun _ hport => hport)
    s.issuer h

theorem beginCommand_queuesInBounds (p : Nat) {s : State} (h : QueuesInBounds s) :
    QueuesInBounds (beginCommand p s) := by
  refine forall_mem_modify (P := Port.InBounds) (f := fun port => { port with cmdq := port.cmdq.tail })
    (fun port hport => ⟨hport.1, fun d hd => ?_⟩) p h
  have := hport.2 d hd
  have := port.cmdq.length_tail
  show port.cmdq.tail.length ≤ d
  omega

theorem StepEffect.queuesInBounds {s t : State} (h : StepEffect s t) (hs : QueuesInBounds s) : QueuesInBounds t := by
  cases h with
  | host p f hf => exact forall_mem_modify (P := Port.InBounds) (fun _ => hf.inBounds) p hs
  | reset =>
    intro port hport
    obtain ⟨port', -, rfl⟩ := List.mem_map.1 hport
    exact ⟨Nat.zero_lt_succ 15, fun d _ => Nat.zero_le d⟩
  | illegal p c => exact beginCommand_queuesInBounds p hs
  | legal p i =>
    obtain ⟨ws, hports⟩ := legalEffect_ports i (beginCommand p s.spent)
    rw [QueuesInBounds, hports]
    exact emit_queuesInBounds ws (beginCommand_queuesInBounds p hs)
  | idle | release => exact hs

/-! ### The ports whose words wait (42_mixer_commands.md R180, 70_reset_and_hazards.md R277) -/

theorem Port.overfull_eq_false_iff {port : Port} :
    port.overfull = false ↔ ∀ d, port.rspDepth = some d → port.rspq.length ≤ d := by
  unfold Port.overfull
  cases hq : port.rspq <;> cases hd : port.rspDepth <;> simp

/-- A host's move makes no response wait. -/
theorem HostMove.overfull {f : Port → Port} (hf : HostMove f) {port : Port} (h : port.overfull = false) :
    (f port).overfull = false := by
  cases hf with
  | send w => unfold Port.receive; split <;> exact h
  | sendByte b =>
    unfold Port.receiveByte
    split
    · exact h
    · split <;> exact h
  | take =>
    rw [Port.overfull_eq_false_iff] at h ⊢
    intro d hd
    have := h d hd
    have := port.rspq.length_tail
    show port.rspq.tail.length ≤ d
    omega

theorem host_onlyIssuerWaits {s : State} (p : Nat) {f : Port → Port} (hf : HostMove f) (hs : OnlyIssuerWaits s) :
    OnlyIssuerWaits { s with ports := s.ports.modify p f } := by
  intro q port hport hq
  obtain ⟨port', hport', rfl | rfl⟩ := exists_of_getElem?_modify hport
  · exact hf.overfull (hs q port' hport' hq)
  · exact hs q port hport' hq

/-- Where the core is not stalled no port has words that wait, so any port may become the issuing one. -/
theorem beginCommand_onlyIssuerWaits (p : Nat) {s : State} (hstalled : stalled s = false) (hs : OnlyIssuerWaits s) :
    OnlyIssuerWaits (beginCommand p s) := by
  intro q port hport _
  obtain ⟨port', hport', hcases⟩ := exists_of_getElem?_modify hport
  have hfull : port'.overfull = false := by
    by_cases hq : q = s.issuer
    · subst hq
      simpa [stalled, hport'] using hstalled
    · exact hs q port' hport' hq
  obtain rfl | rfl := hcases <;> exact hfull

theorem emit_onlyIssuerWaits (ws : List Word) {s : State} (hs : OnlyIssuerWaits s) : OnlyIssuerWaits (emit ws s) := by
  intro q port hport hq
  rw [emit_issuer] at hq
  rw [emit_ports, List.getElem?_modify_ne _ _ (Ne.symm hq)] at hport
  exact hs q port hport hq

theorem StepEffect.onlyIssuerWaits {s t : State} (h : StepEffect s t) (hs : OnlyIssuerWaits s) :
    OnlyIssuerWaits t := by
  cases h with
  | host p f hf => exact host_onlyIssuerWaits p hf hs
  | reset =>
    intro p port hport _
    obtain ⟨port', -, rfl⟩ := List.mem_map.1 (List.mem_of_getElem? hport)
    rfl
  | illegal p c hstalled => exact beginCommand_onlyIssuerWaits p hstalled hs
  | legal p i hstalled =>
    obtain ⟨ws, hports⟩ := legalEffect_ports i (beginCommand p s.spent)
    rw [OnlyIssuerWaits, hports, legalEffect_issuer]
    exact emit_onlyIssuerWaits ws (beginCommand_onlyIssuerWaits p hstalled hs)
  | idle | release => exact hs

/-- Settles O51: each part of the invariant is kept by every effect of a step. -/
theorem stepKeepsTheInvariant : Obligations.StepKeepsTheInvariant := by
  intro s t ⟨hparams, hstatus, hchannels, hcoef, hbrown, hpointers, hqueues, hwaits⟩ hstep
  have h := stepEffect_of_step hstep
  exact ⟨h.parametersInRange hparams, h.statusInLayout hstatus, h.channelsEqual hchannels,
    h.coefficientsFollowSliders hcoef, h.brownSecondaryUnused hbrown, h.pointersInRange hpointers,
    h.queuesInBounds hqueues, h.onlyIssuerWaits hwaits⟩

end Sys2Proof.Machine
end

section
/-!
SUPPORT. The reset state (10_state.md R38) meets the invariant and holds the values of the reset table.
-/

namespace Sys2Proof.Machine

/-- The block has at least one port, and every port is empty after reset. -/
theorem reset_port_eq_empty {port : Port} (h : port ∈ State.reset.ports) : port = Port.empty :=
  (List.mem_cons.1 h).elim id List.eq_of_mem_replicate

/-- Settles O50: each part of the invariant at reset; the ports are empty. -/
theorem resetMeetsTheInvariants : Obligations.ResetMeetsTheInvariants := by
  have hpos : 0 < State.reset.ports.length := Nat.zero_lt_succ _
  have hqueues : QueuesInBounds State.reset := by
    intro port hport
    rw [reset_port_eq_empty hport]
    exact ⟨by decide, nofun⟩
  have hwaits : OnlyIssuerWaits State.reset := by
    intro p port hport _
    rw [reset_port_eq_empty (List.mem_of_getElem? hport)]
    rfl
  have hvolume : inRange 0 (whole 1) 0 = true ∧ signBit 0 = false := by decide +kernel
  exact ⟨⟨parametersInRange_reset blockConfig, by decide, ⟨rfl, rfl⟩, coefficients_reset, rfl, ⟨hpos, hpos⟩, hqueues,
    hwaits⟩, hvolume⟩

/-- Settles O15: the table of R38, register by register. -/
theorem resetTable : Obligations.ResetTable := by
  have hcolor : whole 25 = 0x4039000000000000#64 := by decide +kernel
  have hports : ∀ port ∈ State.reset.ports, port.cmdq = [] ∧ port.rspq = [] ∧ port.rx = [] := by
    intro port hport
    rw [reset_port_eq_empty hport]
    exact ⟨rfl, rfl, rfl⟩
  refine ⟨rfl, rfl, rfl, hcolor, rfl, rfl, rfl, ?slots, rfl, ?low, ?high, Nat.le_add_left .., hports, rfl⟩
  case slots =>
    intro slot hslot
    obtain rfl | rfl := List.mem_pair.1 hslot <;> exact ⟨rfl, rfl, rfl, rfl, rfl⟩
  case low | high =>
    intro f hf
    obtain rfl | rfl := List.mem_pair.1 hf <;> exact ⟨rfl, rfl⟩

end Sys2Proof.Machine
end

section
/-!
SUPPORT. The volume over a block (10_state.md R23, R34; 42_mixer_commands.md R189, R191): one update moves it toward the
target and not past it, and so does any number of them.
-/

namespace Sys2Proof.Machine

/-- Both targets of the volume lie in its range: the set-point, and silence. -/
theorem volumeTarget_inRange {s : State} (h : ParametersInRange s) : inRange 0 (whole 1) (volumeTarget s) = true := by
  unfold volumeTarget
  split
  · exact h.1
  · decide +kernel

section
variable {T m : B64} (hT : inRange 0 (whole 1) T = true) (hm : inRange 0 (whole 1) m = true) (hs : signBit m = false)
include hT hm hs

theorem smoothN_inRange (n : Nat) : inRange 0 (whole 1) (smoothN T n m) = true ∧ signBit (smoothN T n m) = false := by
  induction n generalizing m with
  | zero => exact ⟨hm, hs⟩
  | succ n ih =>
    obtain ⟨hrange, hsign, -, -⟩ := smooth_between hT hm hs
    exact ih hrange hsign

/-- From below its target the volume rises and stays below it. -/
theorem smoothN_rises (n : Nat) (h : orderKey m ≤ orderKey T) :
    orderKey m ≤ orderKey (smoothN T n m) ∧ orderKey (smoothN T n m) ≤ orderKey T := by
  induction n generalizing m with
  | zero => exact ⟨le_rfl, h⟩
  | succ n ih =>
    obtain ⟨hrange, hsign, hup, -⟩ := smooth_between hT hm hs
    obtain ⟨hfirst, hbelow⟩ := hup h
    obtain ⟨hrest, hend⟩ := ih hrange hsign hbelow
    exact ⟨hfirst.trans hrest, hend⟩

/-- From above its target the volume falls and stays above it. -/
theorem smoothN_falls (n : Nat) (h : orderKey T ≤ orderKey m) :
    orderKey T ≤ orderKey (smoothN T n m) ∧ orderKey (smoothN T n m) ≤ orderKey m := by
  induction n generalizing m with
  | zero => exact ⟨h, le_rfl⟩
  | succ n ih =>
    obtain ⟨hrange, hsign, -, hdown⟩ := smooth_between hT hm hs
    obtain ⟨habove, hfirst⟩ := hdown h
    obtain ⟨hend, hrest⟩ := ih hrange hsign habove
    exact ⟨hend, hrest.trans hfirst⟩

end

theorem isNaN_of_inRange {lo hi v : B64} (h : inRange lo hi v = true) : isNaN v = false := (inRange_iff.1 h).1

/-- `RENDER` alone writes the volume. -/
theorem legalEffect_masterVolInRange (i : Instr) {s : State} (hparams : ParametersInRange s)
    (h : MasterVolInRange s) : MasterVolInRange (legalEffect i s) := by
  cases i with
  | render n =>
    rw [MasterVolInRange, legalEffect, renderPath_masterVol]
    exact smoothN_inRange (volumeTarget_inRange hparams) h.1 h.2 _
  | _ => exact h

/-- Settles O52: `RENDER` keeps the range, and reset sets the volume to +0.0. -/
theorem stepKeepsTheVolumeInRange : Obligations.StepKeepsTheVolumeInRange := by
  intro s t hparams hvolume hstep
  cases stepEffect_of_step hstep with
  | reset => exact resetMeetsTheInvariants.2
  | legal p i => exact legalEffect_masterVolInRange i hparams hvolume
  | idle | host | release | illegal => exact hvolume

/-- A count up to `MAX_BLOCK` is legal (R188). -/
theorem blockTooLong_eq_false {cfg : Config} {n : Word} (h : n.toNat ≤ cfg.maxBlock) : blockTooLong cfg n = false := by
  unfold blockTooLong
  split
  · rfl
  · next k hk =>
    have hk' : n.toNat = k + 1 := hk
    exact decide_eq_false (by omega)

theorem exec_render_of_le {n : Word} (h : n.toNat ≤ blockConfig.maxBlock) (s : State) :
    exec (.render n) s = .next (renderPath blockConfig.white n.toNat s) := by
  rw [exec_eq, operandCause, blockTooLong_eq_false h]
  rfl

/-- Settles O53: the volume after a block lies between the volume before it and the target. -/
theorem renderNeverOvershoots : Obligations.RenderNeverOvershoots := by
  intro n s t hparams ⟨hrange, hsign⟩ hn hexec
  rw [exec_render_of_le hn] at hexec
  injection hexec with ht
  subst ht
  show (fle s.masterVol (volumeTarget s) = true → _ ∧ fle _ (volumeTarget s) = true) ∧
    (fle (volumeTarget s) s.masterVol = true → fle (volumeTarget s) _ = true ∧ _)
  have hT := volumeTarget_inRange hparams
  have hnew := isNaN_of_inRange (smoothN_inRange hT hrange hsign n.toNat).1
  rw [renderPath_masterVol]
  simp only [fle_iff, isNaN_of_inRange hT, isNaN_of_inRange hrange, hnew, true_and]
  exact ⟨smoothN_rises hT hrange hsign n.toNat, smoothN_falls hT hrange hsign n.toNat⟩

end Sys2Proof.Machine
end

section
/-!
SUPPORT. What commands write and what hosts can read (10_state.md R21 to R32, R35, R36).
-/

namespace Sys2Proof.Machine

/-! ### STATUS (60_exceptions.md R246) -/

theorem recordIllegal_of_ill {st : Word} (h : statusIll st = true) (c : Cause) : recordIllegal st c = st := if_pos h

/-- Settles O29: with `ILL` set an illegal command records nothing, and no other effect but reset writes `STATUS`. -/
theorem firstCauseIsSticky : Obligations.FirstCauseIsSticky := by
  intro s t hill hstep hnoReset
  cases stepEffect_of_step hstep with
  | reset rest he => exact absurd he (hnoReset rest)
  | illegal p c => exact recordIllegal_of_ill hill c
  | legal p i => exact legalEffect_status i _
  | idle | host | release => rfl

/-! ### Which commands write a register -/

/-- Settles O37: the illegal-command outcome writes none of these registers, and each legal command only its own. -/
theorem registersAreWrittenOnlyByTheirCommands : Obligations.RegistersAreWrittenOnlyByTheirCommands := by
  intro i s t hexec
  obtain ⟨c, -, rfl⟩ | ⟨-, rfl⟩ := exec_cases hexec
  · simp
  · cases i with
    | render n =>
      cases hpower : s.power
      · simp [legalEffect_render_off hpower, hpower]
      · simp [legalEffect, hpower]
    | _ => simp [legalEffect]

/-! ### What a host can read (R36) -/

/-- Settles O27: neither an operand check nor the words a command emits look at the hidden registers. -/
theorem hiddenStateIsNotReadable : Obligations.HiddenStateIsNotReadable := by
  intro i s t t' p q r f₁ f₂ f₃ f₄ hi ht ht'
  rw [exec_eq] at ht ht'
  cases ht
  cases ht'
  cases operandCause blockConfig i with
  | some c => rfl
  | none =>
    cases i with
    | render n => exact absurd rfl (hi n)
    | _ => rfl

/-! ### The two channels (R35) -/

/-- The output word of each frame of a block, the same on both channels. -/
def frameWords (T : B64) : List B64 → B64 → List Word
  | [], _ => []
  | x :: xs, m => outputWord x (smooth T m) :: frameWords T xs (smooth T m)

theorem frameWords_length (T : B64) (xs : List B64) (m : B64) : (frameWords T xs m).length = xs.length := by
  induction xs generalizing m with
  | nil => rfl
  | cons x xs ih => simp [frameWords, ih]

/-- Equal channels give each word twice, left and then right (R190). -/
theorem outputFrames_self (T : B64) (xs : List B64) (m : B64) :
    outputFrames T xs xs m = (frameWords T xs m).flatMap fun w => [w, w] := by
  induction xs generalizing m with
  | nil => rfl
  | cons x xs ih => simp [outputFrames, frameWords, ih]

/-- The block that the left channel makes of a mono block. -/
def leftBlock (src : WhiteSource) (n : Nat) (s : State) : List B64 :=
  (processChannel s.leftLS s.leftHS
    (generateBlended src s.color n (whole 1) s.primary s.secondary s.rng).out).1

theorem leftBlock_length (src : WhiteSource) (n : Nat) (s : State) : (leftBlock src n s).length = n := by
  simp [leftBlock]

theorem renderOn_ports_of_channelsEqual (src : WhiteSource) (n : Nat) {s : State} (h : ChannelsEqual s) :
    (renderOn src n s).ports = s.ports.modify s.issuer fun p =>
      { p with rspq := p.rspq ++ (frameWords s.targetVol (leftBlock src n s) s.masterVol).flatMap fun w => [w, w] } := by
  rw [← outputFrames_self]
  simp only [renderOn, emit_ports, ← h.1, ← h.2]
  rfl

/-- Settles O35: equal channels filter the one mono block alike. -/
theorem leftAndRightWordsAreEqual : Obligations.LeftAndRightWordsAreEqual := by
  intro n s hequal hpower hn
  refine ⟨_, frameWords s.targetVol (leftBlock blockConfig.white n.toNat s) s.masterVol,
    (exec_render_of_le hn s).trans (congrArg _ (renderPath_on _ _ hpower)), ?_,
    renderOn_ports_of_channelsEqual _ _ hequal, renderOn_channelsEqual _ _ hequal⟩
  rw [frameWords_length, leftBlock_length]

end Sys2Proof.Machine
end

section
/-!
SUPPORT. Placing a command word where the next step takes it (10_state.md R20, 20_memory.md R61; log entry 7).
-/

namespace Sys2Proof.Machine

/-- A port whose waiting words were dropped has none left. -/
theorem Port.relieved_overfull (port : Port) : port.relieved.overfull = false := by
  unfold Port.relieved
  rw [Port.overfull_eq_false_iff]
  intro d hd
  cases hdepth : port.rspDepth with
  | none => simp [hdepth] at hd
  | some d' =>
    simp only [hdepth, Option.some.injEq] at hd ⊢
    subst hd
    exact List.length_take_le ..

@[simp] theorem Port.relieved_cmdq (port : Port) : port.relieved.cmdq = port.cmdq := by
  unfold Port.relieved; split <;> rfl

/-- Placing a word leaves every response queue as it is. -/
theorem placeFirst_overfull {w : CmdWord} {ps : List Port} {j : Nat} {port : Port}
    (hps : ∀ port, ps[j]? = some port → port.overfull = false) (h : (placeFirst w ps)[j]? = some port) :
    port.overfull = false := by
  match ps, j, hps, h with
  | [], 0, _, h => cases h; rfl
  | p :: _, 0, hps, h => cases h; exact hps p rfl
  | _ :: _, j + 1, hps, h => exact hps port h

theorem placeCommand_not_stalled (w : CmdWord) (s : State) : stalled (placeCommand w s) = false := by
  unfold stalled
  split
  · next port hport =>
    refine placeFirst_overfull (fun port hport => ?_) hport
    rw [placeCommand_issuer, List.getElem?_modify_eq] at hport
    obtain ⟨port', -, rfl⟩ := Option.map_eq_some_iff.1 hport
    exact port'.relieved_overfull
  · rfl

/-- The placed word heads the first port's queue. -/
theorem headCommand_placeCommand (w : CmdWord) (s : State) : headCommand (placeCommand w s) 0 = some w := by
  rw [headCommand, placeCommand_ports]
  cases s.ports.modify s.issuer Port.relieved <;> rfl

/-- Taking the placed word gives the ports of before, or the port that was made for it. -/
theorem placeFirst_taken (w : CmdWord) (ps : List Port) :
    (placeFirst w ps).modify 0 (fun port => { port with cmdq := port.cmdq.tail }) =
      if ps = [] then [Port.empty] else ps := by
  cases ps <;> rfl

/-- The step after a placement takes the placed word. -/
theorem step_placeCommand (w : CmdWord) (s : State) :
    step (placeCommand w s) = runCommand w (beginCommand 0 (placeCommand w s).spent) := by
  have hreset : (placeCommand w s).spent.inReset = false := rfl
  have hstalled : stalled (placeCommand w s).spent = false := placeCommand_not_stalled w s
  have hnext : nextCommand (placeCommand w s).spent (some 0) = some (0, w) :=
    nextCommand_granted (headCommand_placeCommand w s)
  show coreTurn (some 0) (placeCommand w s).spent = _
  rw [coreTurn, if_neg (ne_true_of_eq_false hreset), if_neg (ne_true_of_eq_false hstalled), hnext]

theorem beginCommand_placeCommand_ports (w : CmdWord) (s : State) :
    (beginCommand 0 (placeCommand w s).spent).ports =
      if s.ports = [] then [Port.empty] else s.ports.modify s.issuer Port.relieved := by
  have hnil : s.ports.modify s.issuer Port.relieved = [] ↔ s.ports = [] := by simp
  rw [beginCommand_ports]
  exact (placeFirst_taken w _).trans (if_congr hnil rfl rfl)

/-- Settles O13: the placed word heads its queue and its port is granted; once it is taken the queues are those of
before. -/
theorem placedCommandRunsNext : Obligations.PlacedCommandRunsNext := by
  intro s nbits w
  refine ⟨_, step_placeCommand (tableWord nbits w) s, rfl, ?_⟩
  rw [beginCommand_placeCommand_ports]
  by_cases hnil : s.ports = []
  · rw [hnil, if_pos rfl]
    refine ⟨rfl, fun p => ?_⟩
    cases p <;> simp [Port.empty]
  · rw [if_neg hnil, List.length_modify]
    refine ⟨by have := List.length_pos_of_ne_nil hnil; omega, fun p => ?_⟩
    rw [if_neg (fun h => hnil h.2), List.getElem?_modify]
    cases s.ports[p]? with
    | none => rfl
    | some port =>
      by_cases hp : s.issuer = p <;> simp [hp]

end Sys2Proof.Machine
end

section
/-!
SUPPORT. Encoding and byte transport (20_memory.md R52, R53; 30_encoding.md R71 to R73): a command word and its sixteen
bytes, least significant first, make each other, and decoding undoes encoding.
-/

namespace Sys2Proof

/-! ### Encoding (R71 to R73) -/

theorem decodeOpcode_opcode (i : Instr) : decodeOpcode i.opcode i.operand = some i := by
  cases i <;> rfl

@[simp] theorem decode_encode (i : Instr) : decode (encode i) = .ok i := by
  simp [decode, encode, decodeOpcode_opcode]

/-! ### The bytes of a word (R52) -/

@[simp] theorem commandBytes_length (w : CmdWord) : (commandBytes w).length = 16 := by
  rw [commandBytes, List.length_map, List.length_range]

theorem commandBytes_getElem_toNat (w : CmdWord) {j : Nat} (hj : j < (commandBytes w).length) :
    (commandBytes w)[j].toNat = w.toNat / 256 ^ j % 256 := by
  simp [commandBytes, Nat.shiftRight_eq_div_pow, pow_mul]

/-- A list of bytes is read as a number in base 256. -/
theorem wordOfBytes_eq_ofDigits (bs : List Byte) : wordOfBytes bs = Nat.ofDigits 256 (bs.map BitVec.toNat) := by
  induction bs with
  | nil => rfl
  | cons b bs ih => rw [wordOfBytes, ih, List.map_cons, Nat.ofDigits_cons]

theorem byteDigits_lt {bs : List Byte} : ∀ d ∈ bs.map BitVec.toNat, d < 256 := by
  simpa using fun (b : Byte) _ => b.isLt

theorem wordOfBytes_concat (bs : List Byte) (b : Byte) :
    wordOfBytes (bs ++ [b]) = wordOfBytes bs + 256 ^ bs.length * b.toNat := by
  simp [wordOfBytes_eq_ofDigits, Nat.ofDigits_append]

theorem wordOfBytes_lt (bs : List Byte) : wordOfBytes bs < 256 ^ bs.length := by
  have h := Nat.ofDigits_lt_base_pow_length (by norm_num) (byteDigits_lt (bs := bs))
  rwa [← wordOfBytes_eq_ofDigits, List.length_map] at h

theorem wordOfBytes_inj {bs cs : List Byte} (hlen : bs.length = cs.length) (h : wordOfBytes bs = wordOfBytes cs) :
    bs = cs := by
  rw [wordOfBytes_eq_ofDigits, wordOfBytes_eq_ofDigits] at h
  exact List.map_injective_iff.2 BitVec.toNat_injective
    (Nat.ofDigits_inj_of_len_eq (by norm_num) (by simpa using hlen) byteDigits_lt byteDigits_lt h)

/-- The first `n` bytes of a word make its low `8 * n` bits. -/
theorem wordOfBytes_take_commandBytes (w : CmdWord) {n : Nat} (hn : n ≤ 16) :
    wordOfBytes ((commandBytes w).take n) = w.toNat % 256 ^ n := by
  induction n with
  | zero => rw [List.take_zero, pow_zero, Nat.mod_one]; rfl
  | succ n ih =>
    have hlt : n < (commandBytes w).length := by rw [commandBytes_length]; exact hn
    rw [← List.take_append_getElem hlt, wordOfBytes_concat, ih (by omega), List.length_take_of_le hlt.le,
      commandBytes_getElem_toNat, Nat.mod_pow_succ]

theorem wordOfBytes_commandBytes (w : CmdWord) : wordOfBytes (commandBytes w) = w.toNat := by
  have h := wordOfBytes_take_commandBytes w le_rfl
  rwa [List.take_of_length_le (commandBytes_length w).le, Nat.mod_eq_of_lt (by simpa using w.isLt)] at h

@[simp] theorem commandOfBytes_commandBytes (w : CmdWord) : commandOfBytes (commandBytes w) = some w := by
  rw [commandOfBytes, if_pos (commandBytes_length w), wordOfBytes_commandBytes, BitVec.ofNat_toNat, BitVec.setWidth_eq]

/-- Any sixteen bytes are the bytes of a word. -/
theorem exists_commandBytes_eq {bs : List Byte} (h : bs.length = 16) : ∃ w, commandBytes w = bs := by
  refine ⟨BitVec.ofNat 128 (wordOfBytes bs), wordOfBytes_inj (by rw [commandBytes_length, h]) ?_⟩
  have hlt : wordOfBytes bs < 2 ^ 128 := by simpa [h] using wordOfBytes_lt bs
  rw [wordOfBytes_commandBytes, BitVec.toNat_ofNat, Nat.mod_eq_of_lt hlt]

theorem commandOfBytes_of_length_ne {bs : List Byte} (h : bs.length ≠ 16) : commandOfBytes bs = none := if_neg h

/-- Settles O4: a word's bytes make it again, and decoding reads back the fields that encoding wrote. -/
theorem decodeOfEncode : Obligations.DecodeOfEncode :=
  ⟨fun i => ⟨decode_encode i, by rw [decodeBytes, commandOfBytes_commandBytes, Option.map_some, decode_encode]⟩,
    fun w => ⟨commandBytes_length w, commandOfBytes_commandBytes w⟩⟩

end Sys2Proof
end

section
/-!
SUPPORT. How many words a command emits (20_memory.md R57), and that it touches nothing of the outside but the responses
of the issuing port (10_state.md R33).
-/

namespace Sys2Proof.Machine

/-! ### What a legal RENDER emits -/

section
variable (src : WhiteSource) (n : Nat) (s : State)

@[simp] theorem renderPath_inReset : (renderPath src n s).inReset = s.inReset := by unfold renderPath; split <;> rfl
@[simp] theorem renderPath_env : (renderPath src n s).env = s.env := by unfold renderPath; split <;> rfl

/-- A block of `n` frames has two words to a frame, on both paths. -/
theorem renderPath_responses : ∃ ws : List Word, ws.length = 2 * n ∧
    (renderPath src n s).ports = (emit ws s).ports := by
  cases hpower : s.power with
  | true =>
    rw [renderPath_on _ _ hpower]
    refine ⟨_, ?_, rfl⟩
    rw [outputFrames_length _ _ _ _ (by simp)]
    simp
  | false =>
    rw [renderPath_off _ _ hpower]
    exact ⟨_, List.length_replicate, rfl⟩

end

/-! ### What a legal command emits -/

section
variable (i : Instr) (s : State)

@[simp] theorem legalEffect_inReset : (legalEffect i s).inReset = s.inReset := by
  cases i with
  | render n => exact renderPath_inReset ..
  | _ => rfl

@[simp] theorem legalEffect_env : (legalEffect i s).env = s.env := by
  cases i with
  | render n => exact renderPath_env ..
  | _ => rfl

theorem legalEffect_responses : ∃ ws : List Word, ws.length = responseCount i ∧
    (legalEffect i s).ports = (emit ws s).ports := by
  cases i with
  | nop | setPower _ | setVolume _ | setColor _ | setBass _ | setTreble _ | reseed _ =>
    exact ⟨[], rfl, by rw [emit_nil]; rfl⟩
  | render n => exact renderPath_responses ..
  | getPower | getVolume | getColor | getBass | getTreble | getMasterVol | getStatus => exact ⟨_, rfl, rfl⟩

end

/-- Settles O26: an illegal command emits nothing, a legal one the words of its row. -/
theorem responsesAndOutsideFrame : Obligations.ResponsesAndOutsideFrame := by
  intro i s t hexec
  obtain ⟨c, hc, rfl⟩ | ⟨hlegal, rfl⟩ := exec_cases hexec
  · have hill : ¬ i.wellFormed := by simp [hc]
    exact ⟨rfl, rfl, rfl, rfl, [], (if_neg hill).symm, congrArg State.ports (emit_nil s).symm⟩
  · obtain ⟨ws, hlen, hports⟩ := legalEffect_responses i s
    exact ⟨legalEffect_rr i s, legalEffect_issuer i s, legalEffect_inReset i s, legalEffect_env i s, ws,
      hlen.trans (if_pos hlegal).symm, hports⟩

end Sys2Proof.Machine
end

section
/-!
SUPPORT. The hosts at the ports (20_memory.md R51 to R53, 70_reset_and_hazards.md R277): what a port does with a word or a
byte offered to it, the step of each host event, and a word sent byte by byte.
-/

namespace Sys2Proof.Machine

/-! ### What a port does with an offer -/

theorem Port.hasRoom_iff {port : Port} :
    port.hasRoom = true ↔ ∀ d, port.cmdDepth = some d → port.cmdq.length < d := by
  unfold Port.hasRoom
  cases port.cmdDepth <;> simp

theorem Port.hasRoom_of_full {port : Port} {d : Nat} (hd : port.cmdDepth = some d) (hfull : d ≤ port.cmdq.length) :
    port.hasRoom = false := by
  simp [Port.hasRoom, hd, hfull]

theorem Port.receive_of_room {port : Port} (h : port.hasRoom = true) (w : CmdWord) :
    port.receive w = { port with cmdq := port.cmdq ++ [w] } := if_pos h

theorem Port.receive_of_full {port : Port} (h : port.hasRoom = false) (w : CmdWord) : port.receive w = port :=
  if_neg (ne_true_of_eq_false h)

/-- A byte that completes no word joins the partial word (R53). -/
theorem Port.receiveByte_of_partial {port : Port} (h : port.rx.length < 15) (b : Byte) :
    port.receiveByte b = { port with rx := port.rx ++ [b] } := by
  have hlen : (port.rx ++ [b]).length ≠ 16 := by rw [List.length_append, List.length_singleton]; omega
  rw [Port.receiveByte, commandOfBytes_of_length_ne hlen]

/-- A byte that completes a word sends it, if there is room for it (R53, R277). -/
theorem Port.receiveByte_of_word {port : Port} {b : Byte} {w : CmdWord} (h : commandBytes w = port.rx ++ [b]) :
    port.receiveByte b = if port.hasRoom then { port with cmdq := port.cmdq ++ [w], rx := [] } else port := by
  rw [Port.receiveByte, ← h, commandOfBytes_commandBytes]

/-- Bytes that complete no word are held in order. -/
theorem Port.foldl_receiveByte_of_partial {bs : List Byte} {port : Port} (h : port.rx.length + bs.length < 16) :
    bs.foldl (fun p b => p.receiveByte b) port = { port with rx := port.rx ++ bs } := by
  induction bs generalizing port with
  | nil => rw [List.foldl_nil, List.append_nil]
  | cons b bs ih =>
    rw [List.length_cons] at h
    rw [List.foldl_cons, Port.receiveByte_of_partial (by omega), ih, List.append_assoc, List.singleton_append]
    rw [List.length_append, List.length_singleton]
    omega

theorem commandBytes_eq_take_concat (w : CmdWord) : ∃ b, commandBytes w = (commandBytes w).take 15 ++ [b] := by
  have hlast : 15 < (commandBytes w).length := by rw [commandBytes_length]; norm_num
  exact ⟨_, by rw [List.take_append_getElem hlast, List.take_of_length_le (commandBytes_length w).le]⟩

section
variable {port : Port} (hrx : port.rx = []) (w : CmdWord)
include hrx

/-- Fewer than sixteen bytes of a word are held. -/
theorem Port.foldl_receiveByte_take {k : Nat} (hk : k < 16) :
    ((commandBytes w).take k).foldl (fun p b => p.receiveByte b) port = { port with rx := (commandBytes w).take k } := by
  rw [Port.foldl_receiveByte_of_partial (by simpa [hrx] using hk), hrx, List.nil_append]

/-- Sixteen bytes of a word send it, or all but the last are held. -/
theorem Port.foldl_receiveByte_commandBytes :
    (commandBytes w).foldl (fun p b => p.receiveByte b) port =
      if port.hasRoom then { port with cmdq := port.cmdq ++ [w] } else { port with rx := (commandBytes w).take 15 } := by
  obtain ⟨b, hb⟩ := commandBytes_eq_take_concat w
  calc (commandBytes w).foldl (fun p b => p.receiveByte b) port
    _ = ((commandBytes w).take 15 ++ [b]).foldl (fun p b => p.receiveByte b) port := congrArg (List.foldl _ port) hb
    _ = Port.receiveByte b { port with rx := (commandBytes w).take 15 } := by
      rw [List.foldl_concat, Port.foldl_receiveByte_take hrx w (by norm_num)]
    _ = _ := by rw [Port.receiveByte_of_word hb, ← hrx]; rfl

end

/-- Settles O5: fifteen bytes of a word are held, and the sixteenth sends it if there is room. -/
theorem bytesDeliverWholeWords : Obligations.BytesDeliverWholeWords := by
  refine ⟨fun port w hrx hroom => ⟨?_, fun k hk => Port.foldl_receiveByte_take hrx w hk⟩,
    fun port w hrx hfull => ?_⟩
  · rw [Port.foldl_receiveByte_commandBytes hrx, if_pos hroom]
  · rw [Port.foldl_receiveByte_commandBytes hrx, if_neg (ne_true_of_eq_false hfull)]

/-! ### The step of a host event -/

theorem modify_eq_set_of_getElem? {α : Type} {l : List α} {i : Nat} {a : α} (h : l[i]? = some a) (f : α → α) :
    l.modify i f = l.set i (f a) := by
  rw [List.modify_eq_set_getElem?, h]; rfl

theorem set_of_getElem? {α : Type} {l : List α} {i : Nat} {a : α} (h : l[i]? = some a) : l.set i a = l := by
  obtain ⟨hi, rfl⟩ := List.getElem?_eq_some_iff.1 h
  exact List.set_getElem_self hi

section
variable {s : State} {p : Nat} {port : Port} {rest : List EnvEvent}
variable (hreset : s.inReset = false) (hport : s.ports[p]? = some port)
include hreset hport

theorem step_send {w : CmdWord} (he : s.env = .send p w :: rest) :
    step s = .next { s with env := rest, ports := s.ports.set p (port.receive w) } := by
  rw [step, he]
  simp [hostSend, hreset, modify_eq_set_of_getElem? hport]

theorem step_sendByte {b : Byte} (he : s.env = .sendByte p b :: rest) :
    step s = .next { s with env := rest, ports := s.ports.set p (port.receiveByte b) } := by
  rw [step, he]
  simp [hostSendByte, hreset, modify_eq_set_of_getElem? hport]

theorem step_take (he : s.env = .take p :: rest) :
    step s = .next { s with env := rest, ports := s.ports.set p { port with rspq := port.rspq.tail } } := by
  rw [step, he]
  simp [hostTake, hreset, modify_eq_set_of_getElem? hport]

end

/-- Settles O12: the steps of `send` and `take`; a word that finds no room leaves its port as it is. -/
theorem hostsSendAndTake : Obligations.HostsSendAndTake := by
  intro s p port w rest hreset hport
  refine ⟨fun he => ⟨fun hroom => ?_, fun d hd hfull => ?_⟩, step_take hreset hport⟩
  · rw [step_send hreset hport he, Port.receive_of_room (Port.hasRoom_iff.2 hroom)]
  · rw [step_send hreset hport he, Port.receive_of_full (Port.hasRoom_of_full hd hfull), set_of_getElem? hport]

/-- Settles O14: the step of `sendByte` in each case of the byte; any sixteen bytes are those of a word. -/
theorem hostsSendBytes : Obligations.HostsSendBytes := by
  intro s p port b rest hreset hport he
  rw [step_sendByte hreset hport he]
  refine ⟨fun hpartial => ?_, fun w hw => ⟨fun hroom => ?_, fun d hd hfull => ?_⟩, fun hlast => ?_⟩
  · rw [Port.receiveByte_of_partial hpartial]
  · rw [Port.receiveByte_of_word hw, if_pos (Port.hasRoom_iff.2 hroom)]
  · rw [Port.receiveByte_of_word hw, if_neg (by simp [Port.hasRoom_of_full hd hfull]), set_of_getElem? hport]
  · exact exists_commandBytes_eq (by rw [List.length_append, hlast, List.length_singleton])

end Sys2Proof.Machine
end

section
/-!
SUPPORT. The decoder's verdict on every word (30_encoding.md R71 to R77): the opcode map read in both directions, and
each verdict of `decode` as a condition on the word's fields.
-/

namespace Sys2Proof

variable {op : BitVec 8} {x : Word} {w : CmdWord} {i : Instr}

/-! ### The opcode map (R73) -/

/-- A command of kind X has its opcode at every operand. -/
theorem decodeOpcode_opcode_of_ignoresOperand (hi : i.ignoresOperand = true) (x : Word) :
    decodeOpcode i.opcode x = some i := by
  cases i <;> cases hi <;> rfl

theorem opcode_operand_of_decodeOpcode (h : decodeOpcode op x = some i) :
    op = i.opcode ∧ (i.ignoresOperand = false → x = i.operand) := by
  unfold decodeOpcode at h
  split at h <;> cases h <;> exact ⟨BitVec.eq_of_toNat_eq ‹_›, by simp [Instr.ignoresOperand, Instr.operand]⟩

theorem decodeOpcode_eq_some_iff :
    decodeOpcode op x = some i ↔ op = i.opcode ∧ (i.ignoresOperand = false → x = i.operand) := by
  refine ⟨opcode_operand_of_decodeOpcode, ?_⟩
  rintro ⟨rfl, hx⟩
  cases hi : i.ignoresOperand with
  | false => rw [hx hi, decodeOpcode_opcode]
  | true => exact decodeOpcode_opcode_of_ignoresOperand hi x

/-- R77: the reserved opcodes. -/
theorem decodeOpcode_eq_none_iff :
    decodeOpcode op x = none ↔ 0x08 ≤ op.toNat ∧ op.toNat ≤ 0x0F ∨ 0x17 ≤ op.toNat := by
  unfold decodeOpcode
  split
  case h_16 => -- no row of the map has the opcode
    simp only [imp_false, true_iff] at *
    omega
  all_goals simp only [reduceCtorEq, false_iff]; omega

/-- The opcodes of the table of R73. -/
theorem exists_decodeOpcode_eq_some_iff :
    (∃ i, decodeOpcode op x = some i) ↔ op.toNat ≤ 0x07 ∨ 0x10 ≤ op.toNat ∧ op.toNat ≤ 0x16 := by
  rw [← Option.ne_none_iff_exists', Ne, decodeOpcode_eq_none_iff]
  omega

/-! ### The verdicts (R74) -/

theorem decode_of_reservedField_ne (h : reservedField w ≠ 0) : decode w = .error .reservedBits := if_pos h

theorem decode_of_decodeOpcode_none (hr : reservedField w = 0)
    (h : decodeOpcode (opcodeField w) (operandField w) = none) : decode w = .error .unknownOpcode := by
  simp [decode, hr, h]

theorem decode_of_decodeOpcode_some (hr : reservedField w = 0)
    (h : decodeOpcode (opcodeField w) (operandField w) = some i) : decode w = .ok i := by
  simp [decode, hr, h]

/-- The checks of R74 in their order: each word's verdict, with the fields that give it. -/
theorem decode_cases (w : CmdWord) :
    (reservedField w ≠ 0 ∧ decode w = .error .reservedBits) ∨
    (reservedField w = 0 ∧ decodeOpcode (opcodeField w) (operandField w) = none ∧
      decode w = .error .unknownOpcode) ∨
    ∃ i, reservedField w = 0 ∧ decodeOpcode (opcodeField w) (operandField w) = some i ∧ decode w = .ok i := by
  by_cases hr : reservedField w = 0
  · cases ho : decodeOpcode (opcodeField w) (operandField w) with
    | none => exact .inr (.inl ⟨hr, rfl, decode_of_decodeOpcode_none hr ho⟩)
    | some i => exact .inr (.inr ⟨i, hr, rfl, decode_of_decodeOpcode_some hr ho⟩)
  · exact .inl ⟨hr, decode_of_reservedField_ne hr⟩

theorem decode_eq_reservedBits_iff : decode w = .error .reservedBits ↔ reservedField w ≠ 0 := by
  obtain ⟨hr, hd⟩ | ⟨hr, -, hd⟩ | ⟨i, hr, -, hd⟩ := decode_cases w <;> simp_all

theorem decode_eq_unknownOpcode_iff : decode w = .error .unknownOpcode ↔
    reservedField w = 0 ∧ decodeOpcode (opcodeField w) (operandField w) = none := by
  obtain ⟨hr, hd⟩ | ⟨hr, ho, hd⟩ | ⟨i, hr, ho, hd⟩ := decode_cases w <;> simp_all

theorem decode_eq_ok_iff : decode w = .ok i ↔
    reservedField w = 0 ∧ decodeOpcode (opcodeField w) (operandField w) = some i := by
  obtain ⟨hr, hd⟩ | ⟨hr, ho, hd⟩ | ⟨j, hr, ho, hd⟩ := decode_cases w <;> simp_all

/-- Settles O2: each verdict of `decode`, with the range of opcodes on which the map answers. -/
theorem decodeVerdicts : Obligations.DecodeVerdicts := by
  refine fun w => ⟨decode_eq_reservedBits_iff, ?_, ?_⟩
  · rw [decode_eq_unknownOpcode_iff, decodeOpcode_eq_none_iff]
  · simp only [decode_eq_ok_iff, exists_and_left, exists_decodeOpcode_eq_some_iff]

/-- Settles O3: a command comes from its opcode, whose operand counts unless the command is of kind X. -/
theorem decodeIffFields : Obligations.DecodeIffFields := by
  intro w i
  rw [decode_eq_ok_iff, decodeOpcode_eq_some_iff]

/-! ### The worked encodings (R81) -/

/-- The words of a table that the encoder writes are words that the decoder reads. -/
theorem decode_and_encode_of_mem {table : List (Instr × CmdWord)} (htable : ∀ row ∈ table, encode row.1 = row.2)
    (h : (i, w) ∈ table) : decode w = .ok i ∧ encode i = w := by
  obtain rfl : encode i = w := htable (i, w) h
  exact ⟨decode_encode i, rfl⟩

/-- Settles O1: the encoder writes every word of the table, and the two illegal words fail one check of R74 each. -/
theorem workedEncodings : Obligations.WorkedEncodings :=
  ⟨fun _ _ => decode_and_encode_of_mem (by decide), decode_eq_unknownOpcode_iff.2 (by decide),
    decode_of_reservedField_ne (by decide)⟩

end Sys2Proof
end

section
/-!
SUPPORT. The steps of the five colours (40_noise_generator.md R106 to R110) and what a mono block makes of them (R105,
R113): the registers it writes, the draws it takes and its samples.
-/

namespace Sys2Proof.Machine

/-! ### The recurrences (R106 to R110) -/

/-- The coefficients of the seven taps, as patterns (R107). -/
theorem pinkTaps_eq (w : B64) (p : Pink) :
    pinkTaps w p = ⟨pinkTap 0x3FC0902DE00D1B71#64 w p.k0, pinkTap 0x3FC8000000000000#64 w p.k1,
      pinkTap 0x3FCEE631F8A0902E#64 w p.k2, pinkTap 0x3FD35DCC63F14120#64 w p.k3, pinkTap 0x3FD883126E978D50#64 w p.k4,
      pinkTap 0x3FDFC1BDA5119CE0#64 w p.k5, pinkTap 0x3FE70624DD2F1AA0#64 w p.k6⟩ := by
  have h0 : literal 1294 10000 = 0x3FC0902DE00D1B71#64 := by decide +kernel
  have h1 : literal 1875 10000 = 0x3FC8000000000000#64 := by decide +kernel
  have h2 : literal 2414 10000 = 0x3FCEE631F8A0902E#64 := by decide +kernel
  have h3 : literal 3026 10000 = 0x3FD35DCC63F14120#64 := by decide +kernel
  have h4 : literal 3830 10000 = 0x3FD883126E978D50#64 := by decide +kernel
  have h5 : literal 4962 10000 = 0x3FDFC1BDA5119CE0#64 := by decide +kernel
  have h6 : literal 7195 10000 = 0x3FE70624DD2F1AA0#64 := by decide +kernel
  rw [pinkTaps, h0, h1, h2, h3, h4, h5, h6]

theorem literal_pinkScale : literal 25 10 = 0x4004000000000000#64 := by decide +kernel

theorem literal_brownRate : literal 2 100 = 0x3F947AE147AE147B#64 := by decide +kernel

theorem literal_brownLeak : literal 102 100 = 0x3FF051EB851EB852#64 := by decide +kernel

theorem literal_brownScale : literal 35 10 = 0x400C000000000000#64 := by decide +kernel

/-- Settles O42: each step is its rule, with the decimal literals read as the patterns of the specification. -/
theorem colourRecurrences : Obligations.ColourRecurrences := by
  intro w v sl
  refine ⟨rfl, ?pink, ?brown, rfl, rfl⟩
  case pink =>
    simp only [colorStep, pinkStep, pinkTaps_eq, literal_pinkScale]
    rfl
  case brown => simp only [colorStep, brownStep, literal_brownRate, literal_brownLeak, literal_brownScale]

/-! ### The registers that a block writes (R105) -/

theorem slotsAgreeExcept_refl (c : Color) (sl : Slot) : slotsAgreeExcept c sl sl := by cases c <;> rfl

theorem slotsAgreeExcept_trans {c : Color} {sl₁ sl₂ sl₃ : Slot} (h₁₂ : slotsAgreeExcept c sl₁ sl₂)
    (h₂₃ : slotsAgreeExcept c sl₂ sl₃) : slotsAgreeExcept c sl₁ sl₃ := by
  cases c <;> exact Eq.trans h₁₂ (by rw [h₂₃])

theorem colorStep_slot (c : Color) (w v : B64) (sl : Slot) : slotsAgreeExcept c (colorStep c w v sl).2 sl := by
  cases c <;> rfl

theorem generatePure_slot (src : WhiteSource) (c : Color) (v : B64) (n : Nat) (sl : Slot) (S : Nat) :
    slotsAgreeExcept c (generatePure src c v n sl S).slot sl := by
  induction n generalizing sl S with
  | zero => exact slotsAgreeExcept_refl c sl
  | succ n ih => exact slotsAgreeExcept_trans (ih _ _) (colorStep_slot c _ v sl)

section
variable {src : WhiteSource} {slider : B64} {n : Nat} {v : B64} {p q : Slot} {S : Nat}

theorem generateBlended_of_pure {c : Color} (h : select slider = .pure c) :
    generateBlended src slider n v p q S =
      ⟨(generatePure src c v n p S).out, (generatePure src c v n p S).slot, q, (generatePure src c v n p S).rng⟩ := by
  rw [generateBlended, h]

/-- The lo run takes `n` draws, and the hi run goes on from there. -/
theorem generateBlended_of_blend {lo hi : Color} {t : B64} (h : select slider = .blend lo hi t) :
    generateBlended src slider n v p q S =
      (let a := generatePure src lo v n p S
       let b := generatePure src hi v n q ((fun x => (src.draw x).2)^[n] S)
       ⟨crossfade t (fsub (whole 1) t) a.out b.out, a.slot, b.slot, b.rng⟩) := by
  rw [generateBlended, h, ← (generatePure_spec src lo v n p S).1]

end

/-- Settles O39: every step of a run writes its colour's registers only. -/
theorem blocksWriteOnlySelectedRegisters : Obligations.BlocksWriteOnlySelectedRegisters := by
  refine fun src slider v n p q S => ⟨fun c h => ?pure, fun lo hi t h => ?blend⟩
  case pure =>
    rw [generateBlended_of_pure h]
    exact ⟨generatePure_slot src c v n p S, rfl⟩
  case blend =>
    rw [generateBlended_of_blend h]
    exact ⟨generatePure_slot src lo v n p S, generatePure_slot src hi v n q _⟩

/-! ### The draws and the samples of a block (R101, R113) -/

/-- Draws go on from where `n` draws left the source. -/
theorem drawnSample_after (src : WhiteSource) (S n j : Nat) :
    drawnSample src ((fun x => (src.draw x).2)^[n] S) j = drawnSample src S (n + j) := by
  rw [drawnSample, drawnSample, Nat.add_comm n j, Function.iterate_add_apply]

theorem crossfade_getElem? {t omt : B64} {a b : List B64} {j : Nat} (ha : j < a.length) (hb : j < b.length) :
    (crossfade t omt a b)[j]? = some (fadd (fmul (a.getD j 0) omt) (fmul (b.getD j 0) t)) := by
  simp [crossfade, ha, hb]

/-- Settles O40: both runs are runs of their colour, the second one from where the first left the source. -/
theorem blocksTakeTheirDraws : Obligations.BlocksTakeTheirDraws := by
  refine fun src slider v n p q S => ⟨generateBlended_length .., fun c h => ?pure, fun lo hi t h => ?blend⟩
  case pure =>
    rw [generateBlended_of_pure h]
    exact generatePure_spec src c v n p S
  case blend =>
    rw [generateBlended_of_blend h]
    obtain ⟨hrng, hrun⟩ := generatePure_spec src hi v n q ((fun x => (src.draw x).2)^[n] S)
    simp only [drawnSample_after] at hrun
    refine ⟨?_, _, _, (generatePure_spec src lo v n p S).2, hrun, fun j hj => ?_⟩
    · rw [two_mul, Function.iterate_add_apply]
      exact hrng
    · have hone : whole 1 = 0x3FF0000000000000#64 := by decide +kernel
      rw [← hone]
      exact crossfade_getElem? (by rwa [generatePure_length]) (by rwa [generatePure_length])

end Sys2Proof.Machine
end

section
/-!
SUPPORT. The reference white source (40_noise_generator.md R102, R103): a sample is a multiple of 2^-52, which its
rounding leaves as it is.
-/

namespace Sys2Proof.Machine

/-! ### Whole multiples of a power of two -/

/-- A number of at most 53 bits times `2 ^ e` units is a binary64 magnitude: the significand has its top bit at the
place of 2^52, and the exponent is as much smaller. -/
theorem exists_scaledMag_eq {a e : Nat} (ha : a < 2 ^ 53) (he : 52 ≤ e) : ∃ m, scaledMag m = a * 2 ^ e := by
  rcases Nat.eq_zero_or_pos a with rfl | hpos
  · exact ⟨0, by rw [scaledMag_zero, Nat.zero_mul]⟩
  · have hlog : a.log2 < 53 := (Nat.log2_lt hpos.ne').2 ha
    have hsig : 2 ^ 52 ≤ a * 2 ^ (52 - a.log2) ∧ a * 2 ^ (52 - a.log2) ≤ 2 ^ 53 := by
      have hlo := Nat.mul_le_mul_right (2 ^ (52 - a.log2)) (Nat.log2_self_le hpos.ne')
      have hhi := Nat.mul_le_mul_right (2 ^ (52 - a.log2)) (Nat.lt_log2_self (n := a)).le
      rw [← pow_add] at hlo hhi
      rw [show a.log2 + (52 - a.log2) = 52 by omega] at hlo
      rw [show a.log2 + 1 + (52 - a.log2) = 53 by omega] at hhi
      exact ⟨hlo, hhi⟩
    refine ⟨(e - (52 - a.log2)) * 2 ^ 52 + a * 2 ^ (52 - a.log2), ?_⟩
    have hexp : 52 - a.log2 + (e - (52 - a.log2)) = e := by omega
    rw [scaledMag_code hsig.2 (.inr hsig.1), Nat.mul_assoc, ← pow_add, hexp]

/-- The value of a pattern whose magnitude is that of `j * c` units and whose sign is that of `j`. -/
theorem scaledInt_pack {j : Int} {m c : Nat} (hm : scaledMag m = j.natAbs * c) (hlt : m < 2 ^ 63) :
    scaledInt (pack (decide (j < 0)) m) = j * c := by
  rw [scaledInt, scaled, signBit_pack _ hlt, magBits_pack _ hlt, hm, Nat.cast_mul, Int.natCast_natAbs]
  by_cases hj : j < 0
  · rw [if_pos (by simpa using hj), abs_of_neg hj, neg_mul, neg_neg]
  · rw [if_neg (by simpa using hj), abs_of_nonneg (not_lt.1 hj)]

theorem isFinite_pack (neg : Bool) {m : Nat} (h : m < infMag) : isFinite (pack neg m) = true := by
  simpa [isFinite, magBits_pack neg (h.trans infMag_lt)] using h

/-- The order of values in units. -/
theorem inRange_iff_scaledInt {lo hi v : B64} : inRange lo hi v = true ↔
    isNaN v = false ∧ isNaN lo = false ∧ isNaN hi = false ∧
      scaledInt lo ≤ scaledInt v ∧ scaledInt v ≤ scaledInt hi := by
  simp only [inRange_iff, scaledInt_eq, scaledKey_le_iff]

/-! ### A white sample (R103) -/

/-- The magnitude of `a / 2^52`, for `a` up to 2^52, is exact. -/
theorem scaledMag_sample {a : Nat} (ha : a ≤ 2 ^ 52) :
    scaledMag (roundMag (a * unitsPerOne) (2 ^ 52)) = a * 2 ^ 1022 ∧ roundMag (a * unitsPerOne) (2 ^ 52) < infMag := by
  have hone : scaledMag 0x3FF0000000000000 = 2 ^ 52 * 2 ^ 1022 := by decide +kernel
  obtain ⟨m, hm⟩ := exists_scaledMag_eq (a := a) (e := 1022) (by omega) (by norm_num)
  have hle : m ≤ 0x3FF0000000000000 := by
    rw [← scaledMag_le_iff, hm, hone]
    exact Nat.mul_le_mul_right _ ha
  have hfin : m < infMag := hle.trans_lt (by decide)
  have hround : roundMag (a * unitsPerOne) (2 ^ 52) = m := by
    rw [← roundMag_scaledMag (d := 2 ^ 52) (by norm_num) hfin.le, hm, unitsPerOne, Nat.mul_assoc, ← pow_add]
  rw [hround]
  exact ⟨hm, hfin⟩

/-- The sample of `z` is `(K - 2^52) / 2^52` with `K` the top 53 bits of `z`, and it is finite. -/
theorem whiteOf_exact (z : Word) :
    scaledInt (whiteOf z) = ((z.toNat / 2 ^ 11 : Nat) - 2 ^ 52 : Int) * 2 ^ 1022 ∧ isFinite (whiteOf z) = true := by
  have hz : (z >>> 11).toNat = z.toNat / 2 ^ 11 := by rw [BitVec.toNat_ushiftRight, Nat.shiftRight_eq_div_pow]
  rw [whiteOf, hz]
  obtain ⟨hval, hfin⟩ := scaledMag_sample (a := ((z.toNat / 2 ^ 11 : Nat) - 2 ^ 52 : Int).natAbs) (by omega)
  have hlt := hfin.trans infMag_lt
  have hsample := scaledInt_pack hval hlt
  rw [Nat.cast_pow, Nat.cast_ofNat] at hsample
  exact ⟨hsample, isFinite_pack _ hfin⟩

/-- The sample lies in `[-1, 1 - 2^-52]`: from 0 to 2^53 - 1 is all that `K` can be. -/
theorem whiteOf_inRange (z : Word) : inRange 0xBFF0000000000000#64 0x3FEFFFFFFFFFFFFE#64 (whiteOf z) = true := by
  obtain ⟨hval, hfin⟩ := whiteOf_exact z
  have hlo : scaledInt 0xBFF0000000000000#64 = -2 ^ 52 * 2 ^ 1022 := by decide +kernel
  have hhi : scaledInt 0x3FEFFFFFFFFFFFFE#64 = (2 ^ 52 - 1) * 2 ^ 1022 := by decide +kernel
  rw [inRange_iff_scaledInt, hval, hlo, hhi]
  exact ⟨isNaN_of_isFinite hfin, by decide, by decide, Int.mul_le_mul_of_nonneg_right (by omega) (by positivity),
    Int.mul_le_mul_of_nonneg_right (by omega) (by positivity)⟩

/-- Settles O41: a draw is the sample of the mixed word, whatever the word. -/
theorem drawsAreExact : Obligations.DrawsAreExact := by
  refine ⟨fun S => ?_, by decide, by decide +kernel⟩
  have hdraw : splitMix64.draw S.toNat = (whiteOf (mix64 (rngNext S)), (rngNext S).toNat) := by
    simp [splitMix64]
  intro S' z₁ z₂ z d
  obtain ⟨hval, hfin⟩ := whiteOf_exact z
  have hd : d = (whiteOf z, S'.toNat) := hdraw
  rw [hd]
  exact ⟨hval, hfin, whiteOf_inRange z, rfl⟩

end Sys2Proof.Machine
end

section
/-!
SUPPORT. The ranges of white, blue and violet (40_noise_generator.md R106, R109, R110): a difference of two values of a
range lies in the range of twice the bounds, which binary64 values hold exactly.
-/

namespace Sys2Proof.Machine

theorem isFinite_of_inRange {m x : B64} (hm : isFinite m = true) (h : inRange (fneg m) m x = true) :
    isFinite x = true := by
  rw [inRange_iff, orderKey_fneg] at h
  rw [isFinite_iff] at hm ⊢
  omega

/-- Where `M` is twice `m`, the difference of two values of `[-m, m]` lies in `[-M, M]`, after rounding too. -/
theorem fsub_inRange_double {m M a b : B64} (hm : isFinite m = true) (hM : isFinite M = true)
    (hdouble : scaledInt M = 2 * scaledInt m) (ha : inRange (fneg m) m a = true) (hb : inRange (fneg m) m b = true) :
    inRange (fneg M) M (fsub a b) = true := by
  have ha' := isFinite_of_inRange hm ha
  have hb' := isFinite_of_inRange hm hb
  have hkey : (orderKey M).natAbs ≤ infMag := (isFinite_iff.1 hM).le
  have hvalue : scaledKey (orderKey M) = scaledInt M := (scaledInt_eq M).symm
  rw [inRange_iff_scaledInt, scaledInt_fneg] at ha hb
  obtain ⟨-, -, -, haLo, haHi⟩ := ha
  obtain ⟨-, -, -, hbLo, hbHi⟩ := hb
  rw [inRange_iff, isNaN_fneg, orderKey_fneg, orderKey_fsub ha' hb']
  refine ⟨isNaN_fsub ha' hb', isNaN_of_isFinite hM, isNaN_of_isFinite hM, le_roundKey_of_le one_pos ?_ ?_,
    roundKey_le_of_le one_pos hkey ?_⟩
  · rwa [Int.natAbs_neg]
  · rw [scaledKey_neg, hvalue, Nat.cast_one, mul_one]; omega
  · rw [hvalue, Nat.cast_one, mul_one]; omega

/-- The difference of two values of `[-1, 1]`. -/
theorem fsub_unit_inRange {a b : B64} (ha : inRange 0xBFF0000000000000#64 0x3FF0000000000000#64 a = true)
    (hb : inRange 0xBFF0000000000000#64 0x3FF0000000000000#64 b = true) :
    inRange 0xC000000000000000#64 0x4000000000000000#64 (fsub a b) = true :=
  fsub_inRange_double (m := 0x3FF0000000000000#64) (M := 0x4000000000000000#64) (by decide) (by decide)
    (by decide +kernel) ha hb

/-- The difference of two values of `[-2, 2]`. -/
theorem fsub_two_inRange {a b : B64} (ha : inRange 0xC000000000000000#64 0x4000000000000000#64 a = true)
    (hb : inRange 0xC000000000000000#64 0x4000000000000000#64 b = true) :
    inRange 0xC010000000000000#64 0x4010000000000000#64 (fsub a b) = true :=
  fsub_inRange_double (m := 0x4000000000000000#64) (M := 0x4010000000000000#64) (by decide) (by decide)
    (by decide +kernel) ha hb

/-- The volume 1.0 leaves a value of a finite range as it is (R100). -/
theorem fmul_one_of_inRange {m x : B64} (hm : isFinite m = true) (h : inRange (fneg m) m x = true) :
    fmul x 0x3FF0000000000000#64 = x := by
  have hone : whole 1 = 0x3FF0000000000000#64 := by decide +kernel
  rw [← hone, fmul_one (isFinite_of_inRange hm h)]

/-- Settles O43: the outputs are the white sample, its first and its second difference. -/
theorem differenceColoursStayInRange : Obligations.DifferenceColoursStayInRange := by
  intro w sl hw
  refine ⟨fmul_one_of_inRange (m := 0x3FF0000000000000#64) (by decide) hw, fun hblueW => ?blue,
    fun hviolW hviolB => ?violet⟩
  case blue =>
    have hdiff := fsub_unit_inRange hw hblueW
    rw [colorStep, blueStep, fmul_one_of_inRange (m := 0x4000000000000000#64) (by decide) hdiff]
    exact hdiff
  case violet =>
    have hdiff := fsub_unit_inRange hw hviolW
    have hdiff2 := fsub_two_inRange hdiff hviolB
    rw [colorStep, violetStep, fmul_one_of_inRange (m := 0x4010000000000000#64) (by decide) hdiff2]
    exact ⟨hdiff2, hdiff⟩

end Sys2Proof.Machine
end

section
/-!
SUPPORT. Colour selection (40_noise_generator.md R111, R112, R114). The blend factor of a pair rises with the slider, so
each of the two thresholds of R112 is passed at one edge: a slider value below which it is never passed, and from whose
successor on it always is.
-/

namespace Sys2Proof.Machine

/-! ### The order of values -/

theorem fle_trans {a b c : B64} (hab : fle a b = true) (hbc : fle b c = true) : fle a c = true := by
  rw [fle_iff] at *
  exact ⟨hab.1, hbc.2.1, hab.2.2.trans hbc.2.2⟩

/-- A value past `a` is past every value up to `a`. -/
theorem fle_eq_false_of_past {s a : B64} (h : fle s a = false) {e : B64} (he : fle e a = true) : fle s e = false := by
  rw [← Bool.not_eq_true] at *
  exact fun hse => h (fle_trans hse he)

theorem fle_eq_false_iff {a b : B64} (ha : isNaN a = false) (hb : isNaN b = false) :
    fle a b = false ↔ orderKey b < orderKey a := by
  simp [fle, ha, hb]

theorem fle_of_fle_eq_false {a b : B64} (ha : isNaN a = false) (hb : isNaN b = false) (h : fle a b = false) :
    fle b a = true :=
  fle_iff.2 ⟨hb, ha, ((fle_eq_false_iff ha hb).1 h).le⟩

/-! ### The pairs of anchors (R111) -/

def brownPink : AnchorPair := ⟨0, .brown, 0x4039000000000000#64, .pink⟩
def pinkWhite : AnchorPair := ⟨0x4039000000000000#64, .pink, 0x4049000000000000#64, .white⟩
def whiteBlue : AnchorPair := ⟨0x4049000000000000#64, .white, 0x4052C00000000000#64, .blue⟩
def blueViolet : AnchorPair := ⟨0x4052C00000000000#64, .blue, 0x4059000000000000#64, .violet⟩

def anchorPairs : List AnchorPair := [brownPink, pinkWhite, whiteBlue, blueViolet]

theorem lowerPairs_eq : lowerPairs = [brownPink, pinkWhite, whiteBlue] := by decide +kernel

theorem lastPair_eq : lastPair = blueViolet := by decide +kernel

/-- The pair of a slider that is not negative: the first one that ends at or after it. -/
theorem bracketing_eq {s : B64} (hs : isNaN s = false) (h0 : fle 0 s = true) :
    bracketing s =
      if fle s 0x4039000000000000#64 then brownPink
      else if fle s 0x4049000000000000#64 then pinkWhite
      else if fle s 0x4052C00000000000#64 then whiteBlue
      else blueViolet := by
  have h0' : fle 0#64 s = true := h0
  have hpast {e : B64} (he : isNaN e = false) (h : fle s e = false) : fle e s = true := fle_of_fle_eq_false hs he h
  rw [bracketing, lowerPairs_eq, lastPair_eq]
  cases h25 : fle s 0x4039000000000000#64 with
  | true => simp [brownPink, h0', h25]
  | false =>
    cases h50 : fle s 0x4049000000000000#64 with
    | true => simp [brownPink, pinkWhite, h25, h50, hpast (by decide) h25]
    | false => cases h75 : fle s 0x4052C00000000000#64 <;>
        simp [brownPink, pinkWhite, whiteBlue, h25, h50, h75, hpast (by decide) h50]

/-! ### The blend factor (R112) -/

/-- A slider value that is no further from 0 than the last anchor. -/
abbrev SliderInRange (s : B64) : Prop := inRange (fneg 0x4059000000000000#64) 0x4059000000000000#64 s = true

/-- The anchors are slider values, and each pair is 25 wide. -/
theorem anchorPairs_spec :
    ∀ p ∈ anchorPairs, SliderInRange p.loPos ∧ fsub p.hiPos p.loPos = 0x4039000000000000#64 := by
  decide +kernel

theorem blendFactor_of_mem {p : AnchorPair} (hp : p ∈ anchorPairs) (s : B64) :
    blendFactor s p = fdiv (fsub s p.loPos) 0x4039000000000000#64 := by
  rw [blendFactor, (anchorPairs_spec p hp).2]

theorem isFinite_fsub_slider {s s' : B64} (hs : SliderInRange s) (hs' : SliderInRange s') :
    isFinite (fsub s s') = true :=
  isFinite_of_inRange (m := 0x4069000000000000#64) (by decide)
    (fsub_inRange_double (by decide) (by decide) (by decide +kernel) hs hs')

theorem fsub_mono {a b c : B64} (ha : isFinite a = true) (hb : isFinite b = true) (hc : isFinite c = true)
    (h : fle a b = true) : orderKey (fsub a c) ≤ orderKey (fsub b c) := by
  have hval : scaledInt a ≤ scaledInt b := by
    rw [scaledInt_eq, scaledInt_eq, scaledKey_le_iff]
    exact (fle_iff.1 h).2.2
  rw [orderKey_fsub ha hc, orderKey_fsub hb hc]
  exact roundKey_mono one_pos one_pos (by rw [Nat.cast_one]; omega)

theorem fdiv_mono {a b c : B64} (ha : isFinite a = true) (hb : isFinite b = true) (hc : isFinite c = true)
    (hpos : 0 < orderKey c) (h : orderKey a ≤ orderKey b) : fle (fdiv a c) (fdiv b c) = true := by
  have h0 : isZero c = false := by rw [← Bool.not_eq_true, isZero_iff]; omega
  have hval : scaledInt a ≤ scaledInt b := by rwa [scaledInt_eq, scaledInt_eq, scaledKey_le_iff]
  rw [fle_iff, orderKey_fdiv ha hc hpos, orderKey_fdiv hb hc hpos]
  refine ⟨isNaN_fdiv ha hc h0, isNaN_fdiv hb hc h0, roundKey_mono (scaled_pos h0) (scaled_pos h0) ?_⟩
  gcongr

/-- The blend factor rises with the slider. -/
theorem blendFactor_mono {p : AnchorPair} (hp : p ∈ anchorPairs) {s s' : B64} (hs : SliderInRange s)
    (hs' : SliderInRange s') (h : fle s s' = true) : fle (blendFactor s p) (blendFactor s' p) = true := by
  have hlo := (anchorPairs_spec p hp).1
  have hfin {x : B64} (hx : SliderInRange x) : isFinite x = true := isFinite_of_inRange (by decide) hx
  rw [blendFactor_of_mem hp, blendFactor_of_mem hp]
  exact fdiv_mono (isFinite_fsub_slider hs hlo) (isFinite_fsub_slider hs' hlo) (by decide) (by decide)
    (fsub_mono (hfin hs) (hfin hs') (hfin hlo) h)

/-! ### The edges (R114) -/

/-- The blend factor is at most 0.001: the pair's lo colour is selected. -/
def nearLo (p : AnchorPair) (s : B64) : Bool := fle (blendFactor s p) (literal 1 1000)

/-- The blend factor is below 0.999: the pair's hi colour is not selected. -/
def belowHi (p : AnchorPair) (s : B64) : Bool := !fle (literal 999 1000) (blendFactor s p)

/-- `e` is the last slider value that passes a test. -/
abbrev IsEdge (test : B64 → Bool) (e : B64) : Prop :=
  SliderInRange e ∧ SliderInRange (e + 1) ∧ orderKey (e + 1) = orderKey e + 1 ∧ test e = true ∧ test (e + 1) = false

/-- The last slider value at which a pair selects its lo colour, and the last one at which it does not select its hi. -/
abbrev HasEdges (p : AnchorPair) (eLo eHi : B64) : Prop :=
  p ∈ anchorPairs ∧ IsEdge (nearLo p) eLo ∧ IsEdge (belowHi p) eHi

/-- A test that every smaller value passes too is the comparison with its edge. -/
theorem IsEdge.eq_fle {test : B64 → Bool} {e s : B64} (he : IsEdge test e) (hs : SliderInRange s)
    (hdown : ∀ {a b : B64}, SliderInRange a → SliderInRange b → fle a b = true → test b = true → test a = true) :
    test s = fle s e := by
  obtain ⟨hin, hinNext, hnext, hat, hbeyond⟩ := he
  cases hse : fle s e with
  | true => exact hdown hs hin hse hat
  | false =>
    have hle : fle (e + 1) s = true := by
      rw [fle_eq_false_iff (isNaN_of_inRange hs) (isNaN_of_inRange hin)] at hse
      exact fle_iff.2 ⟨isNaN_of_inRange hinNext, isNaN_of_inRange hs, by omega⟩
    by_contra htest
    rw [hdown hinNext hs hle (by simpa using htest)] at hbeyond
    cases hbeyond

section
variable {p : AnchorPair} (hp : p ∈ anchorPairs) {e s : B64} (hs : SliderInRange s)
include hp hs

theorem nearLo_eq_fle (he : IsEdge (nearLo p) e) : nearLo p s = fle s e :=
  he.eq_fle hs fun ha hb hab hpass => fle_trans (blendFactor_mono hp ha hb hab) hpass

theorem belowHi_eq_fle (he : IsEdge (belowHi p) e) : belowHi p s = fle s e := by
  refine he.eq_fle hs fun ha hb hab hpass => ?_
  rw [belowHi, Bool.not_eq_true', ← Bool.not_eq_true] at *
  exact fun h => hpass (fle_trans h (blendFactor_mono hp ha hb hab))

end

theorem whole_hundred : whole 100 = 0x4059000000000000#64 := by decide +kernel

/-- Strictly between the first and the last anchor, what a pair with given edges selects. -/
theorem select_of_edges {s eLo eHi : B64} (hs : isNaN s = false) (h0 : fle s 0 = false)
    (h100 : fle 0x4059000000000000#64 s = false) {p : AnchorPair} (hp : bracketing s = p)
    (hedges : HasEdges p eLo eHi) :
    select s =
      if fle s eLo then .pure p.lo
      else if fle s eHi then .blend p.lo p.hi (fdiv (fsub s p.loPos) 0x4039000000000000#64)
      else .pure p.hi := by
  obtain ⟨hmem, hLo, hHi⟩ := hedges
  have hpos : fle 0 s = true := fle_of_fle_eq_false hs (by decide) h0
  have hrange : SliderInRange s := by
    rw [SliderInRange, inRange, fle_trans (b := 0) (by decide) hpos, fle_of_fle_eq_false (by decide) hs h100]
    rfl
  rw [← nearLo_eq_fle hmem hrange hLo, ← belowHi_eq_fle hmem hrange hHi, ← blendFactor_of_mem hmem]
  simp only [select, h0, whole_hundred, h100, hp, nearLo, belowHi, Bool.false_eq_true, if_false, Bool.not_eq_true',
    ← Bool.not_eq_true, ite_not]

theorem hasEdges_brownPink : HasEdges brownPink 0x3F9999999999999A#64 0x4038F99999999999#64 := by decide +kernel

theorem hasEdges_pinkWhite : HasEdges pinkWhite 0x4039066666666666#64 0x4048FCCCCCCCCCCC#64 := by decide +kernel

theorem hasEdges_whiteBlue : HasEdges whiteBlue 0x4049033333333333#64 0x4052BE6666666666#64 := by decide +kernel

theorem hasEdges_blueViolet : HasEdges blueViolet 0x4052C19999999999#64 0x4058FE6666666666#64 := by decide +kernel

theorem select_of_le_zero {s : B64} (h : fle s 0 = true) : select s = .pure .brown := if_pos h

theorem select_of_hundred_le {s : B64} (h : fle 0x4059000000000000#64 s = true) : select s = .pure .violet := by
  have h0 : ¬ fle s 0 = true := fun hs => absurd (fle_trans h hs) (by decide)
  rw [select, if_neg h0, whole_hundred, if_pos h]

/-- Settles O38: the four pairs' edges, in the order of the table; a pair's hi colour is the next one's lo colour. -/
theorem selectionFollowsTheTable : Obligations.SelectionFollowsTheTable := by
  intro s hs t
  cases h0 : fle s 0 with
  | true => rw [select_of_le_zero h0, if_pos (fle_trans h0 (by decide))]
  | false =>
  cases h100 : fle 0x4059000000000000#64 s with
  | true =>
    have hbeyond : fle s 0x4058FE6666666666#64 = false :=
      Bool.eq_false_iff.2 fun hle => absurd (fle_trans h100 hle) (by decide)
    simp (disch := decide) only [select_of_hundred_le h100, fle_eq_false_of_past hbeyond, Bool.false_eq_true, if_false]
  | false =>
  have hpair := bracketing_eq hs (fle_of_fle_eq_false hs (by decide) h0)
  cases h25 : fle s 0x4039000000000000#64 with
  | true =>
    rw [if_pos h25] at hpair
    rw [select_of_edges hs h0 h100 hpair hasEdges_brownPink]
    simp (disch := decide) only [fle_trans h25, if_true]
    rfl
  | false =>
  rw [h25, if_neg Bool.false_ne_true] at hpair
  cases h50 : fle s 0x4049000000000000#64 with
  | true =>
    rw [if_pos h50] at hpair
    rw [select_of_edges hs h0 h100 hpair hasEdges_pinkWhite]
    simp (disch := decide) only [fle_eq_false_of_past h25, fle_trans h50, Bool.false_eq_true, if_false, if_true]
    rfl
  | false =>
  rw [h50, if_neg Bool.false_ne_true] at hpair
  cases h75 : fle s 0x4052C00000000000#64 with
  | true =>
    rw [if_pos h75] at hpair
    rw [select_of_edges hs h0 h100 hpair hasEdges_whiteBlue]
    simp (disch := decide) only [fle_eq_false_of_past h50, fle_trans h75, Bool.false_eq_true, if_false, if_true]
    rfl
  | false =>
  rw [h75, if_neg Bool.false_ne_true] at hpair
  rw [select_of_edges hs h0 h100 hpair hasEdges_blueViolet]
  simp (disch := decide) only [fle_eq_false_of_past h75, Bool.false_eq_true, if_false]
  rfl

end Sys2Proof.Machine
end

section
/-!
SUPPORT. `Process` (41_biquad_filter.md R158): the difference equation over the inputs and outputs in sequence.
-/

namespace Sys2Proof.Machine

theorem process_cons (f : Biquad) (x : B64) (xs : List B64) :
    process f (x :: xs) = ((f.step x).1 :: (process (f.step x).2 xs).1, (process (f.step x).2 xs).2) := rfl

/-- Settles O44, by induction over the buffer: after a sample the delay registers begin the two sequences again, one
place further on. -/
theorem processFollowsTheDifferenceEquation : Obligations.ProcessFollowsTheDifferenceEquation := by
  intro f buf
  refine ⟨process_length f buf, ?outputs, process_coef f buf, ?delays⟩
  case outputs =>
    induction buf generalizing f with
    | nil => exact fun i hi => absurd hi (Nat.not_lt_zero i)
    | cons x xs ih =>
      intro i hi
      rw [process_cons]
      cases i with
      | zero => rfl
      | succ i => exact ih (f.step x).2 i (Nat.lt_of_succ_lt_succ hi)
  case delays =>
    induction buf generalizing f with
    | nil => rfl
    | cons x xs ih =>
      rw [process_cons]
      exact ih (f.step x).2

end Sys2Proof.Machine
end

section
/-!
SUPPORT. Zeros, negation and 1.0 in sums, products and quotients of finite values (00_scope.md R9).
-/

namespace Sys2Proof.Machine

theorem fneg_fneg (x : B64) : fneg (fneg x) = x := by
  rw [fneg, signBit_fneg, magBits_fneg, Bool.not_not, pack_signBit_magBits]

theorem fneg_pack (neg : Bool) {m : Nat} (h : m < 2 ^ 63) : fneg (pack neg m) = pack (!neg) m := by
  rw [fneg, signBit_pack _ h, magBits_pack _ h]

theorem scaled_fneg (x : B64) : scaled (fneg x) = scaled x := by
  rw [scaled, magBits_fneg, scaled]

theorem isZero_fneg (x : B64) : isZero (fneg x) = isZero x := by
  rw [isZero, magBits_fneg, isZero]

theorem isZero_of_orderKey_pos {x : B64} (h : 0 < orderKey x) : isZero x = false := by
  rw [← Bool.not_eq_true, isZero_iff]
  exact h.ne'

theorem scaledInt_of_isZero {z : B64} (h : isZero z = true) : scaledInt z = 0 := by
  rw [scaledInt_eq, isZero_iff.1 h]
  simp [scaledKey, scaledMag_zero]

theorem roundKey_zero {d : Nat} (hd : 0 < d) : roundKey 0 d = 0 := by
  simp [roundKey, roundMag_zero hd]

theorem whole_one : whole 1 = 0x3FF0000000000000#64 := by decide +kernel

theorem fneg_one : fneg 0x3FF0000000000000#64 = 0xBFF0000000000000#64 := by decide

theorem scaled_one : scaled 0x3FF0000000000000#64 = unitsPerOne := by
  rw [← scaledInt_natAbs, ← whole_one, scaledInt_one, Int.natAbs_natCast]

/-! ### Sums and differences -/

theorem addFinite_comm (a b : B64) : addFinite a b = addFinite b a := by
  simp only [addFinite, Int.add_comm, Bool.and_comm]

/-- A zero of either sign added to a value other than a zero leaves it as it is. -/
theorem addFinite_zero_left {z c : B64} (hz : isZero z = true) (hc : isFinite c = true) (h0 : isZero c = false) :
    addFinite z c = c := by
  have hkey : orderKey c ≠ 0 := fun h => by rw [isZero_iff.2 h] at h0; cases h0
  have hsum : orderKey (addFinite z c) = orderKey c := by
    have hround := roundKey_scaledKey one_pos (isFinite_iff.1 hc).le
    rw [orderKey_addFinite, scaledInt_of_isZero hz, zero_add, scaledInt_eq]
    rwa [Nat.cast_one, mul_one] at hround
  exact eq_of_orderKey_eq hsum (hsum ▸ hkey)

theorem fadd_eq_fsub_fneg {a b : B64} (ha : isFinite a = true) (hb : isFinite b = true) :
    fadd a b = fsub a (fneg b) := by
  rw [fadd_of_finite ha hb, fsub_of_finite ha (by rwa [isFinite_fneg]), fneg_fneg]

section
variable {z c : B64} (hz : isZero z = true) (hc : isFinite c = true) (h0 : isZero c = false)
include hz hc h0

theorem zero_fadd : fadd z c = c := by
  rw [fadd_of_finite (isFinite_of_isZero hz) hc, addFinite_zero_left hz hc h0]

theorem zero_fsub : fsub z c = fneg c := by
  rw [fsub_of_finite (isFinite_of_isZero hz) hc]
  exact addFinite_zero_left hz (by rwa [isFinite_fneg]) (by rwa [isZero_fneg])

theorem fadd_zero : fadd c z = c := by
  rw [fadd_of_finite hc (isFinite_of_isZero hz), addFinite_comm, addFinite_zero_left hz hc h0]

theorem fsub_zero : fsub c z = c := by
  rw [fsub_of_finite hc (isFinite_of_isZero hz), addFinite_comm]
  exact addFinite_zero_left (by rwa [isZero_fneg]) hc h0

end

/-! ### Products and quotients -/

section
variable {a b : B64} (ha : isFinite a = true) (hb : isFinite b = true)
include ha hb

theorem fmul_comm : fmul a b = fmul b a := by
  rw [fmul_of_finite ha hb, fmul_of_finite hb ha, bne_comm, Nat.mul_comm]

theorem fneg_fmul : fmul (fneg a) b = fneg (fmul a b) := by
  rw [fmul_of_finite (by rwa [isFinite_fneg]) hb, fmul_of_finite ha hb, fneg_pack _ (roundMag_lt _ _), signBit_fneg,
    scaled_fneg, Bool.not_bne]

theorem fmul_fneg : fmul a (fneg b) = fneg (fmul a b) := by
  rw [fmul_comm ha (by rwa [isFinite_fneg]), fneg_fmul hb ha, fmul_comm hb ha]

theorem fneg_fdiv (h0 : isZero b = false) : fdiv (fneg a) b = fneg (fdiv a b) := by
  rw [fdiv_of_finite (by rwa [isFinite_fneg]) hb h0, fdiv_of_finite ha hb h0, fneg_pack _ (roundMag_lt _ _),
    signBit_fneg, scaled_fneg, Bool.not_bne]

end

theorem one_fmul {x : B64} (hx : isFinite x = true) : fmul 0x3FF0000000000000#64 x = x := by
  rw [← whole_one, fmul_comm isFinite_one hx, fmul_one hx]

theorem fdiv_self {x : B64} (hx : isFinite x = true) (h0 : isZero x = false) : fdiv x x = 0x3FF0000000000000#64 := by
  have hround : roundMag (scaled x * unitsPerOne) (scaled x) = 0x3FF0000000000000 := by
    rw [← scaled_one, Nat.mul_comm]
    exact roundMag_scaledMag (scaled_pos h0) (by decide)
  rw [fdiv_of_finite hx hx h0, hround, bne_self_eq_false]
  rfl

theorem isZero_zero_fmul {z c : B64} (hz : isZero z = true) (hc : isFinite c = true) : isZero (fmul z c) = true := by
  rw [isZero_iff, orderKey_fmul (isFinite_of_isZero hz) hc, scaledInt_of_isZero hz, zero_mul,
    roundKey_zero unitsPerOne_pos]

theorem isZero_zero_fdiv {z c : B64} (hz : isZero z = true) (hc : isFinite c = true) (hpos : 0 < orderKey c) :
    isZero (fdiv z c) = true := by
  rw [isZero_iff, orderKey_fdiv (isFinite_of_isZero hz) hc hpos, scaledInt_of_isZero hz, zero_mul,
    roundKey_zero (scaled_pos (isZero_of_orderKey_pos hpos))]

/-- A product with a factor of at least 1.0 is no nearer to zero than its other factor. -/
theorem isZero_fmul_of_one_le {a c : B64} (ha : isFinite a = true) (hone : 0x3FF0000000000000 ≤ magBits a)
    (hc : isFinite c = true) (h0 : isZero c = false) : isZero (fmul a c) = false := by
  have hscaled : unitsPerOne ≤ scaled a := by
    rw [← scaled_one]
    exact scaledMag_le_iff.2 hone
  have hle : magBits c ≤ roundMag (scaled a * scaled c) unitsPerOne := by
    refine le_roundMag_of_le unitsPerOne_pos (orderKey_natAbs c ▸ (isFinite_iff.1 hc).le) ?_
    rw [Nat.mul_comm]
    exact Nat.mul_le_mul_right _ hscaled
  have hpos : magBits c ≠ 0 := by simpa [isZero] using h0
  rw [fmul_of_finite ha hc, isZero, magBits_pack _ (roundMag_lt _ _), beq_eq_false_iff_ne]
  omega

/-! ### Ranges -/

theorem isFinite_of_inRange_finite {lo hi x : B64} (hlo : isFinite lo = true) (hhi : isFinite hi = true)
    (h : inRange lo hi x = true) : isFinite x = true := by
  rw [isFinite_iff] at *
  obtain ⟨-, -, -, hge, hle⟩ := inRange_iff.1 h
  omega

theorem inRange_widen {lo hi lo' hi' x : B64} (hlo : fle lo' lo = true) (hhi : fle hi hi' = true)
    (h : inRange lo hi x = true) : inRange lo' hi' x = true := by
  rw [inRange, Bool.and_eq_true] at *
  exact ⟨fle_trans hlo h.1, fle_trans h.2 hhi⟩

/-- Negation keeps a range that is symmetric about zero. -/
theorem inRange_fneg {m x : B64} (h : inRange (fneg m) m x = true) : inRange (fneg m) m (fneg x) = true := by
  simp only [inRange_iff, isNaN_fneg, orderKey_fneg] at h ⊢
  obtain ⟨hx, hm, -, hge, hle⟩ := h
  exact ⟨hx, hm, hm, by omega, by omega⟩

theorem fmul_mono {a b c : B64} (ha : isFinite a = true) (hb : isFinite b = true) (hc : isFinite c = true)
    (hnonneg : 0 ≤ orderKey c) (h : orderKey a ≤ orderKey b) : fle (fmul a c) (fmul b c) = true := by
  have hval : scaledInt a ≤ scaledInt b := by rwa [scaledInt_eq, scaledInt_eq, scaledKey_le_iff]
  have hc0 : 0 ≤ scaledInt c := by rw [scaledInt_eq]; exact scaledKey_nonneg hnonneg
  rw [fle_iff, orderKey_fmul ha hc, orderKey_fmul hb hc]
  refine ⟨isNaN_fmul ha hc, isNaN_fmul hb hc, roundKey_mono unitsPerOne_pos unitsPerOne_pos ?_⟩
  gcongr

section
variable {lo hi lo' hi' a c : B64} (h : inRange lo hi a = true) (hlo : isFinite lo = true) (hhi : isFinite hi = true)
  (hc : isFinite c = true) (hpos : 0 < orderKey c)
include h hlo hhi hc hpos

/-- Division by a positive value keeps a range: the quotients of its bounds bound the quotient. -/
theorem fdiv_inRange (hlo' : fle lo' (fdiv lo c) = true) (hhi' : fle (fdiv hi c) hi' = true) :
    inRange lo' hi' (fdiv a c) = true := by
  have ha := isFinite_of_inRange_finite hlo hhi h
  obtain ⟨-, -, -, hge, hle⟩ := inRange_iff.1 h
  rw [inRange, fle_trans hlo' (fdiv_mono hlo ha hc hpos hge), fle_trans (fdiv_mono ha hhi hc hpos hle) hhi',
    Bool.and_self]

/-- Multiplication by a positive value keeps a range: the products of its bounds bound the product. -/
theorem fmul_inRange (hlo' : fle lo' (fmul lo c) = true) (hhi' : fle (fmul hi c) hi' = true) :
    inRange lo' hi' (fmul a c) = true := by
  have ha := isFinite_of_inRange_finite hlo hhi h
  obtain ⟨-, -, -, hge, hle⟩ := inRange_iff.1 h
  rw [inRange, fle_trans hlo' (fmul_mono hlo ha hc hpos.le hge), fle_trans (fmul_mono ha hhi hc hpos.le hle) hhi',
    Bool.and_self]

end

theorem fle_self {x : B64} (hx : isFinite x = true) : fle x x = true :=
  fle_iff.2 ⟨isNaN_of_isFinite hx, isNaN_of_isFinite hx, le_rfl⟩

section
variable {a c : B64} (hc : isFinite c = true) (hpos : 0 < orderKey c)
include hc hpos

/-- A value of `[-c, c]` over `c` lies in `[-1, 1]`. -/
theorem fdiv_inRange_unit (h : inRange (fneg c) c a = true) :
    inRange 0xBFF0000000000000#64 0x3FF0000000000000#64 (fdiv a c) = true := by
  have h0 := isZero_of_orderKey_pos hpos
  refine fdiv_inRange h (by rwa [isFinite_fneg]) hc hc hpos ?_ ?_
  · rw [fneg_fdiv hc hc h0, fdiv_self hc h0]
    decide
  · rw [fdiv_self hc h0]
    decide

/-- A value of `[-1, 1]` times `c` lies in `[-c, c]`. -/
theorem fmul_unit_inRange (h : inRange 0xBFF0000000000000#64 0x3FF0000000000000#64 a = true) :
    inRange (fneg c) c (fmul a c) = true := by
  refine fmul_inRange h (by decide) (by decide) hc hpos ?_ ?_
  · rw [← fneg_one, fneg_fmul (by decide) hc, one_fmul hc]
    exact fle_self (by rwa [isFinite_fneg])
  · rw [one_fmul hc]
    exact fle_self hc

end

end Sys2Proof.Machine
end

section
/-!
SUPPORT. The coefficient formulas and the gain map (41_biquad_filter.md R152 to R157): the model's decimal literals as
the patterns of the statements, and the range of the gain.
-/

namespace Sys2Proof.Machine

/-! ### Literals -/

/-- The factor of R152, the gain at the end of the slider, the divisor of the gain and the two centre frequencies. -/
theorem filterLiterals : whole 2 = 0x4000000000000000#64 ∧ whole 12 = 0x4028000000000000#64 ∧
    whole 40 = 0x4044000000000000#64 ∧ whole 300 = 0x4072C00000000000#64 ∧ whole 3000 = 0x40A7700000000000#64 := by
  decide +kernel

theorem whole_two : whole 2 = 0x4000000000000000#64 := filterLiterals.1

theorem isFinite_two : isFinite (whole 2) = true := by rw [whole_two]; decide

theorem fneg_two : fneg 0x4000000000000000#64 = 0xC000000000000000#64 := by decide

/-! ### The formulas (R152 to R155, R157) -/

/-- Settles O45: both sides are the same operations once the literals are read as patterns. -/
theorem shelfCoefficientFormulas : Obligations.ShelfCoefficientFormulas := by
  intro cfg gainDB
  obtain ⟨htwo, -, hforty, hlow, hhigh⟩ := filterLiterals
  constructor <;>
    simp only [coefficients, normalise, rawCoeffs, lowShelfRaw, highShelfRaw, intermediates, angularFrequency,
      centreFrequency, piB64, whole_one, htwo, fneg_two, hforty, hlow, hhigh]

theorem gainOf_eq (v : B64) : gainOf v = fmul (fdiv v 0x4059000000000000#64) 0x4028000000000000#64 := by
  obtain ⟨-, htwelve, -⟩ := filterLiterals
  rw [gainOf, whole_hundred, htwelve]

/-- Settles O47: the map for every slider, and its values at the six corners. -/
theorem gainMapCorners : Obligations.GainMapCorners := ⟨gainOf_eq, by decide +kernel⟩

/-! ### The range of the gain (R156) -/

/-- Settles O48: a slider in [-100, 100] over 100 lies in [-1, 1], and 12 times that in [-12, 12]. -/
theorem gainStaysWithinTwelveDecibels : Obligations.GainStaysWithinTwelveDecibels := by
  intro v hv
  have hquotient := fdiv_inRange_unit (c := 0x4059000000000000#64) (by decide) (by decide) hv
  rw [gainOf_eq]
  exact fmul_unit_inRange (c := 0x4028000000000000#64) (by decide) (by decide) hquotient

end Sys2Proof.Machine
end

section
/-!
SUPPORT. The coefficients at 0 dB (41_biquad_filter.md R151, R159): with `A = 1.0` the products by `Am1` are zeros, so
the raw numerator and the raw denominator are the same rounded sums.
-/

namespace Sys2Proof.Machine

/-! ### The intermediates (R152) -/

/-- What the intermediates of R152 are at 0 dB. -/
structure AtZeroDecibels (v : Intermediates) : Prop where
  A_eq      : v.A = 0x3FF0000000000000#64
  Ap1_eq    : v.Ap1 = 0x4000000000000000#64
  Am1_eq    : v.Am1 = 0
  cw_range  : inRange 0xBFF0000000000000#64 0x3FF0000000000000#64 v.cw = true
  cw_ne     : isZero v.cw = false
  tsa_range : inRange 0 0x4000000000000000#64 v.tsa = true

/-- `tsa` at `A = 1.0` is twice `alpha`, and `alpha` is at most the root of 2 over 2. -/
theorem tsa_inRange {sw : B64} (h : sinLegal sw = true) :
    inRange 0 0x4000000000000000#64
      (fmul (fmul (whole 2) (fsqrt 0x3FF0000000000000#64)) (fmul (fdiv sw (whole 2)) (fsqrt (whole 2)))) = true := by
  have hroot : fsqrt (whole 2) = 0x3FF6A09E667F3BCD#64 := by decide +kernel
  have hscale : fmul (whole 2) (fsqrt 0x3FF0000000000000#64) = 0x4000000000000000#64 := by decide +kernel
  have hsw : inRange 0 0x3FF0000000000000#64 sw = true := by
    rw [sinLegal, whole_one, Bool.and_eq_true, flt_iff, fle_iff] at h
    obtain ⟨⟨hzero, hnan, hpos⟩, -, hone, hle⟩ := h
    exact inRange_iff.2 ⟨hnan, hzero, hone, hpos.le, hle⟩
  have hhalf : inRange 0 0x3FE0000000000000#64 (fdiv sw 0x4000000000000000#64) = true :=
    fdiv_inRange hsw (by decide) (by decide) (by decide) (by decide) (by decide +kernel) (by decide +kernel)
  have halpha : inRange 0 0x3FF0000000000000#64 (fmul (fdiv sw 0x4000000000000000#64) 0x3FF6A09E667F3BCD#64) = true :=
    fmul_inRange hhalf (by decide) (by decide) (by decide) (by decide) (by decide +kernel) (by decide +kernel)
  rw [hroot, hscale, whole_two, fmul_comm (by decide) (isFinite_of_inRange_finite (by decide) (by decide) halpha)]
  exact fmul_inRange halpha (by decide) (by decide) (by decide) (by decide) (by decide +kernel) (by decide +kernel)

theorem intermediates_atZeroDecibels {cfg : Config} (hcfg : ConfigLegal cfg) (shelf : Shelf) {g : B64}
    (hg : isZero g = true) : AtZeroDecibels (intermediates cfg shelf g) := by
  obtain ⟨-, -, hforty, -⟩ := filterLiterals
  have hA : cfg.pow10 (fdiv g (whole 40)) = 0x3FF0000000000000#64 := by
    rw [hforty, hcfg.pow10_0 _ (isZero_zero_fdiv hg (by decide) (by decide)), whole_one]
  have ⟨hAp1, hAm1⟩ : fadd 0x3FF0000000000000#64 (whole 1) = 0x4000000000000000#64 ∧
      fsub 0x3FF0000000000000#64 (whole 1) = 0 := by decide +kernel
  have hcos := hcfg.cos64 (angularFrequency cfg shelf)
  rw [cosLegal, Bool.and_eq_true, Bool.not_eq_true'] at hcos
  simp only [intermediates, hA, hAp1, hAm1]
  exact {
    A_eq := rfl
    Ap1_eq := rfl
    Am1_eq := rfl
    cw_range := by
      rw [whole_one, fneg_one] at hcos
      exact hcos.1
    cw_ne := hcos.2
    tsa_range := by
      dsimp only
      exact tsa_inRange (hcfg.sin64 _) }

/-! ### The raw coefficients (R153, R154) -/

/-- The numerator of a shelf is its denominator, which can be divided by. -/
structure RawCoeffs.IsIdentity (r : RawCoeffs) : Prop where
  b0_eq     : r.b0 = r.a0
  b1_eq     : r.b1 = r.a1
  b2_eq     : r.b2 = r.a2
  a0_finite : isFinite r.a0 = true
  a0_ne     : isZero r.a0 = false

namespace AtZeroDecibels

variable {v : Intermediates} (h : AtZeroDecibels v)
include h

theorem isFinite_cw : isFinite v.cw = true := isFinite_of_inRange_finite (by decide) (by decide) h.cw_range

theorem isZero_Am1_cw : isZero (fmul v.Am1 v.cw) = true := by
  rw [h.Am1_eq]
  exact isZero_zero_fmul (by decide) h.isFinite_cw

/-- `Ap1 + Am1 * cw` is 2.0. -/
theorem Ap1_fadd : fadd v.Ap1 (fmul v.Am1 v.cw) = 0x4000000000000000#64 := by
  rw [h.Ap1_eq, fadd_zero h.isZero_Am1_cw (by decide) (by decide)]

/-- `Ap1 - Am1 * cw` is 2.0. -/
theorem Ap1_fsub : fsub v.Ap1 (fmul v.Am1 v.cw) = 0x4000000000000000#64 := by
  rw [h.Ap1_eq, fsub_zero h.isZero_Am1_cw (by decide) (by decide)]

theorem isFinite_Ap1_cw : isFinite (fmul v.Ap1 v.cw) = true := by
  rw [h.Ap1_eq, fmul_comm (by decide) h.isFinite_cw]
  exact isFinite_of_inRange (m := 0x4000000000000000#64) (by decide)
    (fmul_unit_inRange (by decide) (by decide) h.cw_range)

theorem isZero_Ap1_cw : isZero (fmul v.Ap1 v.cw) = false := by
  rw [h.Ap1_eq]
  exact isZero_fmul_of_one_le (by decide) (by decide) h.isFinite_cw h.cw_ne

/-- `Am1 + Ap1 * cw` is `Ap1 * cw`. -/
theorem Am1_fadd : fadd v.Am1 (fmul v.Ap1 v.cw) = fmul v.Ap1 v.cw :=
  zero_fadd (by rw [h.Am1_eq]; decide) h.isFinite_Ap1_cw h.isZero_Ap1_cw

/-- `Am1 - Ap1 * cw` is its negative. -/
theorem Am1_fsub : fsub v.Am1 (fmul v.Ap1 v.cw) = fneg (fmul v.Ap1 v.cw) :=
  zero_fsub (by rw [h.Am1_eq]; decide) h.isFinite_Ap1_cw h.isZero_Ap1_cw

theorem isFinite_tsa : isFinite v.tsa = true := isFinite_of_inRange_finite (by decide) (by decide) h.tsa_range

theorem tsa_symm_range : inRange 0xC000000000000000#64 0x4000000000000000#64 v.tsa = true :=
  inRange_widen (by decide) (by decide) h.tsa_range

theorem isFinite_two_fsub_tsa : isFinite (fsub 0x4000000000000000#64 v.tsa) = true :=
  isFinite_of_inRange_finite (by decide) (by decide) (fsub_two_inRange (by decide) h.tsa_symm_range)

theorem isFinite_two_fadd_tsa : isFinite (fadd 0x4000000000000000#64 v.tsa) = true := by
  rw [fadd_eq_fsub_fneg (by decide) h.isFinite_tsa]
  exact isFinite_of_inRange_finite (by decide) (by decide)
    (fsub_two_inRange (by decide) (inRange_fneg (m := 0x4000000000000000#64) h.tsa_symm_range))

/-- `2.0 + tsa` is at least 2.0. -/
theorem isZero_two_fadd_tsa : isZero (fadd 0x4000000000000000#64 v.tsa) = false := by
  obtain ⟨-, -, -, hnonneg, -⟩ := inRange_iff.1 h.tsa_range
  have htsa : 0 ≤ scaledInt v.tsa := by
    rw [scaledInt_eq]
    exact scaledKey_nonneg hnonneg
  have hpos : 0 < orderKey 0x4000000000000000#64 := by decide
  refine isZero_of_orderKey_pos (hpos.trans_le ?_)
  rw [orderKey_fadd (by decide) h.isFinite_tsa]
  refine le_roundKey_of_le one_pos (by decide) ?_
  rw [← scaledInt_eq, Nat.cast_one, mul_one]
  omega

theorem lowShelfRaw_isIdentity : (lowShelfRaw v).IsIdentity where
  b0_eq := by simp only [lowShelfRaw, h.Ap1_fadd, h.Ap1_fsub, h.A_eq, one_fmul h.isFinite_two_fadd_tsa]
  b1_eq := by
    simp only [lowShelfRaw, h.Am1_fadd, h.Am1_fsub, h.A_eq, ← whole_one, fmul_one isFinite_two]
    rw [fmul_fneg isFinite_two h.isFinite_Ap1_cw, fneg_fmul isFinite_two h.isFinite_Ap1_cw]
  b2_eq := by simp only [lowShelfRaw, h.Ap1_fadd, h.Ap1_fsub, h.A_eq, one_fmul h.isFinite_two_fsub_tsa]
  a0_finite := by simpa only [lowShelfRaw, h.Ap1_fadd] using h.isFinite_two_fadd_tsa
  a0_ne := by simpa only [lowShelfRaw, h.Ap1_fadd] using h.isZero_two_fadd_tsa

theorem highShelfRaw_isIdentity : (highShelfRaw v).IsIdentity where
  b0_eq := by simp only [highShelfRaw, h.Ap1_fadd, h.Ap1_fsub, h.A_eq, one_fmul h.isFinite_two_fadd_tsa]
  b1_eq := by
    have hneg : isFinite (fneg (whole 2)) = true := by rw [isFinite_fneg, isFinite_two]
    simp only [highShelfRaw, h.Am1_fadd, h.Am1_fsub, h.A_eq, ← whole_one, fmul_one hneg]
    rw [fmul_fneg isFinite_two h.isFinite_Ap1_cw, fneg_fmul isFinite_two h.isFinite_Ap1_cw]
  b2_eq := by simp only [highShelfRaw, h.Ap1_fadd, h.Ap1_fsub, h.A_eq, one_fmul h.isFinite_two_fsub_tsa]
  a0_finite := by simpa only [highShelfRaw, h.Ap1_fsub] using h.isFinite_two_fadd_tsa
  a0_ne := by simpa only [highShelfRaw, h.Ap1_fsub] using h.isZero_two_fadd_tsa

end AtZeroDecibels

theorem rawCoeffs_isIdentity {cfg : Config} (hcfg : ConfigLegal cfg) (shelf : Shelf) {g : B64}
    (hg : isZero g = true) : (rawCoeffs cfg shelf g).IsIdentity := by
  have h := intermediates_atZeroDecibels hcfg shelf hg
  cases shelf with
  | low => exact h.lowShelfRaw_isIdentity
  | high => exact h.highShelfRaw_isIdentity

/-- Settles O46: the raw numerator is the raw denominator, and each is divided by the same `a0r` (R155). -/
theorem zeroDecibelNumeratorIsDenominator : Obligations.ZeroDecibelNumeratorIsDenominator := by
  intro cfg shelf g hcfg hg
  have h := rawCoeffs_isIdentity hcfg shelf hg
  exact ⟨(congrArg (fdiv · _) h.b0_eq).trans (fdiv_self h.a0_finite h.a0_ne), congrArg (fdiv · _) h.b1_eq,
    congrArg (fdiv · _) h.b2_eq⟩

end Sys2Proof.Machine
end

section
/-!
SUPPORT. A command taken from a granted port (42_mixer_commands.md R180): what the core's turn runs, and on which state.
-/

namespace Sys2Proof.Machine

/-- A core that may run takes the arbiter's next command. -/
theorem coreTurn_of_nextCommand {s : State} {choice : Option Nat} {p : Nat} {w : CmdWord} (hreset : s.inReset = false)
    (hstalled : stalled s = false) (hnext : nextCommand s choice = some (p, w)) :
    coreTurn choice s = runCommand w (beginCommand p s) := by
  rw [coreTurn, if_neg (ne_true_of_eq_false hreset), if_neg (ne_true_of_eq_false hstalled), hnext]

section
variable {s : State} {p : Nat} {port : Port} {w : CmdWord} {ws : List CmdWord}
variable (hport : s.ports[p]? = some port) (hqueue : port.cmdq = w :: ws)
include hport hqueue

theorem headCommand_of_cons : headCommand s p = some w := by
  rw [headCommand, hport]
  exact congrArg List.head? hqueue

/-- Taking a command leaves the rest of its queue. -/
theorem beginCommand_of_cons :
    beginCommand p s = { s with
      ports := s.ports.set p { port with cmdq := ws }, rr := (p + 1) % s.ports.length, issuer := p } := by
  rw [beginCommand, modify_eq_set_of_getElem? hport, hqueue, List.tail_cons]

/-- The step of a grant runs the word at the head of the granted port's queue. -/
theorem step_grant {rest : List EnvEvent} (he : s.env = .grant p :: rest) (hreset : s.inReset = false)
    (hstalled : stalled s = false) :
    step s = runCommand w { s with
      env := rest, ports := s.ports.set p { port with cmdq := ws }, rr := (p + 1) % s.ports.length, issuer := p } := by
  have hnext : nextCommand { s with env := rest } (some p) = some (p, w) :=
    nextCommand_granted (headCommand_of_cons hport hqueue)
  calc step s
    _ = coreTurn (some p) { s with env := rest } := by rw [step, he]
    _ = runCommand w (beginCommand p { s with env := rest }) := coreTurn_of_nextCommand hreset hstalled hnext
    _ = _ := congrArg (runCommand w) (beginCommand_of_cons hport hqueue)

end

theorem runCommand_of_ok {w : CmdWord} {i : Instr} (h : decode w = .ok i) (s : State) : runCommand w s = exec i s := by
  rw [runCommand, h]

theorem runCommand_of_error {w : CmdWord} {c : Cause} (h : decode w = .error c) (s : State) :
    runCommand w s = .next (raiseIllegal c s) := by
  rw [runCommand, h]

/-- Settles O6: the granted step runs its word, which decodes. -/
theorem stepRunsTheDecodedCommand : Obligations.StepRunsTheDecodedCommand := by
  intro s p port w ws i rest he hreset hstalled hport hqueue hdecode
  rw [step_grant hport hqueue he hreset hstalled, runCommand_of_ok hdecode]

/-- Settles O7: the granted step runs its word, which does not decode. -/
theorem stepRefusesTheIllegalWord : Obligations.StepRefusesTheIllegalWord := by
  intro s p port w ws c rest he hreset hstalled hport hqueue hdecode
  rw [step_grant hport hqueue he hreset hstalled, runCommand_of_error hdecode]

end Sys2Proof.Machine
end

section
/-!
SUPPORT. `NOP`, the setters, `RESEED` and the getters (42_mixer_commands.md R181 to R187, R193 to R199): the verdict on
their words, and the effect of a command as a condition on its operand.
-/

namespace Sys2Proof.Machine

/-! ### The verdict on a command's word (30_encoding.md R74) -/

theorem decode_commandWord_of_ne {r : BitVec 56} (hr : r ≠ 0) (x : Word) (op : BitVec 8) :
    decode (commandWord x r op) = .error .reservedBits :=
  decode_of_reservedField_ne (by rwa [reservedField_commandWord])

/-- A word with an opcode of the table is illegal only with a reserved bit set. -/
theorem decode_commandWord {x : Word} {op : BitVec 8} {i : Instr} (h : decodeOpcode op x = some i) (r : BitVec 56) :
    decode (commandWord x r op) = if r = 0 then .ok i else .error .reservedBits := by
  split
  case isTrue hr => exact decode_of_decodeOpcode_some (by simpa using hr) (by simpa using h)
  case isFalse hr => exact decode_commandWord_of_ne hr x op

/-! ### The operand check -/

/-- A command whose one check is that of a NaN operand has its effect or the illegal-command outcome (R183 to R186). -/
theorem exec_of_nanCheck {i : Instr} {v : B64} {s t : State}
    (hi : operandCause blockConfig i = if isNaN v then some .nanOperand else none) (ht : legalEffect i s = t) :
    (isNaN v = false → exec i s = .next t) ∧ (isNaN v = true → exec i s = .next (raiseIllegal .nanOperand s)) := by
  rw [exec_eq, hi, ← ht]
  exact ⟨fun hv => by rw [hv]; rfl, fun hv => by rw [hv]; rfl⟩

/-! ### `NOP`, `SET_POWER` and `RESEED` -/

/-- Settles O18: `NOP` has opcode 0 and an ignored operand. -/
theorem nopChangesNothing : Obligations.NopChangesNothing :=
  ⟨fun _ => rfl, fun _ => decode_commandWord rfl 0, fun x _ hr => decode_commandWord_of_ne hr x 0⟩

theorem boolOperand_eq_decide (x : Word) : boolOperand x = decide (x ≠ 0) := by
  rw [boolOperand, bne, beq_eq_decide, decide_not]

/-- Settles O19: the operand is read as a truth value (R72). -/
theorem setPowerWritesOnlyPower : Obligations.SetPowerWritesOnlyPower := by
  refine ⟨fun _ r => decode_commandWord rfl r, fun x s => ?_⟩
  rw [← boolOperand_eq_decide]
  rfl

/-- A draw of the reference source after a seed advances the seed (40_noise_generator.md R102, R104). -/
theorem splitMix64_draw_seed (x : Word) : (splitMix64.draw (splitMix64.seed x)).2 = (rngNext x).toNat := by
  show (rngNext (BitVec.ofNat 64 x.toNat)).toNat = _
  rw [BitVec.ofNat_toNat, BitVec.setWidth_eq]

/-- Settles O24: the state is the one that the operand seeds, and a draw goes on from it. -/
theorem reseedReplacesOnlyTheSource : Obligations.ReseedReplacesOnlyTheSource :=
  ⟨fun _ r => decode_commandWord rfl r, fun _ _ => rfl, fun x => ⟨rfl, splitMix64_draw_seed x⟩⟩

/-! ### The setters that clamp -/

/-- Settles O20: the set-point is clamped to [0.0, 1.0]. -/
theorem setVolumeClampsTheSetPoint : Obligations.SetVolumeClampsTheSetPoint := by
  refine ⟨fun _ r => decode_commandWord rfl r, fun v s => exec_of_nanCheck rfl ?_⟩
  rw [legalEffect, clamp, whole_one]

/-- Settles O21: the slider is clamped to [0.0, 100.0]. -/
theorem setColorClampsTheSlider : Obligations.SetColorClampsTheSlider := by
  refine ⟨fun _ r => decode_commandWord rfl r, fun v s => exec_of_nanCheck rfl ?_⟩
  rw [legalEffect, clamp, whole_hundred]

theorem clampSlider_eq (v : B64) :
    clampSlider v = if flt v 0xC059000000000000#64 then 0xC059000000000000#64
      else if flt 0x4059000000000000#64 v then 0x4059000000000000#64 else v := by
  have hneg : fneg 0x4059000000000000#64 = 0xC059000000000000#64 := by decide
  rw [clampSlider, clamp, whole_hundred, hneg]

/-- Settles O22: both low shelves take the gain of the clamped slider (R157). -/
theorem setBassRecomputesBothLowShelves : Obligations.SetBassRecomputesBothLowShelves := by
  refine ⟨fun _ r => decode_commandWord rfl r, fun v s => exec_of_nanCheck rfl ?_⟩
  rw [← clampSlider_eq, ← gainOf_eq]
  rfl

/-- Settles O23: both high shelves take the gain of the clamped slider (R157). -/
theorem setTrebleRecomputesBothHighShelves : Obligations.SetTrebleRecomputesBothHighShelves := by
  refine ⟨fun _ r => decode_commandWord rfl r, fun v s => exec_of_nanCheck rfl ?_⟩
  rw [← clampSlider_eq, ← gainOf_eq]
  rfl

/-! ### The getters -/

/-- A command of kind X in a table of opcodes decodes at every operand. -/
theorem decode_commandWord_of_mem {table : List (BitVec 8 × Instr)} {op : BitVec 8} {i : Instr}
    (htable : ∀ row ∈ table, row.1 = row.2.opcode ∧ row.2.ignoresOperand = true) (h : (op, i) ∈ table) (x : Word)
    (r : BitVec 56) : decode (commandWord x r op) = if r = 0 then .ok i else .error .reservedBits := by
  obtain ⟨rfl, hi⟩ : op = i.opcode ∧ i.ignoresOperand = true := htable (op, i) h
  exact decode_commandWord (decodeOpcode_opcode_of_ignoresOperand hi x) r

/-- `zext_64` of a flag. -/
theorem setWidth_ofBool (b : Bool) : (BitVec.ofBool b).setWidth 64 = if b then 1 else 0 := by
  cases b <;> rfl

/-- Settles O25: every row of the table is a command of kind X with its opcode, and emits its register. -/
theorem gettersEmitTheirRegister : Obligations.GettersEmitTheirRegister := by
  refine ⟨fun x r _ _ hrow => decode_commandWord_of_mem (by decide) hrow x r,
    fun s => ⟨?_, rfl, rfl, rfl, rfl, rfl, rfl⟩⟩
  rw [← setWidth_ofBool]
  rfl

end Sys2Proof.Machine
end

section
/-!
SUPPORT. `RENDER` (42_mixer_commands.md R188 to R192): its count check, the volume after some updates as an iterate, and
each output word of a block.
-/

namespace Sys2Proof.Machine

/-! ### The count (R188) -/

theorem blockTooLong_eq_true {cfg : Config} {n : Word} (h : cfg.maxBlock < n.toNat) : blockTooLong cfg n = true := by
  unfold blockTooLong
  split
  · next hzero => exact absurd (h.trans_eq hzero) (Nat.not_lt_zero _)
  · next k hk => exact decide_eq_true (h.trans_eq hk)

/-- Settles O30: the check fails beyond `MAX_BLOCK`. -/
theorem renderRefusesLongBlocks : Obligations.RenderRefusesLongBlocks :=
  ⟨fun _ _ _ _ h => if_pos (blockTooLong_eq_true h), fun _ _ => rfl⟩

/-! ### An empty block -/

section
variable (src : WhiteSource)

theorem generateBlended_zero (slider v : B64) (p q : Slot) (S : Nat) :
    generateBlended src slider 0 v p q S = ⟨[], p, q, S⟩ := by
  cases h : select slider with
  | pure c => rw [generateBlended_of_pure h]; rfl
  | blend lo hi t => rw [generateBlended_of_blend h]; rfl

theorem renderPath_zero (s : State) : renderPath src 0 s = s := by
  cases hpower : s.power with
  | true =>
    rw [renderPath_on _ _ hpower, renderOn, generateBlended_zero]
    exact emit_nil s
  | false =>
    rw [renderPath_off _ _ hpower]
    exact emit_nil s

end

/-- Settles O33: an empty block is legal; it takes no draw, filters no sample and emits no word. -/
theorem renderZeroChangesNothing : Obligations.RenderZeroChangesNothing := fun s =>
  (exec_render_of_le (Nat.zero_le _) s).trans (congrArg _ (renderPath_zero _ s))

/-! ### The volume (R191) -/

/-- One update, with the rate as a pattern. -/
theorem smooth_eq (T m : B64) : smooth T m = fadd m (fmul (fsub T m) 0x3F50624DD2F1A9FC#64) := by
  have hrate : literal 1 1000 = 0x3F50624DD2F1A9FC#64 := by decide +kernel
  rw [smooth, hrate]

theorem smoothN_eq_iterate (T : B64) (n : Nat) (m : B64) :
    smoothN T n m = (fun m => fadd m (fmul (fsub T m) 0x3F50624DD2F1A9FC#64))^[n] m := by
  induction n generalizing m with
  | zero => rfl
  | succ n ih => rw [smoothN_succ, ih, smooth_eq, Function.iterate_succ_apply]

/-- Settles O31: the decay of the volume is an iterate, and the rest is the emission of silence. -/
theorem renderOffDecaysAndEmitsSilence : Obligations.RenderOffDecaysAndEmitsSilence := by
  intro n s hpower hn
  rw [exec_render_of_le hn, renderPath_off _ _ hpower, ← smoothN_eq_iterate]
  rfl

/-! ### The output words (R192) -/

theorem outputWord_eq (x m : B64) :
    outputWord x m = clamp (fmul x m) 0xBFF0000000000000#64 0x3FF0000000000000#64 := by
  rw [outputWord, whole_one, fneg_one]

/-- Settles O36: an output word is a clamp to [-1.0, 1.0]. -/
theorem outputWordsAreClamped : Obligations.OutputWordsAreClamped := by
  intro x m
  rw [outputWord_eq]
  exact ⟨fun h => clamp_inRange h (by decide) (by decide) (by decide), fun h => clamp_of_isNaN h _ _⟩

/-- Frame `i` is the left and the right word at the volume after `i + 1` updates (R190). -/
theorem outputFrames_getElem? {T : B64} {ls rs : List B64} (hlen : ls.length = rs.length) (m : B64) (i : Nat) :
    (outputFrames T ls rs m)[2 * i]? = ls[i]?.map (fun x => outputWord x (smoothN T (i + 1) m)) ∧
      (outputFrames T ls rs m)[2 * i + 1]? = rs[i]?.map (fun x => outputWord x (smoothN T (i + 1) m)) := by
  induction ls generalizing rs m i with
  | nil =>
    obtain rfl : rs = [] := List.length_eq_zero_iff.1 hlen.symm
    exact ⟨rfl, rfl⟩
  | cons l ls ih =>
    cases rs with
    | nil => cases hlen
    | cons r rs =>
      cases i with
      | zero => exact ⟨rfl, rfl⟩
      | succ i => exact ih (Nat.succ.inj hlen) (smooth T m) i

/-- Settles O32: the words of the two channels' blocks, frame by frame. -/
theorem renderOnFollowsThePipeline : Obligations.RenderOnFollowsThePipeline := by
  intro n s hpower hn mono lLow lHigh rLow rHigh vol word
  have hmono : mono.out.length = n.toNat := generateBlended_length ..
  have hleft : lHigh.1.length = n.toNat := by rw [process_length, process_length, hmono]
  have hright : rHigh.1.length = n.toNat := by rw [process_length, process_length, hmono]
  have hvol (k : Nat) : smoothN s.targetVol k s.masterVol = vol k := smoothN_eq_iterate ..
  have hlen : lHigh.1.length = rHigh.1.length := hleft.trans hright.symm
  refine ⟨outputFrames s.targetVol lHigh.1 rHigh.1 s.masterVol, ?_, fun i _ => ?frames, hleft, hright, ?next⟩
  · rw [outputFrames_length _ _ _ _ hlen, hleft]
  case frames =>
    have hframe := outputFrames_getElem? (T := s.targetVol) hlen s.masterVol i
    simpa only [outputWord_eq, hvol] using hframe
  case next =>
    rw [exec_render_of_le hn, renderPath_on _ _ hpower, ← hvol, renderOn, whole_one]
    rfl

end Sys2Proof.Machine
end

section
/-!
SUPPORT. The core's turn when no port is granted (60_exceptions.md R250, R252): the port the reference arbiter chooses,
how far its pointer is from a waiting port, and the core that has nothing to execute.
-/

namespace Sys2Proof.Machine

/-! ### The reference arbiter (R250) -/

/-- The port the reference arbiter takes is the nearest pending one from its pointer on. -/
theorem roundRobin_eq_some_iff {s : State} {p : Nat} :
    roundRobin s = some p ↔ ∃ k < s.ports.length, (s.rr + k) % s.ports.length = p ∧ pending s p = true ∧
      ∀ j < k, pending s ((s.rr + j) % s.ports.length) = false := by
  simp only [roundRobin, List.find?_map, Option.map_eq_some_iff, List.find?_range_eq_some, List.mem_range,
    Function.comp_apply, Bool.not_eq_true']
  constructor
  · rintro ⟨k, ⟨hpending, hk, hbefore⟩, rfl⟩
    exact ⟨k, hk, rfl, hpending, hbefore⟩
  · rintro ⟨k, hk, rfl, hpending, hbefore⟩
    exact ⟨k, ⟨hpending, hk, hbefore⟩, rfl⟩

theorem nextCommand_of_arbitrate {s : State} {choice : Option Nat} {p : Nat} {w : CmdWord}
    (hchoice : arbitrate s choice = some p) (hhead : headCommand s p = some w) : nextCommand s choice = some (p, w) := by
  simp [nextCommand, hchoice, hhead]

/-- Settles O8: the port is the arbiter's choice, and the word its next command. -/
theorem stepFollowsRoundRobin : Obligations.StepFollowsRoundRobin := by
  intro s k port w ws p he hreset hstalled hk hport hqueue hbefore
  have hhead : headCommand s p = some w := headCommand_of_cons hport hqueue
  have hchoice : arbitrate s none = some p :=
    roundRobin_eq_some_iff.2 ⟨k, hk, rfl, headCommand_pending hhead, hbefore⟩
  have hnext : nextCommand s none = some (p, w) := nextCommand_of_arbitrate hchoice hhead
  calc step s
    _ = coreTurn none s := by rw [step, he]
    _ = runCommand w (beginCommand p s) := coreTurn_of_nextCommand hreset hstalled hnext
    _ = _ := congrArg (runCommand w) (beginCommand_of_cons hport hqueue)

/-! ### Fairness (R250) -/

/-- How many ports the pointer `q` passes, round `n` ports, before it comes to port `p`. -/
def pointerDistance (n q p : Nat) : Nat := (p + n - q) % n

section
variable {n q : Nat} (hq : q < n)
include hq

theorem pointerDistance_lt (p : Nat) : pointerDistance n q p < n := Nat.mod_lt _ (Nat.zero_lt_of_lt hq)

theorem add_pointerDistance {p : Nat} (hp : p < n) : (q + pointerDistance n q p) % n = p := by
  rw [pointerDistance, Nat.add_mod_mod, Nat.add_sub_of_le (by omega), Nat.add_mod_right, Nat.mod_eq_of_lt hp]

theorem pointerDistance_add {k : Nat} (hk : k < n) : pointerDistance n q ((q + k) % n) = k := by
  unfold pointerDistance
  by_cases hwrap : q + k < n
  · rw [Nat.mod_eq_of_lt hwrap, show q + k + n - q = k + n by omega, Nat.add_mod_right, Nat.mod_eq_of_lt hk]
  · have hround : (q + k) % n = q + k - n := by
      rw [Nat.mod_eq_sub_mod (Nat.le_of_not_lt hwrap), Nat.mod_eq_of_lt (by omega)]
    rw [hround, show q + k - n + n - q = k by omega, Nat.mod_eq_of_lt hk]

/-- A pointer that moves on, but not past `p`, is nearer to it by as much as it moved. -/
theorem pointerDistance_of_moved {p k : Nat} (hp : p < n) (hk : k ≤ pointerDistance n q p) :
    pointerDistance n ((q + k) % n) p = pointerDistance n q p - k := by
  have hlt := pointerDistance_lt hq p
  have hreach : ((q + k) % n + (pointerDistance n q p - k)) % n = p := by
    rw [Nat.mod_add_mod, Nat.add_assoc, Nat.add_sub_of_le hk, add_pointerDistance hq hp]
  have hmoved : (q + k) % n < n := Nat.mod_lt _ (Nat.zero_lt_of_lt hq)
  have hdistance := pointerDistance_add hmoved (Nat.lt_of_le_of_lt (Nat.sub_le _ k) hlt)
  rwa [hreach] at hdistance

end

/-- The reference arbiter passes no pending port: it takes `p` itself or one that its pointer comes to before `p`. -/
theorem pointerDistance_roundRobin_lt {s : State} {p g : Nat} (hq : s.rr < s.ports.length) (hp : pending s p = true)
    (hg : roundRobin s = some g) (hne : g ≠ p) :
    pointerDistance s.ports.length s.rr g < pointerDistance s.ports.length s.rr p := by
  obtain ⟨k, hk, rfl, -, hbefore⟩ := roundRobin_eq_some_iff.1 hg
  have hreach := add_pointerDistance hq (pending_lt hp)
  rw [pointerDistance_add hq hk]
  obtain hlt | heq | hgt := Nat.lt_trichotomy k (pointerDistance s.ports.length s.rr p)
  · exact hlt
  · exact absurd (heq ▸ hreach) hne
  · exact absurd hp (by rw [← hreach, hbefore _ hgt]; decide)

/-- Settles O9: the pointer moves just past a port that lies before the waiting one. -/
theorem roundRobinIsFair : Obligations.RoundRobinIsFair := by
  intro s p g hq hp hg hne
  have hnearer := pointerDistance_roundRobin_lt hq hp hg hne
  have hmoved := pointerDistance_of_moved hq (pending_lt hp) (Nat.succ_le_of_lt hnearer)
  have hreach := add_pointerDistance hq (pending_lt (roundRobin_pending hg))
  rw [Nat.add_succ, Nat.succ_eq_add_one, ← Nat.mod_add_mod, hreach] at hmoved
  show pointerDistance s.ports.length ((g + 1) % s.ports.length) p < pointerDistance s.ports.length s.rr p
  omega

/-! ### The idle core (R252) -/

/-- With nothing pending there is no next command, whatever port is granted. -/
theorem nextCommand_of_not_pending {s : State} (h : ∀ p, pending s p = false) (choice : Option Nat) :
    nextCommand s choice = none := by
  cases hnext : nextCommand s choice with
  | none => rfl
  | some pw =>
    obtain ⟨hchoice, -⟩ := nextCommand_spec hnext
    exact absurd (arbitrate_pending hchoice) (by rw [h]; decide)

theorem coreTurn_of_nextCommand_eq_none {s : State} {choice : Option Nat} (h : nextCommand s choice = none) :
    coreTurn choice s = .next s := by
  rw [coreTurn, h, ite_self, ite_self]

/-- Settles O10: the core's turn finds no command, and only a grant is spent. -/
theorem idleCoreChangesNothing : Obligations.IdleCoreChangesNothing := by
  intro s hidle
  constructor
  · intro he
    rw [step, he]
    exact coreTurn_of_nextCommand_eq_none (nextCommand_of_not_pending hidle none)
  · intro p rest he
    rw [step, he]
    exact coreTurn_of_nextCommand_eq_none (nextCommand_of_not_pending hidle (some p))

end Sys2Proof.Machine
end

section
/-!
SUPPORT. The illegal-command outcome (60_exceptions.md R241, R242): each bit of `STATUS` after it, and the two ways a
command comes to it.
-/

namespace Sys2Proof.Machine

/-- The bits of `STATUS` that recording a cause keeps: all but `ILL` and `FIRST_CAUSE` (10_state.md R26). -/
theorem keptMask_getLsbD :
    ∀ j < 64, (0xFFFFFFFFFFFFFF0E#64).getLsbD j = decide (j ≠ 0 ∧ ¬(4 ≤ j ∧ j ≤ 7)) := by decide

section
variable (st : Word) (c : Cause)

theorem causeField_getLsbD {j : Nat} (hj : j < 64) :
    ((causeCode c).setWidth 64 <<< 4).getLsbD j =
      (decide (4 ≤ j ∧ j ≤ 7) && (causeCode c).getLsbD (j - 4)) := by
  rw [BitVec.getLsbD_shiftLeft, BitVec.getLsbD_setWidth, decide_eq_true hj, Bool.true_and]
  obtain hbelow | hfield | habove : j < 4 ∨ (4 ≤ j ∧ j ≤ 7) ∨ 7 < j := by omega
  · simp [hbelow, Nat.not_le.2 hbelow]
  · simp [hfield, Nat.not_lt.2 hfield.1, show j - 4 < 64 by omega]
  · simp [Nat.not_le.2 habove, BitVec.getLsbD_of_ge (causeCode c) (j - 4) (by omega)]

theorem statusWithCause_getLsbD {j : Nat} (hj : j < 64) :
    (statusWithCause st c).getLsbD j =
      if j = 0 then true else if 4 ≤ j ∧ j ≤ 7 then (causeCode c).getLsbD (j - 4) else st.getLsbD j := by
  have hill : (1 : Word).getLsbD j = decide (j = 0) := by simp
  rw [statusWithCause, BitVec.getLsbD_or, BitVec.getLsbD_or, BitVec.getLsbD_and, keptMask_getLsbD j hj,
    causeField_getLsbD c hj, hill]
  by_cases h0 : j = 0
  · simp [h0]
  · by_cases h4 : 4 ≤ j ∧ j ≤ 7 <;> simp [h0, h4]

theorem statusIll_statusWithCause : statusIll (statusWithCause st c) = true :=
  statusWithCause_getLsbD st c (by decide)

theorem statusFirstCause_statusWithCause : statusFirstCause (statusWithCause st c) = causeCode c := by
  refine BitVec.eq_of_getLsbD_eq fun i hi => ?_
  rw [statusFirstCause, BitVec.getLsbD_extractLsb', statusWithCause_getLsbD st c (by omega), if_neg (by omega),
    if_pos (by omega), Nat.add_sub_cancel_left, decide_eq_true hi, Bool.true_and]

/-- The reserved bits of `STATUS` stay as they are. -/
theorem statusWithCause_getLsbD_of_reserved {j : Nat} (h0 : j ≠ 0) (h4 : ¬(4 ≤ j ∧ j ≤ 7)) :
    (statusWithCause st c).getLsbD j = st.getLsbD j := by
  by_cases hj : j < 64
  · rw [statusWithCause_getLsbD st c hj, if_neg h0, if_neg h4]
  · rw [BitVec.getLsbD_of_ge _ _ (Nat.le_of_not_lt hj), BitVec.getLsbD_of_ge _ _ (Nat.le_of_not_lt hj)]

end

theorem recordIllegal_of_not_ill {st : Word} (h : statusIll st = false) (c : Cause) :
    recordIllegal st c = statusWithCause st c := if_neg (ne_true_of_eq_false h)

theorem exec_of_operandCause {i : Instr} {c : Cause} (h : operandCause blockConfig i = some c) (s : State) :
    exec i s = .next (raiseIllegal c s) := by
  rw [exec_eq, h]

/-- Settles O28: `STATUS` is written field by field, and only by the first cause. -/
theorem illegalCommandsOnlyRecordTheFirstCause : Obligations.IllegalCommandsOnlyRecordTheFirstCause := by
  refine ⟨fun c s => ⟨rfl, fun hill => recordIllegal_of_ill hill c, fun hill => ?first⟩,
    fun w c s h => runCommand_of_error h s, fun i c s h => exec_of_operandCause h s⟩
  rw [raiseIllegal_status, recordIllegal_of_not_ill hill]
  refine ⟨statusIll_statusWithCause _ c, (statusFirstCause_statusWithCause _ c).trans ?code,
    fun j h0 h4 => statusWithCause_getLsbD_of_reserved _ c h0 h4⟩
  case code => cases c <;> rfl

end Sys2Proof.Machine
end

section
/-!
SUPPORT. Totality (60_exceptions.md R240, R242; log entry 12).
-/

namespace Sys2Proof.Machine

theorem exec_completes (i : Instr) (s : State) : ∃ t, exec i s = .next t := ⟨_, exec_eq i s⟩

theorem runCommand_completes (w : CmdWord) (s : State) : ∃ t, runCommand w s = .next t := by
  cases h : decode w with
  | ok i => rw [runCommand_of_ok h]; exact exec_completes i s
  | error c => exact ⟨_, runCommand_of_error h s⟩

/-- A core that does not take a command answers the state it is in. -/
theorem coreTurn_completes (choice : Option Nat) (s : State) : ∃ t, coreTurn choice s = .next t := by
  unfold coreTurn
  split
  · exact ⟨s, rfl⟩
  · split
    · exact ⟨s, rfl⟩
    · split
      · exact ⟨s, rfl⟩
      · exact runCommand_completes _ _

/-- Settles O49: an event of the outside answers its own next state, and otherwise the core has its turn. -/
theorem everyStepCompletes : Obligations.EveryStepCompletes := by
  refine ⟨exec_completes, fun s => ?_⟩
  unfold step
  split
  case h_1 => exact coreTurn_completes none s
  case h_2 p rest _ => exact coreTurn_completes (some p) { s with env := rest }
  all_goals exact ⟨_, rfl⟩

end Sys2Proof.Machine
end

section
/-!
SUPPORT. Hazards and reset (70_reset_and_hazards.md R270, R271, R275, R277): blocks that concatenate, the core that
waits for room, and the reset input.
-/

namespace Sys2Proof.Machine

/-! ### Blocks in sequence (R275) -/

/-- A channel filters a buffer in two parts as it filters the whole. -/
theorem processChannel_append (ls hs : Biquad) (xs ys : List B64) :
    processChannel ls hs (xs ++ ys) =
      (let first := processChannel ls hs xs
       let second := processChannel first.2.1 first.2.2 ys
       (first.1 ++ second.1, second.2)) := by
  simp only [processChannel, process_append]

section
variable (src : WhiteSource) (a b : Nat) {s : State}

/-- A pure block goes on from the slot and the white source that the block before it left. -/
theorem generateBlended_add {slider : B64} {c : Color} (h : select slider = .pure c) (v : B64) (p q : Slot) (S : Nat) :
    generateBlended src slider (a + b) v p q S =
      (let first := generateBlended src slider a v p q S
       let second := generateBlended src slider b v first.primary first.secondary first.rng
       ⟨first.out ++ second.out, second.primary, second.secondary, second.rng⟩) := by
  simp only [generateBlended_of_pure h, generatePure_add]

/-- Every recursion of a `RENDER` splits at the boundary. What is left for `rfl` is that the second block's registers do
not depend on the words the first one emitted. -/
theorem renderOn_add {c : Color} (h : select s.color = .pure c) :
    renderOn src b (renderOn src a s) = renderOn src (a + b) s := by
  conv_rhs =>
    simp only [renderOn, generateBlended_add src a b h, processChannel_append, processChannel_length,
      generateBlended_length, outputFrames_append, smoothN_add, ← emit_emit]
  rfl

theorem renderOff_add : renderOff b (renderOff a s) = renderOff (a + b) s := by
  conv_rhs => rw [renderOff, smoothN_add, Nat.mul_add, List.replicate_add, ← emit_emit]
  rfl

theorem renderPath_add (h : s.power = false ∨ ∃ c, select s.color = .pure c) :
    renderPath src b (renderPath src a s) = renderPath src (a + b) s := by
  have hnext : (renderPath src a s).power = s.power := renderPath_power src a s
  cases hpower : s.power with
  | true =>
    obtain ⟨c, hc⟩ := h.resolve_left (ne_false_of_eq_true hpower)
    rw [renderPath_on _ _ (hnext.trans hpower), renderPath_on _ _ hpower, renderPath_on _ _ hpower,
      renderOn_add src a b hc]
  | false =>
    rw [renderPath_off _ _ (hnext.trans hpower), renderPath_off _ _ hpower, renderPath_off _ _ hpower, renderOff_add]

end

/-- Settles O34: the three blocks are legal, and the second goes on where the first stopped. -/
theorem pureBlocksConcatenate : Obligations.PureBlocksConcatenate := by
  intro s a b hsum hmax hpure
  have ha : a.toNat ≤ blockConfig.maxBlock := by omega
  have hb : b.toNat ≤ blockConfig.maxBlock := by omega
  refine ⟨_, _, exec_render_of_le ha s, exec_render_of_le hb _, ?_⟩
  rw [exec_render_of_le hmax, hsum, renderPath_add _ _ _ hpure]

/-! ### The core that waits (R277) -/

theorem Port.overfull_iff {port : Port} :
    port.overfull = true ↔ ∃ d, port.rspDepth = some d ∧ d < port.rspq.length := by
  rw [← Bool.not_eq_false, Port.overfull_eq_false_iff]
  simp only [not_forall, Nat.not_le, exists_prop]

theorem stalled_iff {s : State} :
    stalled s = true ↔ ∃ port, s.ports[s.issuer]? = some port ∧ port.overfull = true := by
  unfold stalled
  cases s.ports[s.issuer]? <;> simp

theorem coreTurn_of_stalled {s : State} (h : stalled s = true) (choice : Option Nat) : coreTurn choice s = .next s := by
  rw [coreTurn, if_pos h, ite_self]

/-- Settles O11: the issuing port is overfull, and the core's turn is idle; only a grant is spent. -/
theorem stalledCoreWaits : Obligations.StalledCoreWaits := by
  refine fun s => ⟨?_, fun hstalled => ⟨fun he => ?_, fun p rest he => ?_⟩⟩
  · simp only [stalled_iff, Port.overfull_iff, exists_and_left]
  · rw [step, he]
    exact coreTurn_of_stalled hstalled none
  · have hspent : stalled { s with env := rest } = true := hstalled
    rw [step, he]
    exact coreTurn_of_stalled hspent (some p)

/-! ### The reset input (R270, R271) -/

/-- Settles O16: the assertion clears everything but the outside, and the release only ends it. -/
theorem resetFromAnyState : Obligations.ResetFromAnyState := by
  intro s rest he
  refine ⟨assertReset blockConfig { s with env := .releaseReset :: rest }, ?assert, rfl, rfl⟩
  case assert => rw [step, he]

section
variable {s : State} (h : s.inReset = true)
include h

theorem coreTurn_of_inReset (choice : Option Nat) : coreTurn choice s = .next s := if_pos h

theorem hostSend_of_inReset (p : Nat) (w : CmdWord) : hostSend p w s = s := if_pos h

theorem hostSendByte_of_inReset (p : Nat) (b : Byte) : hostSendByte p b s = s := if_pos h

theorem hostTake_of_inReset (p : Nat) : hostTake p s = s := if_pos h

end

/-- Settles O17: the core's turn and every host's move leave the state as it is, whichever the event. -/
theorem assertedResetBlocksThePorts : Obligations.AssertedResetBlocksThePorts := by
  refine fun s hreset => ⟨fun he => ?_, fun e rest he hassert hrelease => ?_⟩
  · rw [step, he]
    exact coreTurn_of_inReset hreset none
  · have hspent : { s with env := rest }.inReset = true := hreset
    rw [step, he]
    cases e with
    | send p w => exact congrArg _ (hostSend_of_inReset hspent p w)
    | sendByte p b => exact congrArg _ (hostSendByte_of_inReset hspent p b)
    | take p => exact congrArg _ (hostTake_of_inReset hspent p)
    | grant p => exact coreTurn_of_inReset hspent (some p)
    | assertReset => exact absurd rfl hassert
    | releaseReset => exact absurd rfl hrelease

end Sys2Proof.Machine
end
